-- ==== Sys2Proof/Word.lean ====
section
/-! DEFINITION. The word types of NPB-MUX (rule R9: every value is unsigned; bit 0 is the least significant). -/

namespace Sys2Proof

/-- A command word, a response word, a status register (rules R33, R90). -/
abbrev Word := BitVec 32

/-- A 16-bit field: ARG, `maxLaneDataSize`, `capSlots` (rules R30, R91). -/
abbrev Half := BitVec 16

/-- A byte of the shared region, a source byte of ENCODE (rules R64, R95). -/
abbrev Byte := BitVec 8

/-- The 8-bit lane operand of word 0 (rule R91); 0xFF is `INVALID_LANE`. -/
abbrev LaneId := BitVec 8

/-- A bitmap with one bit per lane (rule R11): bit `i` belongs to lane `i`. It has room for the widest instance, W = 16; bits from
W up are 0 in every reachable state (log 2). -/
abbrev LaneMask := BitVec 16

/-- A payload cell and the level of the output lines (rules R62, R203): bit `i` is lane `i`'s line. Room for W = 16, as `LaneMask`. -/
abbrev LineCell := BitVec 16

end Sys2Proof
end

