-- ==== Sys2Proof/Syntax.lean ====
section
/-! DEFINITION. The commands of the block: one constructor per row of spec/opcode_table.json (rule R97), with the operands of rules R91
to R95. The constructor holds the fields a row uses; the reserved ones are 0 (rule R98) and have no place in it. -/

namespace Sys2Proof

/-- A command. ENCODE carries its COUNT source bytes; COUNT is their number (rule R93). -/
inductive Instr where
  | registerLane (dataSize : Half)
  | deregisterLane (lane : LaneId)
  | beginFill
  | encode (lane : LaneId) (handle : Word) (data : List Byte)
  | endFill (lane : LaneId)
  | isTransferDone
  | markLaneComplete (lane : LaneId)
  | allLanesComplete
  | noLanesComplete
  | resetCompletion
  | construct
  | destruct
  | resetBufferForCycle
  | triggerTransferIfReady
  | readStatus (sel : Half)
  deriving DecidableEq, Repr

end Sys2Proof
end

