-- ==== Sys2Proof/WellFormed.lean ====
section
/-! DEFINITION. Which commands have an encoding. Every field but one has its width in its type; the one check is that an ENCODE's
bytes can be counted by its 16-bit COUNT (rule R93: 0..65535). -/

namespace Sys2Proof

/-- The command can be encoded: rule R93's bound on COUNT. -/
def Instr.wf : Instr → Bool
  | .registerLane _ => true
  | .deregisterLane _ => true
  | .beginFill => true
  | .encode _ _ data => data.length ≤ 65535
  | .endFill _ => true
  | .isTransferDone => true
  | .markLaneComplete _ => true
  | .allLanesComplete => true
  | .noLanesComplete => true
  | .resetCompletion => true
  | .construct => true
  | .destruct => true
  | .resetBufferForCycle => true
  | .triggerTransferIfReady => true
  | .readStatus _ => true

end Sys2Proof
end

