-- ==== Sys2Proof/Decode.lean ====
section
/-! DEFINITION. The command decoder, total on every list of words and rejecting by name (rules R91 to R100), the opcode map of rule R97
as a table of masks, the hold column, and the encoder. -/

namespace Sys2Proof

/-! ### Word 0 -/

/-- OP, word 0 [7:0] (rule R91). -/
def opField (w : Word) : Byte := w.extractLsb' 0 8

/-- LANE, word 0 [15:8] (rule R91). -/
def laneField (w : Word) : LaneId := w.extractLsb' 8 8

/-- ARG, word 0 [31:16] (rule R91). -/
def argField (w : Word) : Half := w.extractLsb' 16 16

/-- Word 0 from its three fields (format F1, rule R91). -/
def f1 (op : Byte) (lane : LaneId) (arg : Half) : Word := arg ++ lane ++ op

/-- The number of words of the command whose word 0 is `w`, from word 0 alone (rule R92). -/
def commandLength (w : Word) : Nat :=
  if opField w = 0x04#8 then 2 + ((argField w).toNat + 3) / 4 else 1

/-! ### The opcode map -/

/-- A row of the opcode map: `mask` and `pattern` apply to word 0 (rule R97). -/
structure OpcodeRow where
  mnemonic : String
  pattern  : Word
  mask     : Word
  hold     : Bool
  deriving DecidableEq, Repr

/-- The opcode map of rule R97, row by row as spec/opcode_table.json has it. -/
def opcodeMap : List OpcodeRow :=
  [ ⟨"REGISTER_LANE",             0x00000001#32, 0x0000FFFF#32, false⟩,
    ⟨"DEREGISTER_LANE",           0x00000002#32, 0xFFFF00FF#32, true⟩,
    ⟨"BEGIN_FILL",                0x00000003#32, 0xFFFFFFFF#32, true⟩,
    ⟨"ENCODE",                    0x00000004#32, 0x000000FF#32, true⟩,
    ⟨"END_FILL",                  0x00000005#32, 0xFFFF00FF#32, true⟩,
    ⟨"IS_TRANSFER_DONE",          0x00000006#32, 0xFFFFFFFF#32, false⟩,
    ⟨"MARK_LANE_COMPLETE",        0x00000007#32, 0xFFFF00FF#32, true⟩,
    ⟨"ALL_LANES_COMPLETE",        0x00000008#32, 0xFFFFFFFF#32, false⟩ ] ++
  [ ⟨"NO_LANES_COMPLETE",         0x00000009#32, 0xFFFFFFFF#32, false⟩,
    ⟨"RESET_COMPLETION",          0x0000000A#32, 0xFFFFFFFF#32, true⟩,
    ⟨"CONSTRUCT",                 0x0000000B#32, 0xFFFFFFFF#32, false⟩,
    ⟨"DESTRUCT",                  0x0000000C#32, 0xFFFFFFFF#32, true⟩,
    ⟨"RESET_BUFFER_FOR_CYCLE",    0x0000000D#32, 0xFFFFFFFF#32, true⟩,
    ⟨"TRIGGER_TRANSFER_IF_READY", 0x0000000E#32, 0xFFFFFFFF#32, true⟩,
    ⟨"READ_STATUS",               0x0000000F#32, 0x0000FFFF#32, false⟩ ]

/-- The row's mask and pattern select word 0. -/
def OpcodeRow.selects (r : OpcodeRow) (w : Word) : Bool := w &&& r.mask == r.pattern

/-- The mnemonic of a command, as rule R97 spells it. -/
def Instr.mnemonic : Instr → String
  | .registerLane _ => "REGISTER_LANE"
  | .deregisterLane _ => "DEREGISTER_LANE"
  | .beginFill => "BEGIN_FILL"
  | .encode _ _ _ => "ENCODE"
  | .endFill _ => "END_FILL"
  | .isTransferDone => "IS_TRANSFER_DONE"
  | .markLaneComplete _ => "MARK_LANE_COMPLETE"
  | .allLanesComplete => "ALL_LANES_COMPLETE"
  | .noLanesComplete => "NO_LANES_COMPLETE"
  | .resetCompletion => "RESET_COMPLETION"
  | .construct => "CONSTRUCT"
  | .destruct => "DESTRUCT"
  | .resetBufferForCycle => "RESET_BUFFER_FOR_CYCLE"
  | .triggerTransferIfReady => "TRIGGER_TRANSFER_IF_READY"
  | .readStatus _ => "READ_STATUS"

/-- The hold class, the `H` column of rule R97 (rule R270 lists the same nine commands). -/
def Instr.holdClass : Instr → Bool
  | .registerLane _ => false
  | .deregisterLane _ => true
  | .beginFill => true
  | .encode _ _ _ => true
  | .endFill _ => true
  | .isTransferDone => false
  | .markLaneComplete _ => true
  | .allLanesComplete => false
  | .noLanesComplete => false
  | .resetCompletion => true
  | .construct => false
  | .destruct => true
  | .resetBufferForCycle => true
  | .triggerTransferIfReady => true
  | .readStatus _ => false

/-! ### The decoder -/

/-- Why a complete command is illegal (rules R98, R99). -/
inductive IllegalCommand where
  /-- OP is 0x00 or 0x10 to 0xFF (rule R99). -/
  | reservedOpcode
  /-- A reserved LANE field is not 0 (rule R98). -/
  | reservedLane
  /-- A reserved ARG field is not 0 (rule R98). -/
  | reservedArg
  deriving DecidableEq, Repr

/-- What the words received so far are. -/
inductive Decoded where
  /-- The command has words to come (rule R90). -/
  | incomplete
  /-- A complete command that raises ILLEGAL_CMD (rules R98, R99). -/
  | illegal (why : IllegalCommand)
  /-- A complete, legally encoded command. -/
  | instr (i : Instr)
  deriving DecidableEq, Repr

/-- The list has at least `n` members. -/
def hasAtLeast {α : Type} : Nat → List α → Bool
  | 0, _ => true
  | _ + 1, [] => false
  | n + 1, _ :: l => hasAtLeast n l

/-- The four bytes of a data word, byte `j` in bits [8j+7 : 8j] (rule R95). -/
def wordBytes (w : Word) : List Byte :=
  [w.extractLsb' 0 8, w.extractLsb' 8 8, w.extractLsb' 16 8, w.extractLsb' 24 8]

/-- The first `n` bytes of the data words; the last word's further bytes are ignored (rule R95). -/
def unpackBytes (n : Nat) (ws : List Word) : List Byte := (ws.flatMap wordBytes).take n

/-- The command unless LANE is not 0 (rule R98). -/
def needLaneZero (w : Word) (d : Decoded) : Decoded :=
  if laneField w = 0#8 then d else .illegal .reservedLane

/-- The command unless ARG is not 0 (rule R98). -/
def needArgZero (w : Word) (d : Decoded) : Decoded :=
  if argField w = 0#16 then d else .illegal .reservedArg

/-- A complete command from its word 0 and the words after it (rules R97 to R99). -/
def decodeComplete (w : Word) (rest : List Word) : Decoded :=
  match (opField w).toNat with
  | 0x01 => needLaneZero w (.instr (.registerLane (argField w)))
  | 0x02 => needArgZero w (.instr (.deregisterLane (laneField w)))
  | 0x03 => needLaneZero w (needArgZero w (.instr .beginFill))
  | 0x04 => .instr (.encode (laneField w) (rest.headD 0#32) (unpackBytes (argField w).toNat rest.tail))
  | 0x05 => needArgZero w (.instr (.endFill (laneField w)))
  | 0x06 => needLaneZero w (needArgZero w (.instr .isTransferDone))
  | 0x07 => needArgZero w (.instr (.markLaneComplete (laneField w)))
  | 0x08 => needLaneZero w (needArgZero w (.instr .allLanesComplete))
  | 0x09 => needLaneZero w (needArgZero w (.instr .noLanesComplete))
  | 0x0A => needLaneZero w (needArgZero w (.instr .resetCompletion))
  | 0x0B => needLaneZero w (needArgZero w (.instr .construct))
  | 0x0C => needLaneZero w (needArgZero w (.instr .destruct))
  | 0x0D => needLaneZero w (needArgZero w (.instr .resetBufferForCycle))
  | 0x0E => needLaneZero w (needArgZero w (.instr .triggerTransferIfReady))
  | 0x0F => needLaneZero w (.instr (.readStatus (argField w)))
  | _ => .illegal .reservedOpcode

/-- The decoder (rule R100: one function of the words, total). The words are those received so far, the first first. -/
def decode : List Word → Decoded
  | [] => .incomplete
  | w :: rest => if hasAtLeast (commandLength w) (w :: rest) then decodeComplete w rest else .incomplete

/-! ### The encoder -/

/-- Four bytes packed into a data word, byte 0 lowest (rule R95). -/
def packWord (b0 b1 b2 b3 : Byte) : Word := b3 ++ b2 ++ b1 ++ b0

/-- The data words of an ENCODE, four bytes to a word; the bytes of the last word past the end are 0 (rule R95 lets them be anything). -/
def packBytes : List Byte → List Word
  | [] => []
  | [b0] => [packWord b0 0#8 0#8 0#8]
  | [b0, b1] => [packWord b0 b1 0#8 0#8]
  | [b0, b1, b2] => [packWord b0 b1 b2 0#8]
  | b0 :: b1 :: b2 :: b3 :: bs => packWord b0 b1 b2 b3 :: packBytes bs

/-- Word 0 of a command: its opcode and fields, the reserved ones 0 (rules R91, R97). FAULT_INFO records it (rule R241). -/
def Instr.word0 : Instr → Word
  | .registerLane dataSize => f1 0x01#8 0#8 dataSize
  | .deregisterLane lane => f1 0x02#8 lane 0#16
  | .beginFill => f1 0x03#8 0#8 0#16
  | .encode lane _ data => f1 0x04#8 lane (BitVec.ofNat 16 data.length)
  | .endFill lane => f1 0x05#8 lane 0#16
  | .isTransferDone => f1 0x06#8 0#8 0#16
  | .markLaneComplete lane => f1 0x07#8 lane 0#16
  | .allLanesComplete => f1 0x08#8 0#8 0#16
  | .noLanesComplete => f1 0x09#8 0#8 0#16
  | .resetCompletion => f1 0x0A#8 0#8 0#16
  | .construct => f1 0x0B#8 0#8 0#16
  | .destruct => f1 0x0C#8 0#8 0#16
  | .resetBufferForCycle => f1 0x0D#8 0#8 0#16
  | .triggerTransferIfReady => f1 0x0E#8 0#8 0#16
  | .readStatus sel => f1 0x0F#8 0#8 sel

/-- The words after word 0: none but for ENCODE, which has HANDLE and the data words (format F2, rule R93). -/
def Instr.operandWords : Instr → List Word
  | .registerLane _ => []
  | .deregisterLane _ => []
  | .beginFill => []
  | .encode _ handle data => handle :: packBytes data
  | .endFill _ => []
  | .isTransferDone => []
  | .markLaneComplete _ => []
  | .allLanesComplete => []
  | .noLanesComplete => []
  | .resetCompletion => []
  | .construct => []
  | .destruct => []
  | .resetBufferForCycle => []
  | .triggerTransferIfReady => []
  | .readStatus _ => []

/-- The words of a command (rules R91 to R95). -/
def encode (i : Instr) : List Word := i.word0 :: i.operandWords

/-! ### The host's question -/

/-- The words of the instruction whose bits, numbered as spec/opcode_table.json numbers them, are `w`: as many words as word 0 asks
for, every bit from `nbits` up 0. The port takes 32-bit words, the first first (rule R90). -/
def tableWords (nbits w : Nat) : List Word :=
  let v := w % 2 ^ nbits
  (List.range (commandLength (BitVec.ofNat 32 v))).map fun k => BitVec.ofNat 32 (v >>> (32 * k))

/-- The instruction the decoder reads from a row of the opcode table, none where it refuses. -/
def decodeTableWord (nbits w : Nat) : Option Instr :=
  match decode (tableWords nbits w) with
  | .instr i => some i
  | .illegal _ => none
  | .incomplete => none

end Sys2Proof
end

