-- ==== Sys2Proof/Config.lean ====
section
/-! DEFINITION. What an instance of the block fixes (rule R7) and the free values the spec leaves open (opaque, no body: nothing can
compute one). A value outside R7's admitted column has no instance: widths and expansion factors are closed types, and
`Config.Admitted` (Machine/Operands.lean) says the rest. -/

namespace Sys2Proof

/-- BUS_WIDTH, rule R7: W is 8 or 16; other widths have no instance (D6). -/
inductive BusWidth where
  | w8
  | w16
  deriving DecidableEq, Repr

/-- CELLS_PER_BIT, rule R7: K is 3 or 4; other values have no instance (D8). -/
inductive CellsPerBit where
  | k3
  | k4
  deriving DecidableEq, Repr

/-- SPEED_CLASS, rule R7: 800K, or one of the classes the spec leaves OPEN (D30), named by a number. No rule depends on it. -/
inductive SpeedClass where
  | k800
  | other (code : Nat)
  deriving DecidableEq, Repr

/-- The constants of one instance, rule R7. `cellOrder` lists sigma(0), sigma(1), .. sigma(G - 1). -/
structure Config where
  width     : BusWidth
  cells     : CellsPerBit
  speed     : SpeedClass
  cellOrder : List Nat
  mtu       : Nat
  descBytes : Nat
  deriving DecidableEq, Repr

/-- The default instance of rule R7: W = 8, K = 4, 800K, CELL_ORDER the identity, MTU 4092, DESC_BYTES 12. -/
def Config.default : Config :=
  { width := .w8, cells := .k4, speed := .k800, cellOrder := [0, 1, 2, 3], mtu := 4092, descBytes := 12 }

/-- A descriptor of the chain, rule R67, kept as a record: its byte encoding is OPEN (D15). -/
structure Descriptor where
  segOff : Nat
  segLen : Nat
  next   : Option Nat
  eof    : Bool
  deriving DecidableEq, Repr

/-- The Allocator's answer, rule R66. `ok q` is the base address `4 * q`, so exactly the bases with `base mod 4 = 0` are answers. -/
inductive AllocAnswer where
  | ok (baseWord : Nat)
  | fail
  deriving DecidableEq, Repr, Inhabited

/-- The agents that take steps of their own in `step` (rule R6); the Allocator only answers a CONSTRUCT. -/
inductive Agent where
  | host
  | commandUnit
  | transferEngine
  deriving DecidableEq, Repr, Inhabited

/-- DESIGN CHOICE, log 3: the Allocator's `n`-th free answer, when no answer is listed in State (item 25 of spec/93). -/
opaque Config.allocatorAnswer : Nat → AllocAnswer

/-- DESIGN CHOICE, log 4: the `n`-th free choice among enabled agents, when no choice is listed in State (item 26 of spec/93). -/
opaque Config.agentChoice : Nat → Agent

/-- DESIGN CHOICE, log 9: byte `j` of the downstream encoding of a descriptor, which the spec leaves OPEN (rule R67, D15). -/
opaque Config.descriptorByte : Descriptor → Nat → Byte

/-- DESIGN CHOICE, log 11: CONFIG bits [31:16] of an instance whose MTU div 4 does not fit 16 bits; R47 states no value there. -/
opaque Config.wideMtuField : Nat → Half

end Sys2Proof
end

