-- ==== Sys2Proof/Machine/State.lean ====
section
/-! DEFINITION. The state of one instance of NPB-MUX (rules R30 to R51), as plain data; the reasons a step can stop; the state after
reset (rules R260, R261). -/

namespace Sys2Proof.Machine

/-- `bufState`: the shared buffer's two states (rule R30; R38: 0 Unallocated, 1 Allocated). -/
inductive BufState where
  | unallocated
  | allocated
  deriving DecidableEq, Repr

/-- An action of the Host agent (rules R6, R90, R103, R260), taken in the list's order. -/
inductive HostAction where
  /-- Send a command word (rule R90). -/
  | send (w : Word)
  /-- Read the oldest response; waits while there is none (rule R90). -/
  | read
  /-- WAIT_DONE (rule R103): send IS_TRANSFER_DONE, then await its response. -/
  | waitDone
  /-- The second half of a poll (rule R103): `older` responses of commands sent before the poll are still to be read (responses queue in
  order, rule R90); then the poll's own response is read, and the host polls again unless it is 1. -/
  | awaitDone (older : Nat)
  /-- Reset the block (rule R260). -/
  | reset
  deriving DecidableEq, Repr

/-- A transfer that ended, as it was observed (rule R208): its frame, cell 0 first, and whether it reached its completion step;
only a reset ends one before that (rule R262). -/
structure Transfer where
  frame     : List LineCell
  completed : Bool
  deriving DecidableEq, Repr

/-- Draws from outside the block: the values that come next, then, past their end, free values numbered by `used`. -/
structure Draws (α : Type) where
  script : List α
  used   : Nat
  deriving DecidableEq, Repr

/-- The memory of the shared region as the nonzero bytes of its payload, by region offset (rules R60, R63); an unlisted payload byte is
0, as ZeroCells leaves it (rule R164). Addresses rise strictly and no listed byte is 0 (`Memory.wf`). -/
abbrev Memory := List Host.Cell

/-- The state of one instance: the elements of rule R30 under their own names, the queues of the command port (rule R90), the
instance's constants (rule R7), and last the environment's and the observer's fields, which are the model's own. -/
structure State where
  /-- The instance's constants (rule R7); nothing writes them (log 1). -/
  cfg             : Config
  activeMask      : LaneMask
  completeMask    : LaneMask
  laneCount       : BitVec 5
  maxLaneDataSize : Half
  bufState        : BufState
  capSlots        : Half
  payloadBytes    : Word
  descCount       : Word
  bufSize         : Word
  /-- The region's address, none while there is no region (rules R30, R66). -/
  bufBase         : Option Nat
  /-- The payload's bytes, which hold the cells (rules R62, R63). -/
  mem             : Memory
  /-- The descriptor chain (rule R67). -/
  descs           : List Descriptor
  xferBusy        : Bool
  xferPos         : Word
  lines           : LineCell
  /-- FAULT (rule R44). -/
  fault           : Word
  /-- FAULT_INFO (rule R45). -/
  faultInfo       : Word
  /-- DIAG (rule R46). -/
  diag            : Word
  /-- The words received of the command at the head; a held command stays here (rules R31, R51). -/
  cmdBuf          : List Word
  /-- Words sent and not yet taken into `cmdBuf`, the first first (rule R90; log 6). -/
  port            : List Word
  /-- Response words not yet read, the first first (rule R90). -/
  responses       : List Word
  /-- The host's coming actions (the model's own; log 7). -/
  host            : List HostAction
  /-- The response words the host has read, the first first (the model's own; log 7). -/
  received        : List Word
  /-- The Allocator's coming answers (the model's own; rule R66, log 3). -/
  alloc           : Draws AllocAnswer
  /-- The coming choices among enabled agents (the model's own; rules R200, R247, log 4). -/
  sched           : Draws Agent
  /-- The cells emitted in the transfer in flight (the model's own; rule R208, log 8). -/
  frame           : List LineCell
  /-- The transfers that ended, the first first (the model's own; rule R208, log 8). -/
  sent            : List Transfer
  deriving DecidableEq, Repr

/-- Why the model's machine stops. The spec's own faults are FAULT bits, after which the block goes on (rule R241): they are no stops. -/
inductive Fault where
  /-- An access at region offsets outside `0 .. bufSize - 1`, or with no region, which rule R64 gives no meaning. Raised by ENCODE and
  by the Transfer Engine, in states no run reaches. Safe: the model stops where the spec says nothing (log 10). -/
  | outsideRegion
  deriving DecidableEq, Repr

/-- Why the model gives an instruction no meaning. -/
inductive Refusal where
  /-- The instruction of that mnemonic has no meaning yet. Raised by no arm of `exec`: every command of rule R97 is modelled. Safe. -/
  | notModelled (mnemonic : String)
  deriving DecidableEq, Repr

/-- What a step or a meaning answers. -/
abbrev Out := Host.Outcome State Fault Refusal

/-- The state after reset of the instance `c` (rules R260, R261, the reset column of R30). The environment has nothing scripted and no
draw has been made (logs 3, 4, 7, 8). -/
def State.resetOf (c : Config) : State :=
  { cfg := c
    activeMask := 0#16, completeMask := 0#16, laneCount := 0#5, maxLaneDataSize := 0#16
    bufState := .unallocated, capSlots := 0#16, payloadBytes := 0#32, descCount := 0#32, bufSize := 0#32
    bufBase := none, mem := [], descs := []
    xferBusy := false, xferPos := 0#32, lines := 0#16
    fault := 0#32, faultInfo := 0#32, diag := 0#32
    cmdBuf := [], port := [], responses := []
    host := [], received := []
    alloc := { script := [], used := 0 }, sched := { script := [], used := 0 }
    frame := [], sent := [] }

/-- The state after reset of the default instance (rule R7's defaults). -/
def State.reset : State := State.resetOf Config.default

end Sys2Proof.Machine
end

