-- ==== Sys2Proof/Machine/Operands.lean ====
section
/-! DEFINITION. The instance's derived constants (rules R7, R8, R75), the operand forms (lanes and masks: rules R11, R96) and
the free draws. -/

namespace Sys2Proof

/-! ### Derived constants of an instance (rule R8) -/

/-- W: bits of a cell, the number of lane ids (rule R7). -/
def Config.bits (c : Config) : Nat :=
  match c.width with
  | .w8 => 8
  | .w16 => 16

/-- K: cells of a source bit (rule R7). -/
def Config.cellsPerBit (c : Config) : Nat :=
  match c.cells with
  | .k3 => 3
  | .k4 => 4

/-- CB = W / 8: bytes of a cell (rule R8). -/
def Config.cellBytes (c : Config) : Nat := c.bits / 8

/-- G = 32 / W: cells of a storage word (rule R8). -/
def Config.cellsPerWord (c : Config) : Nat := 32 / c.bits

/-- CPS = 8K: cells of a byte slot (rule R8). -/
def Config.cellsPerSlot (c : Config) : Nat := 8 * c.cellsPerBit

/-- sigma = CELL_ORDER: the slot of a storage word that holds its `j`-th cell (rules R7, R63). -/
def Config.sigma (c : Config) (j : Nat) : Nat := c.cellOrder.getD j 0

/-- The first cell of byte slot `h` (rules R62, R94). -/
def Config.slotStart (c : Config) (h : Nat) : Nat := h * c.cellsPerSlot

/-- payloadBytes of `cap` byte slots, on unbounded naturals (rule R75). -/
def Config.payloadSize (c : Config) (cap : Nat) : Nat := cap * c.cellsPerSlot * c.cellBytes

/-- descCount = max(1, ceil(payloadBytes / MTU)) (rule R75). -/
def Config.descriptorCount (c : Config) (cap : Nat) : Nat := max 1 ((c.payloadSize cap + c.mtu - 1) / c.mtu)

/-- bufSize = descCount * DESC_BYTES + payloadBytes (rule R75). -/
def Config.regionSize (c : Config) (cap : Nat) : Nat := c.descriptorCount cap * c.descBytes + c.payloadSize cap

/-- The admitted instances: rule R7's column (CELL_ORDER a permutation of 0..G-1, MTU a multiple of 4 and at least 4, DESC_BYTES a
multiple of 4), and every `bufSize` fits its 32-bit register, as R9 and R30 need (DEDUCED, log 12). -/
abbrev Config.Admitted (c : Config) : Prop :=
  c.cellOrder.Perm (List.range c.cellsPerWord) ∧ c.mtu % 4 = 0 ∧ 4 ≤ c.mtu ∧ c.descBytes % 4 = 0 ∧ c.regionSize 65535 < 2 ^ 32

/-- T_BIT in nanoseconds for 800K; the other speed classes are OPEN (rule R207). Nothing of the machine reads it (log 13). -/
def SpeedClass.bitNanoseconds : SpeedClass → Option Nat
  | .k800 => some 1250
  | .other _ => none

/-- The duration of a transfer, capSlots * 8 * T_BIT (rule R207). Nothing of the machine reads it (log 13). -/
def Config.transferNanoseconds (c : Config) (cap : Nat) : Option Nat :=
  c.speed.bitNanoseconds.map fun t => cap * 8 * t

namespace Machine

/-! ### Masks and lanes (rules R11, R96) -/

/-- `bit(i)`: the mask of one lane (rule R11). -/
def laneBit (i : Nat) : LaneMask := 1#16 <<< i

/-- The number of 1 bits (rule R9). -/
def popcount (m : LaneMask) : Nat := (List.range 16).countP m.getLsbD

/-- The least `i` in 0..w-1 with bit `i` clear, none if there is none (rule R11). -/
def lowestFree (w : Nat) (m : LaneMask) : Option Nat := (List.range w).find? fun i => !m.getLsbD i

/-- The `INVALID_LANE` sentinel (rule R7). -/
def invalidLane : LaneId := 0xFF#8

/-- A lane operand is in range and active (rule R96). -/
def State.laneActive (s : State) (lane : LaneId) : Bool :=
  decide (lane.toNat < s.cfg.bits) && s.activeMask.getLsbD lane.toNat

/-! ### Draws -/

/-- The next draw: the next listed value, or the free value of the next number. -/
def Draws.value {α : Type} (d : Draws α) (free : Nat → α) : α := d.script.headD (free d.used)

/-- The draws after one was made. -/
def Draws.pop {α : Type} (d : Draws α) : Draws α :=
  match d.script with
  | [] => { d with used := d.used + 1 }
  | _ :: vs => { d with script := vs }

/-- The draws with a value put first. -/
def Draws.push {α : Type} (d : Draws α) (a : α) : Draws α := { d with script := a :: d.script }

end Machine
end Sys2Proof
end

