-- ==== Sys2Proof/Machine/Flags.lean ====
section
/-! DEFINITION. The block's flags (rules R33, R240, R244): the FAULT and DIAG bits, and the predicates computed from the state. There
are no arithmetic condition codes (rule R33). -/

namespace Sys2Proof.Machine

/-- Fault causes (rule R240). -/
inductive FaultCode where
  | illegalCmd
  | badLane
  | notAllocated
  | outOfBounds
  | prematureDestruct
  | constructNoLanes
  deriving DecidableEq, Repr

/-- The code of a cause is its bit number in FAULT (rule R240). -/
def FaultCode.number : FaultCode → Nat
  | .illegalCmd => 0
  | .badLane => 1
  | .notAllocated => 2
  | .outOfBounds => 3
  | .prematureDestruct => 4
  | .constructNoLanes => 5

/-- Diagnostic conditions (rule R244). -/
inductive DiagBit where
  | lanesFull
  | allocFail
  deriving DecidableEq, Repr

/-- The bit number of a diagnostic in DIAG (rule R244). -/
def DiagBit.number : DiagBit → Nat
  | .lanesFull => 0
  | .allocFail => 1

/-- A register with bit `n` set. -/
def setBit (r : Word) (n : Nat) : Word := r ||| (1#32 <<< n)

/-- A 0/1 response or status bit (rule R101: bit 0, zero-extended). -/
def flagWord (b : Bool) : Word := if b then 1#32 else 0#32

/-- XFER_DONE = NOT xferBusy (rules R33, R43). -/
def State.xferDone (s : State) : Bool := !s.xferBusy

/-- AllLanesComplete: the masks are equal (rule R145). -/
def State.allLanesComplete (s : State) : Bool := s.completeMask == s.activeMask

/-- NoLanesComplete: the completion bitmap is empty (rule R146). -/
def State.noLanesComplete (s : State) : Bool := s.completeMask == 0#16

/-- The bit BUF_STATE reads (rule R38). -/
def BufState.bit : BufState → Bool
  | .unallocated => false
  | .allocated => true

end Sys2Proof.Machine
end

