-- ==== Sys2Proof/Machine/Ops.lean ====
section
/-! DEFINITION. The operations the commands share: the region's memory and its cells (rules R60 to R64), the response (R90, R101),
raising a fault (R241), the hold (R270), and the internal procedures ZeroCells (R164), TeardownBuffer (R162), StartTransfer (R166). -/

namespace Sys2Proof.Machine

/-! ### Bytes -/

/-- The canonical form: addresses rise strictly and no listed byte is 0, which is what an unlisted payload byte reads as (R164). -/
abbrev Memory.wf (m : Memory) : Prop := m.Pairwise (fun a b => a.1 < b.1) ∧ ∀ c ∈ m, c.2 ≠ 0#8

/-- One byte. -/
def Memory.read (m : Memory) (a : Nat) : Byte :=
  match m with
  | [] => 0#8
  | c :: m => if c.1 = a then c.2 else Memory.read m a

/-- Store one byte; storing 0 removes the entry. -/
def Memory.write (m : Memory) (a : Nat) (b : Byte) : Memory :=
  match m with
  | [] => if b = 0#8 then [] else [(a, b)]
  | c :: m =>
    if a < c.1 then (if b = 0#8 then c :: m else (a, b) :: c :: m)
    else if a = c.1 then (if b = 0#8 then m else (a, b) :: m)
    else c :: Memory.write m a b

/-- MemRead(off, n): the little-endian value of `n` bytes (rule R64). -/
def memRead (m : Memory) (off : Nat) : Nat → Nat
  | 0 => 0
  | n + 1 => (Memory.read m off).toNat + 256 * memRead m (off + 1) n

/-- MemWrite(off, n, v): store the low `n` bytes of `v`, little-endian (rule R64). -/
def memWrite (m : Memory) (off : Nat) (n : Nat) (v : Nat) : Memory :=
  match n with
  | 0 => m
  | n + 1 => memWrite (Memory.write m off (BitVec.ofNat 8 v)) (off + 1) n (v / 256)

/-- Every byte in `[lo, lo + len)` becomes 0. -/
def Memory.clear (m : Memory) (lo len : Nat) : Memory := m.filter fun c => decide (c.1 < lo) || decide (lo + len ≤ c.1)

/-! ### Cells -/

/-- CellOffset(t), for a payload at region offset `po` (rule R63). -/
def cellOffset (c : Config) (po t : Nat) : Nat :=
  po + 4 * (t / c.cellsPerWord) + c.cellBytes * c.sigma (t % c.cellsPerWord)

/-- CellRead(t) (rule R63). -/
def cellRead (c : Config) (po : Nat) (m : Memory) (t : Nat) : LineCell :=
  BitVec.ofNat 16 (memRead m (cellOffset c po t) c.cellBytes)

/-- CellWrite(t, v): the W low bits of `v` (rule R63). -/
def cellWrite (c : Config) (po : Nat) (m : Memory) (t : Nat) (v : LineCell) : Memory :=
  memWrite m (cellOffset c po t) c.cellBytes v.toNat

/-- `cell[t] <- cell[t] | (zext_W(b) << lane)` (rule R124). -/
def orCell (c : Config) (po lane : Nat) (m : Memory) (t : Nat) (b : Bool) : Memory :=
  cellWrite c po m t (cellRead c po m t ||| (if b then laneBit lane else 0#16))

/-- A sequence of one lane's bits OR-ed into consecutive cells from `t` on (rule R124's inner loops). -/
def orCells (c : Config) (po lane : Nat) (m : Memory) (t : Nat) : List Bool → Memory
  | [] => m
  | b :: bs => orCells c po lane (orCell c po lane m t b) (t + 1) bs

/-- PAYLOAD_OFF = descCount * DESC_BYTES (rule R61). -/
def State.payloadOff (s : State) : Nat := s.descCount.toNat * s.cfg.descBytes

/-- NCELLS = capSlots * CPS (rule R62). -/
def State.ncells (s : State) : Nat := s.capSlots.toNat * s.cfg.cellsPerSlot

/-- `cell[t]` of the payload (rule R62). -/
def State.cell (s : State) (t : Nat) : LineCell := cellRead s.cfg s.payloadOff s.mem t

/-- The region exists and holds the `n` bytes at `off`: where rule R64 defines an access. -/
def State.inRegion (s : State) (off n : Nat) : Bool := (s.bufState == .allocated) && decide (off + n ≤ s.bufSize.toNat)

/-- The region's byte at `off`, none outside the region (rules R60, R61, R64). A descriptor's bytes are free values: their encoding is
OPEN (rule R67, log 9). -/
def State.regionByte (s : State) (off : Nat) : Option Byte :=
  if s.inRegion off 1 then
    if off < s.payloadOff then
      (s.descs[off / s.cfg.descBytes]?).map fun d => Config.descriptorByte d (off % s.cfg.descBytes)
    else some (Memory.read s.mem off)
  else none

/-! ### The response, the fault, the hold -/

/-- The command is performed: its response joins the queue and `cmdBuf` becomes empty (rules R31, R90). -/
def respond (v : Word) (s : State) : State := { s with responses := s.responses ++ [v], cmdBuf := [] }

/-- ERR_RESP (rule R101). -/
def errResp : Word := 0xFFFFFFFF#32

/-- What a fault of the command whose word 0 is `w` records: FAULT_INFO if it is the first, then the FAULT bit (rule R241). -/
def recordFault (code : FaultCode) (w : Word) (s : State) : State :=
  { s with
    faultInfo := if s.fault = 0#32 then w else s.faultInfo
    fault := setBit s.fault code.number }

/-- `raise Fault(CODE)` (rule R241): this hardware's one way of taking an exception. There is no handler to enter and none to return
from (rule R243); the Command Unit goes on with the next command. -/
def raiseFault (code : FaultCode) (w : Word) (s : State) : State := respond errResp (recordFault code w s)

/-- Record a logged condition (rules R244, R245). -/
def logDiag (d : DiagBit) (s : State) : State := { s with diag := setBit s.diag d.number }

/-- One draw of the Allocator's answers was used (rule R66). -/
def askAllocator (s : State) : State := { s with alloc := s.alloc.pop }

/-- ResetCompletion's effect: the completion bitmap is empty (rule R147). -/
def emptyCompletion (s : State) : State := { s with completeMask := 0#16 }

/-- The payload's bytes are replaced. -/
def storePayload (m : Memory) (s : State) : State := { s with mem := m }

/-- `hold until xferBusy = 0` (rule R270): while a transfer runs the command waits in `cmdBuf` and nothing changes. -/
def hold (s : State) (performed : Out) : Out := if s.xferBusy then .next s else performed

/-! ### Internal procedures -/

/-- ZeroCells (rule R164): every payload byte 0; the descriptors stay. -/
def zeroCells (s : State) : State := { s with mem := Memory.clear s.mem s.payloadOff s.payloadBytes.toNat }

/-- The effect of a cycle's clear: zero the payload only if no lane has completed (rules R163, R180). -/
def clearForCycle (s : State) : State := if s.noLanesComplete then zeroCells s else s

/-- Descriptor(k) of a chain of `count` whose payload has `bytes` bytes at region offset `po` (rule R67). -/
def descriptorAt (c : Config) (po bytes count k : Nat) : Descriptor :=
  { segOff := po + k * c.mtu
    segLen := min c.mtu (bytes - k * c.mtu)
    next := if k + 1 < count then some (k + 1) else none
    eof := k + 1 == count }

/-- The chain for `cap` byte slots (rules R67, R75). -/
def descriptorChain (c : Config) (cap : Nat) : List Descriptor :=
  (List.range (c.descriptorCount cap)).map
    (descriptorAt c (c.descriptorCount cap * c.descBytes) (c.payloadSize cap) (c.descriptorCount cap))

/-- The Allocated branch of CONSTRUCT (rule R160): the region at `base`, its sizes (R75), its chain (R67), its cells 0 (R164). -/
def buildBuffer (base : Nat) (s : State) : State :=
  let cap := s.maxLaneDataSize.toNat
  zeroCells
    { s with
      bufBase := some base
      capSlots := s.maxLaneDataSize
      payloadBytes := BitVec.ofNat 32 (s.cfg.payloadSize cap)
      descCount := BitVec.ofNat 32 (s.cfg.descriptorCount cap)
      bufSize := BitVec.ofNat 32 (s.cfg.regionSize cap)
      bufState := .allocated
      descs := descriptorChain s.cfg cap }

/-- TeardownBuffer (rule R162): the region is released, its cells and descriptors cease to exist. -/
def teardownBuffer (s : State) : State :=
  match s.bufState with
  | .unallocated => s
  | .allocated =>
    { s with
      bufState := .unallocated, capSlots := 0#16, payloadBytes := 0#32, descCount := 0#32, bufSize := 0#32
      bufBase := none, mem := [], descs := [] }

/-- StartTransfer (rule R166); the observed frame begins empty (rule R208). -/
def startTransfer (s : State) : State :=
  { s with completeMask := 0#16, xferPos := 0#32, xferBusy := true, frame := [] }

end Sys2Proof.Machine
end

