-- ==== Sys2Proof/Machine/Buffer.lean ====
section
/-! DEFINITION. The shared transmit buffer manager (spec/42_buffer_manager.md): CONSTRUCT, DESTRUCT, RESET_BUFFER_FOR_CYCLE,
TRIGGER_TRANSFER_IF_READY. -/

namespace Sys2Proof.Machine

/-- CONSTRUCT (rule R160). The Allocator's answer is the next draw of `alloc` (rule R66, log 3). -/
def execConstruct (s : State) : Out :=
  match s.bufState with
  | .allocated => .next (respond 1#32 s)
  | .unallocated =>
    if s.activeMask = 0#16 then .next (raiseFault .constructNoLanes Instr.construct.word0 s)
    else
      match s.alloc.value Config.allocatorAnswer with
      | .fail => .next (respond 0#32 (logDiag .allocFail (askAllocator s)))
      | .ok baseWord => .next (respond 1#32 (buildBuffer (4 * baseWord) (askAllocator s)))

/-- DESTRUCT (rule R161). -/
def execDestruct (s : State) : Out :=
  hold s <|
    if s.activeMask ≠ 0#16 then .next (raiseFault .prematureDestruct Instr.destruct.word0 s)
    else .next (respond 0#32 (teardownBuffer s))

/-- RESET_BUFFER_FOR_CYCLE (rule R163). -/
def execResetBufferForCycle (s : State) : Out :=
  hold s <|
    if s.bufState = .unallocated then .next (raiseFault .notAllocated Instr.resetBufferForCycle.word0 s)
    else .next (respond (flagWord s.noLanesComplete) (clearForCycle s))

/-- TRIGGER_TRANSFER_IF_READY (rule R165). -/
def execTriggerTransferIfReady (s : State) : Out :=
  hold s <|
    if s.allLanesComplete && (s.activeMask != 0#16) then
      if s.bufState = .unallocated then .next (raiseFault .notAllocated Instr.triggerTransferIfReady.word0 s)
      else .next (respond 1#32 (startTransfer s))
    else .next (respond 0#32 s)

end Sys2Proof.Machine
end

