-- ==== Sys2Proof/Machine/Encoder.lean ====
section
/-! DEFINITION. The bit encoder (spec/40_bit_encoder.md): the wire patterns, ENC, the command ENCODE, and the checking function DEC. -/

namespace Sys2Proof.Machine

/-- The wire pattern of a source bit, first cell first (rule R120). -/
def pattern : CellsPerBit → Bool → List Bool
  | .k4, false => [true, false, false, false]
  | .k4, true => [true, true, true, false]
  | .k3, false => [true, false, false]
  | .k3, true => [true, true, false]

/-- The bits of a byte, most significant first (rule R121). -/
def byteBits (b : Byte) : List Bool :=
  [b.getLsbD 7, b.getLsbD 6, b.getLsbD 5, b.getLsbD 4, b.getLsbD 3, b.getLsbD 2, b.getLsbD 1, b.getLsbD 0]

/-- ENC(b): the 8K cells of a byte in wire order (rule R122). -/
def encodeByte (k : CellsPerBit) (b : Byte) : List Bool := (byteBits b).flatMap (pattern k)

/-- The cells of consecutive bytes, byte slot after byte slot (rules R62, R124). -/
def encodeBytes (k : CellsPerBit) (data : List Byte) : List Bool := data.flatMap (encodeByte k)

/-- ENCODE's effect on the payload: lane `lane`'s bits of `data` OR-ed from byte slot `h` on (rule R124). -/
def encodePayload (c : Config) (po lane h : Nat) (data : List Byte) (m : Memory) : Memory :=
  orCells c po lane m (c.slotStart h) (encodeBytes c.cells data)

/-- The bytes of the slots below `slotEnd` lie in the region. -/
def State.slotsInRegion (s : State) (slotEnd : Nat) : Bool := s.inRegion s.payloadOff (s.cfg.payloadSize slotEnd)

/-- ENCODE (rule R124; the checks in the order of R242; HANDLE + COUNT is exact and all 32 bits of HANDLE count, rules R9, R94). The last branch is no spec fault: an access outside the region (log 10). -/
def execEncode (lane : LaneId) (handle : Word) (data : List Byte) (s : State) : Out :=
  let w := (Instr.encode lane handle data).word0
  let slotEnd := handle.toNat + data.length
  hold s <|
    if !s.laneActive lane then .next (raiseFault .badLane w s)
    else if s.bufState = .unallocated then .next (raiseFault .notAllocated w s)
    else if s.capSlots.toNat < slotEnd then .next (raiseFault .outOfBounds w s)
    else if s.slotsInRegion slotEnd then
      .next (respond (BitVec.ofNat 32 slotEnd)
        (storePayload (encodePayload s.cfg s.payloadOff lane.toNat handle.toNat data s.mem) s))
    else .fault .outsideRegion

/-! ### DEC, a checking function (rule R125); no command performs it -/

/-- The source bit a K-cell pattern stands for, none if it is neither P0 nor P1 (rule R125). -/
def patternBit (k : CellsPerBit) (q : List Bool) : Option Bool :=
  if q = pattern k true then some true else if q = pattern k false then some false else none

/-- Lane `lane`'s bits of the `n` cells from `t` on. -/
def State.laneBits (s : State) (lane t n : Nat) : List Bool := (List.range n).map fun k => (s.cell (t + k)).getLsbD lane

/-- The source bit at position `p` of byte slot `slot` (rules R62, R125). -/
def State.decodeBit (s : State) (lane slot p : Nat) : Option Bool :=
  patternBit s.cfg.cells
    (s.laneBits lane (s.cfg.slotStart slot + p * s.cfg.cellsPerBit) s.cfg.cellsPerBit)

/-- A byte from its bits, most significant first (rule R121). -/
def bitsByte (bs : List Bool) : Byte := bs.foldl (fun acc b => (acc <<< 1) ||| (if b then 1#8 else 0#8)) 0#8

/-- DEC(lane, slot) (rule R125): none where it is undefined. -/
def State.decodeSlot (s : State) (lane slot : Nat) : Option Byte :=
  ((List.range 8).mapM (s.decodeBit lane slot)).map bitsByte

end Sys2Proof.Machine
end

