-- ==== Sys2Proof/Machine/Registry.lean ====
section
/-! DEFINITION. The lane registry (spec/41_lane_registry.md): REGISTER_LANE, DEREGISTER_LANE, MARK_LANE_COMPLETE, ALL_LANES_COMPLETE,
NO_LANES_COMPLETE, RESET_COMPLETION. -/

namespace Sys2Proof.Machine

/-- A free id becomes active (the success branch of rule R140). -/
def addLane (id : Nat) (dataSize : Half) (s : State) : State :=
  { s with
    activeMask := s.activeMask ||| laneBit id
    laneCount := s.laneCount + 1#5
    maxLaneDataSize := if s.maxLaneDataSize.toNat < dataSize.toNat then dataSize else s.maxLaneDataSize }

/-- REGISTER_LANE (rule R140). -/
def execRegisterLane (dataSize : Half) (s : State) : Out :=
  match lowestFree s.cfg.bits s.activeMask with
  | none => .next (respond (invalidLane.setWidth 32) (logDiag .lanesFull s))
  | some id => .next (respond (BitVec.ofNat 32 id) (addLane id dataSize s))

/-- An active id leaves both masks (rule R141; C3). -/
def removeLane (lane : LaneId) (s : State) : State :=
  { s with
    activeMask := s.activeMask &&& ~~~ laneBit lane.toNat
    completeMask := s.completeMask &&& ~~~ laneBit lane.toNat
    laneCount := s.laneCount - 1#5 }

/-- The last lane's departure: the buffer is torn down and the construction cycle ends (rules R141, R162; C5). -/
def endConstructionCycle (s : State) : State := { teardownBuffer s with maxLaneDataSize := 0#16 }

/-- DEREGISTER_LANE (rule R141). -/
def execDeregisterLane (lane : LaneId) (s : State) : Out :=
  hold s <|
    if !s.laneActive lane then .next (respond 0#32 s)
    else if (removeLane lane s).activeMask = 0#16 then
      .next (respond 1#32 (endConstructionCycle (removeLane lane s)))
    else .next (respond 0#32 (removeLane lane s))

/-- The lane joins the completion bitmap (rules R142, R181). -/
def markComplete (lane : LaneId) (s : State) : State := { s with completeMask := s.completeMask ||| laneBit lane.toNat }

/-- MARK_LANE_COMPLETE (rule R142). -/
def execMarkLaneComplete (lane : LaneId) (s : State) : Out :=
  hold s <|
    if !s.laneActive lane then .next (raiseFault .badLane (Instr.markLaneComplete lane).word0 s)
    else .next (respond 0#32 (markComplete lane s))

/-- ALL_LANES_COMPLETE (rule R145). -/
def execAllLanesComplete (s : State) : Out := .next (respond (flagWord s.allLanesComplete) s)

/-- NO_LANES_COMPLETE (rule R146). -/
def execNoLanesComplete (s : State) : Out := .next (respond (flagWord s.noLanesComplete) s)

/-- RESET_COMPLETION (rule R147). -/
def execResetCompletion (s : State) : Out := hold s <| .next (respond 0#32 (emptyCompletion s))

end Sys2Proof.Machine
end

