-- ==== Sys2Proof/Machine/MuxBus.lean ====
section
/-! DEFINITION. The Mux Bus facade (spec/43_mux_bus.md): BEGIN_FILL, END_FILL, IS_TRANSFER_DONE, READ_STATUS, and the status register
map (spec/10_state.md rules R34 to R48). -/

namespace Sys2Proof

/-- CONFIG bits [31:16]: MTU div 4 (rule R47). Where that does not fit 16 bits the spec states no value: a free one (log 11). -/
def Config.mtuField (c : Config) : Half :=
  if c.mtu / 4 < 65536 then BitVec.ofNat 16 (c.mtu / 4) else Config.wideMtuField c.mtu

/-- CONFIG (rule R47). -/
def Config.statusWord (c : Config) : Word :=
  c.mtuField ++ (0#4 ++ (BitVec.ofNat 4 c.cellsPerBit ++ BitVec.ofNat 8 c.bits : BitVec 12) : BitVec 16)

namespace Machine

/-- BEGIN_FILL (rule R180). -/
def execBeginFill (s : State) : Out :=
  hold s <|
    if s.bufState = .unallocated then .next (raiseFault .notAllocated Instr.beginFill.word0 s)
    else .next (respond 0#32 (clearForCycle s))

/-- END_FILL (rule R181). -/
def execEndFill (lane : LaneId) (s : State) : Out :=
  hold s <|
    if !s.laneActive lane then .next (raiseFault .badLane (Instr.endFill lane).word0 s)
    else if s.bufState = .unallocated then .next (raiseFault .notAllocated (Instr.endFill lane).word0 s)
    else if (markComplete lane s).allLanesComplete then .next (respond 1#32 (startTransfer (markComplete lane s)))
    else .next (respond 0#32 (markComplete lane s))

/-- IS_TRANSFER_DONE (rule R185). -/
def execIsTransferDone (s : State) : Out := .next (respond (flagWord s.xferDone) s)

/-- StatusReg(sel): the read-only view of the state (rules R34 to R48); a reserved `sel` reads 0. -/
def State.statusReg (s : State) (sel : Half) : Word :=
  match sel.toNat with
  | 0x0 => s.activeMask.setWidth 32
  | 0x1 => s.completeMask.setWidth 32
  | 0x2 => s.laneCount.setWidth 32
  | 0x3 => s.maxLaneDataSize.setWidth 32
  | 0x4 => flagWord s.bufState.bit
  | 0x5 => s.capSlots.setWidth 32
  | 0x6 => s.bufSize
  | 0x7 => s.payloadBytes
  | 0x8 => s.descCount
  | 0x9 => flagWord s.xferDone
  | 0xA => s.fault
  | 0xB => s.faultInfo
  | 0xC => s.diag
  | 0xD => s.cfg.statusWord
  | _ => 0#32

/-- READ_STATUS (rule R186). -/
def execReadStatus (sel : Half) (s : State) : Out := .next (respond (s.statusReg sel) s)

end Machine
end Sys2Proof
end

