-- ==== Sys2Proof/Machine/Dispatch.lean ====
section
/-! DEFINITION. The dispatch of a command to its meaning: one arm per constructor of Instr (rule R97). -/

namespace Sys2Proof.Machine

def exec (i : Instr) (s : State) : Host.Outcome State Fault Refusal :=
  match i with
  | .registerLane dataSize => Sys2Proof.Machine.execRegisterLane dataSize s
  | .deregisterLane lane => Sys2Proof.Machine.execDeregisterLane lane s
  | .beginFill => Sys2Proof.Machine.execBeginFill s
  | .encode lane handle data => Sys2Proof.Machine.execEncode lane handle data s
  | .endFill lane => Sys2Proof.Machine.execEndFill lane s
  | .isTransferDone => Sys2Proof.Machine.execIsTransferDone s
  | .markLaneComplete lane => Sys2Proof.Machine.execMarkLaneComplete lane s
  | .allLanesComplete => Sys2Proof.Machine.execAllLanesComplete s
  | .noLanesComplete => Sys2Proof.Machine.execNoLanesComplete s
  | .resetCompletion => Sys2Proof.Machine.execResetCompletion s
  | .construct => Sys2Proof.Machine.execConstruct s
  | .destruct => Sys2Proof.Machine.execDestruct s
  | .resetBufferForCycle => Sys2Proof.Machine.execResetBufferForCycle s
  | .triggerTransferIfReady => Sys2Proof.Machine.execTriggerTransferIfReady s
  | .readStatus sel => Sys2Proof.Machine.execReadStatus sel s

end Sys2Proof.Machine
end

