-- ==== Sys2Proof/Machine/Port.lean ====
section
/-! DEFINITION. The command port and the Host agent (rules R90, R103, R260 to R262), and which agents are enabled (rules R200, R247,
R253, R270). -/

namespace Sys2Proof.Machine

/-! ### Reset -/

/-- The transfers observed when a reset comes: one in flight is cut short (rule R262). -/
def State.sentAtReset (s : State) : List Transfer :=
  if s.xferBusy then s.sent ++ [{ frame := s.frame, completed := false }] else s.sent

/-- Reset (rules R260, R262): every element of the block at its reset value, also `cmdBuf`, the words behind it and the unread
responses. What is outside the block stays: the host's actions and what it read, the draws, the record of transfers; the Allocator is not called. -/
def resetBlock (s : State) : State :=
  { State.resetOf s.cfg with
    host := s.host, received := s.received, alloc := s.alloc, sched := s.sched, sent := s.sentAtReset }

/-! ### The Host agent -/

/-- The oldest response is read. -/
def readResponse (r : Word) (rest : List Word) (s : State) : State :=
  { s with responses := rest, received := s.received ++ [r] }

/-- A word is sent (rule R90). -/
def sendWord (w : Word) (s : State) : State := { s with port := s.port ++ [w] }

/-- How many commands a list of words begins; the first `skip` words belong to a command begun before it (rule R92). -/
def commandsBegun (skip : Nat) : List Word → Nat
  | [] => 0
  | w :: ws =>
    match skip with
    | 0 => commandsBegun (commandLength w - 1) ws + 1
    | skip + 1 => commandsBegun skip ws

/-- How many responses are to come before that of a command sent now: those unread, and one for each command on its way (rule R90). -/
def State.outstanding (s : State) : Nat := s.responses.length + commandsBegun 0 (s.cmdBuf ++ s.port)

/-- What a poll does next when the response `r` is read: while older responses are to come it reads on; its own ends the wait if it
is 1, and else the host polls again (rule R103). -/
def afterPoll (older : Nat) (r : Word) (rest : List HostAction) : List HostAction :=
  match older with
  | older + 1 => .awaitDone older :: rest
  | 0 => if r = 1#32 then rest else .waitDone :: rest

/-- The host's next action can be taken: a read waits for a response. -/
def State.hostReady (s : State) : Bool :=
  match s.host with
  | [] => false
  | .send _ :: _ => true
  | .read :: _ => !s.responses.isEmpty
  | .waitDone :: _ => true
  | .awaitDone _ :: _ => !s.responses.isEmpty
  | .reset :: _ => true

/-- The host's next action (rules R90, R103, R260). -/
def hostStep (s : State) : State :=
  match s.host with
  | [] => s
  | .send w :: rest => sendWord w { s with host := rest }
  | .read :: rest =>
    match s.responses with
    | [] => s
    | r :: rs => readResponse r rs { s with host := rest }
  | .waitDone :: rest => sendWord Instr.isTransferDone.word0 { s with host := .awaitDone s.outstanding :: rest }
  | .awaitDone older :: rest =>
    match s.responses with
    | [] => s
    | r :: rs => readResponse r rs { s with host := afterPoll older r rest }
  | .reset :: rest => resetBlock { s with host := rest }

/-! ### The head of the command queue -/

/-- The command at the head is complete, legal, of the hold class, and a transfer runs (rules R242, R270). -/
def State.held (s : State) : Bool :=
  match decode s.cmdBuf with
  | .incomplete => false
  | .illegal _ => false
  | .instr i => s.xferBusy && i.holdClass

/-- The Command Unit has a step: a complete command that is not held, or a word to take. -/
def State.commandReady (s : State) : Bool :=
  match decode s.cmdBuf with
  | .incomplete => !s.port.isEmpty
  | .illegal _ => true
  | .instr i => !(s.xferBusy && i.holdClass)

/-- The port's next word joins `cmdBuf` (rules R31, R90). -/
def acceptWord (s : State) : State :=
  match s.port with
  | [] => s
  | w :: rest => { s with port := rest, cmdBuf := s.cmdBuf ++ [w] }

/-- An illegal command is refused at decode, before any hold (rules R98, R99, R242). -/
def refuseIllegal (s : State) : State := raiseFault .illegalCmd (s.cmdBuf.headD 0#32) s

/-! ### Whose step it is -/

/-- The chosen agent if it is enabled, else another enabled one. -/
def resolveAgent (choice : Agent) (host cu te : Bool) : Agent :=
  match choice with
  | .host => if host then .host else if cu then .commandUnit else .transferEngine
  | .commandUnit => if cu then .commandUnit else if host then .host else .transferEngine
  | .transferEngine => if te then .transferEngine else if cu then .commandUnit else .host

/-- The agent whose step is next and the draws after the choice: none enabled, no step (rule R253); one enabled, its step; several, a
draw (rules R200, R247; log 4). -/
def State.chooseAgent (s : State) : Option Agent × Draws Agent :=
  match s.hostReady, s.commandReady, s.xferBusy with
  | false, false, false => (none, s.sched)
  | true, false, false => (some .host, s.sched)
  | false, true, false => (some .commandUnit, s.sched)
  | false, false, true => (some .transferEngine, s.sched)
  | host, cu, te => (some (resolveAgent (s.sched.value Config.agentChoice) host cu te), s.sched.pop)

end Sys2Proof.Machine
end

