-- ==== Sys2Proof/Machine/Transfer.lean ====
section
/-! DEFINITION. The Transfer Engine (spec/44_transfer_engine.md): its step, and the traversal of the descriptor chain that rule R204
says a model may leave out of the step. -/

namespace Sys2Proof.Machine

/-- An emit step (rules R201, R203): the cell goes to the lines and to the observed frame (rule R208). -/
def emitCell (s : State) : State :=
  { s with
    lines := s.cell s.xferPos.toNat
    xferPos := s.xferPos + 1#32
    frame := s.frame ++ [s.cell s.xferPos.toNat] }

/-- The completion step (rules R201, R205): idle low, done, and the transfer is recorded (rule R208). -/
def completeTransfer (s : State) : State :=
  { s with
    lines := 0#16
    xferPos := 0#32
    xferBusy := false
    frame := []
    sent := s.sent ++ [{ frame := s.frame, completed := true }] }

/-- The Transfer Engine's step (rule R201), taken only while `xferBusy = 1` (rule R200). A cell outside the region is no cell: log 10. -/
def transferStep (s : State) : Out :=
  if s.xferPos.toNat < s.ncells then
    if s.inRegion (cellOffset s.cfg s.payloadOff s.xferPos.toNat) s.cfg.cellBytes then .next (emitCell s)
    else .fault .outsideRegion
  else .next (completeTransfer s)

/-! ### The descriptor traversal (rule R204) -/

/-- The offsets of a segment's storage words, from `seg_off` upward. -/
def segmentWords (d : Descriptor) : List Nat := (List.range (d.segLen / 4)).map fun q => d.segOff + 4 * q

/-- The storage words along the chain from descriptor `k`, following `next` until `eof` (rule R204); `fuel` bounds the walk. -/
def chainWords (descs : List Descriptor) (fuel k : Nat) : List Nat :=
  match fuel with
  | 0 => []
  | fuel + 1 =>
    match descs[k]? with
    | none => []
    | some d =>
      segmentWords d ++
        (if d.eof then []
         else match d.next with
           | none => []
           | some j => chainWords descs fuel j)

/-- The cells of a storage word in wire order, the inverse of sigma (rules R63, R204). -/
def wordCells (c : Config) (m : Memory) (off : Nat) : List LineCell :=
  (List.range c.cellsPerWord).map fun j => BitVec.ofNat 16 (memRead m (off + c.cellBytes * c.sigma j) c.cellBytes)

/-- The cells that reach the lines when the chain is traversed from `desc[0]` (rule R204). -/
def State.chainCells (s : State) : List LineCell :=
  (chainWords s.descs s.descs.length 0).flatMap (wordCells s.cfg s.mem)

end Sys2Proof.Machine
end

