-- ==== Sys2Proof/Machine/Agents.lean ====
section
/-! DEFINITION. The steps of the three agents (rule R6). The Command Unit's fetch is from `cmdBuf` (rule R31). -/

namespace Sys2Proof.Machine

/-- The Command Unit's step: take a word, refuse an illegal command, or perform the command at the head (rules R31, R90, R242). -/
def commandStep (s : State) : Host.Outcome State Fault Refusal :=
  match decode s.cmdBuf with
  | .incomplete => .next (acceptWord s)
  | .illegal _ => .next (refuseIllegal s)
  | .instr i => exec i s

/-- A step of the agent `a`. -/
def agentStep (a : Agent) (s : State) : Host.Outcome State Fault Refusal :=
  match a with
  | .host => .next (hostStep s)
  | .commandUnit => commandStep s
  | .transferEngine => transferStep s

end Sys2Proof.Machine
end

