-- ==== Sys2Proof/Machine/ChannelHost.lean ====
section
/-! DEFINITION. The Channel Method (spec/45_channel_host.md) and the pseudo-instructions of rule R103: host programs, whose next command may
depend on the responses so far. They are the block's environment, not the block (rule R2). -/

namespace Sys2Proof.Machine

/-! ### Host programs -/

/-- A host program that ends in an `α` (rules R5, R103): calls of commands, each with what follows its response, and WAIT_DONE. -/
inductive HostProgram (α : Type) where
  | done (a : α)
  | call (i : Instr) (next : Word → HostProgram α)
  | waitDone (next : HostProgram α)

/-- One program after the other. Several Channel Methods share one port (rule R220); each one's program runs whole, so no command for
another lane comes inside an UPDATE (rule R223). -/
def HostProgram.andThen {α β : Type} (p : HostProgram α) (q : α → HostProgram β) : HostProgram β :=
  match p with
  | .done a => q a
  | .call i next => .call i fun r => (next r).andThen q
  | .waitDone next => .waitDone (next.andThen q)

/-- One command as a synchronous call: its words are sent, then its response is read (rule R5). -/
def syncCall (i : Instr) : List HostAction := (encode i).map .send ++ [.read]

/-- A list of command words sent with no read: a program (rule R5). -/
def sendAll (ws : List Word) : List HostAction := ws.map .send

/-- The actions of the Host agent by which a program is carried out when the responses to its calls are `rs`, as far as those go. -/
def HostProgram.actions {α : Type} (p : HostProgram α) (rs : List Word) : List HostAction :=
  match p with
  | .done _ => []
  | .call i next =>
    syncCall i ++
      (match rs with
       | [] => []
       | r :: rs => (next r).actions rs)
  | .waitDone next => .waitDone :: next.actions rs

/-- A command that is performed at once on a block in which no transfer runs: its response and the state after it. -/
def callResult (i : Instr) (s : State) : Option (Word × State) :=
  if s.xferBusy then none
  else
    match exec i s with
    | .next t => t.responses.getLast?.map fun r => (r, t)
    | .fault _ => none
    | .refused _ => none

/-- A program carried out on a block in which no transfer runs before its last command: what it ends in and the state after it. -/
def HostProgram.perform {α : Type} (p : HostProgram α) (s : State) : Option (α × State) :=
  match p with
  | .done a => some (a, s)
  | .call i next =>
    match callResult i s with
    | none => none
    | some (r, t) => (next r).perform t
  | .waitDone next =>
    match callResult .isTransferDone s with
    | none => none
    | some (_, t) => next.perform t

/-! ### One strip -/

/-- The Channel Method's states (rule R228), and that of a strip whose registration was refused (rule R221). -/
inductive ChannelPhase where
  | uninitialized
  /-- REGISTER_LANE responded 0xFF: no further command is sent for the strip. -/
  | nonFunctional
  | ready
  /-- From BEGIN_FILL; `triggered` once this strip's END_FILL started the transfer. -/
  | sending (triggered : Bool)
  | tornDown
  deriving DecidableEq, Repr

/-- Host state of one strip (rules R220, R228). -/
structure ChannelMethod where
  pin            : Nat
  pixelCount     : Nat
  byteSendTimeUs : Nat
  resetTimeUs    : Nat
  pixelSize      : Nat
  lead           : Nat
  trail          : Nat
  laneId         : Option LaneId
  phase          : ChannelPhase
  deriving DecidableEq, Repr

/-- What moves a Channel Method from state to state (rules R221, R228). -/
inductive ChannelEvent where
  /-- REGISTER_LANE responded. -/
  | registered (response : Word)
  /-- CONSTRUCT responded. -/
  | constructed (response : Word)
  /-- BEGIN_FILL was sent. -/
  | began
  /-- END_FILL responded: 1 if it started the transfer. -/
  | ended (response : Word)
  /-- IS_TRANSFER_DONE responded. -/
  | polled (response : Word)
  | deregistered
  /-- The block was reset: its lane is no longer active (log 16). -/
  | blockReset
  deriving DecidableEq, Repr

/-- The Channel Method's state machine (rule R228), with the lane that REGISTER_LANE's response gives it; 0xFF makes the strip
non-functional for good (rule R221). A BEGIN_FILL begins a fill also where the strip's last transfer was not polled, since WAIT_DONE is optional (R103). -/
def ChannelMethod.after (c : ChannelMethod) (e : ChannelEvent) : ChannelMethod :=
  match c.phase, c.laneId, e with
  | .tornDown, _, _ => c
  | .nonFunctional, _, _ => c
  | _, _, .blockReset => { c with laneId := none, phase := .uninitialized }
  | .uninitialized, none, .registered r =>
    if r = invalidLane.setWidth 32 then { c with phase := .nonFunctional } else { c with laneId := some (r.setWidth 8) }
  | .uninitialized, some _, .constructed r => if r = 1#32 then { c with phase := .ready } else c
  | .ready, some _, .began => { c with phase := .sending false }
  | .sending true, some _, .began => { c with phase := .sending false }
  | .sending false, some _, .ended r => { c with phase := if r = 1#32 then .sending true else .ready }
  | .sending true, some _, .polled r => if r = 1#32 then { c with phase := .ready } else c
  | _, some _, .deregistered => { c with laneId := none, phase := .tornDown }
  | _, _, _ => c

/-! ### Frame size -/

/-- RESET_PAD = ceil(resetTimeUs / byteSendTimeUs) (rule R222). -/
def ChannelMethod.resetPad (c : ChannelMethod) : Nat := (c.resetTimeUs + c.byteSendTimeUs - 1) / c.byteSendTimeUs

/-- dataSize = LEAD + pixelCount * PixelSize + TRAIL + RESET_PAD (rule R222). -/
def ChannelMethod.frameSize (c : ChannelMethod) : Nat := c.lead + c.pixelCount * c.pixelSize + c.trail + c.resetPad

/-- The 16-bit `dataSize`; a frame above 65535 bytes is refused at the host (rule R222), and so is one whose RESET_PAD has no value, as
`byteSendTimeUs` is 0 (log 17). -/
def ChannelMethod.dataSize (c : ChannelMethod) : Option Half :=
  if 0 < c.byteSendTimeUs ∧ c.frameSize ≤ 65535 then some (BitVec.ofNat 16 c.frameSize) else none

/-! ### INIT_LANE -/

/-- A strip's construction (rule R221): REGISTER_LANE with the frame size of R222, once; nothing for a strip that was registered or
refused before, and nothing for a frame that R222 refuses. -/
def ChannelMethod.register (c : ChannelMethod) : HostProgram ChannelMethod :=
  match c.phase, c.laneId, c.dataSize with
  | .uninitialized, none, some dataSize => .call (.registerLane dataSize) fun r => .done (c.after (.registered r))
  | _, _, _ => .done c

/-- `Initialize()`: CONSTRUCT, for a strip that has a lane; it may be sent again after a response of 0 (rule R221). -/
def ChannelMethod.initialize (c : ChannelMethod) : HostProgram ChannelMethod :=
  match c.laneId with
  | none => .done c
  | some _ => .call .construct fun r => .done (c.after (.constructed r))

/-- INIT_LANE (rules R103, R221). -/
def ChannelMethod.initLane (c : ChannelMethod) : HostProgram ChannelMethod := c.register.andThen ChannelMethod.initialize

/-- The same for each strip of a block, one after the other. -/
def eachStrip (p : ChannelMethod → HostProgram ChannelMethod) (cs : List ChannelMethod) : HostProgram (List ChannelMethod) :=
  match cs with
  | [] => .done []
  | c :: cs => (p c).andThen fun c => (eachStrip p cs).andThen fun cs => .done (c :: cs)

/-- The strips of a block, each registered before the first CONSTRUCT, as R221 has it. -/
def initStrips (cs : List ChannelMethod) : HostProgram (List ChannelMethod) :=
  (eachStrip ChannelMethod.register cs).andThen (eachStrip ChannelMethod.initialize)

/-! ### FILL and UPDATE -/

/-- FILL (rule R103). -/
def fill (lane : LaneId) (bytes : List Byte) : List Instr := [.beginFill, .encode lane 0#32 bytes, .endFill lane]

/-- `h = ENCODE lane, h, bytes` for each list of bytes, then `k h` (rule R223): each handle is the response before it. -/
def encodeEach {α : Type} (lane : LaneId) (chunks : List (List Byte)) (h : Word) (k : Word → HostProgram α) : HostProgram α :=
  match chunks with
  | [] => k h
  | bytes :: rest => .call (.encode lane h bytes) fun h => encodeEach lane rest h k

/-- The caller's pixel that physical pixel `p` shows: `p mod L` (rule R224). -/
def pixelIndex (p len : Nat) : Nat := p % len

/-- The serialized pixels of a frame: exactly `pixelCount`, the caller's buffer repeated or cut (rules R223, R224). -/
def framePixels {α : Type} (count : Nat) (pixels : List α) (serialize : α → List Byte) : List (List Byte) :=
  (List.range count).filterMap fun p => (pixels[pixelIndex p pixels.length]?).map serialize

/-- What the caller gives an UPDATE (rules R223, R225): the pixels, the shader, the feature's serialization, which makes PixelSize bytes of a
pixel, and the LEAD and TRAIL bytes of settings. -/
structure Frame (α : Type) (c : ChannelMethod) where
  pixels    : List α
  shader    : α → α
  serialize : α → Vector Byte c.pixelSize
  leading   : Vector Byte c.lead
  trailing  : Vector Byte c.trail

/-- The byte lists an UPDATE encodes, in order (rule R223): the leading settings if LEAD > 0, each pixel, the trailing ones if TRAIL > 0. -/
def Frame.chunks {α : Type} {c : ChannelMethod} (f : Frame α c) : List (List Byte) :=
  (if 0 < c.lead then [f.leading.toList] else []) ++
    framePixels c.pixelCount f.pixels (fun p => (f.serialize (f.shader p)).toList) ++
    (if 0 < c.trail then [f.trailing.toList] else [])

/-- UPDATE may be sent: the buffer is built and the strip is not inside an UPDATE (rules R221, R228). -/
def ChannelMethod.mayUpdate (c : ChannelMethod) : Bool :=
  match c.phase with
  | .uninitialized => false
  | .nonFunctional => false
  | .ready => true
  | .sending triggered => triggered
  | .tornDown => false

/-- BEGIN_FILL, the ENCODEs chained by their responses, END_FILL (rule R223). -/
def ChannelMethod.fillFrame (c : ChannelMethod) (lane : LaneId) (chunks : List (List Byte)) : HostProgram ChannelMethod :=
  .call .beginFill fun h => encodeEach lane chunks h fun _ => .call (.endFill lane) fun r => .done ((c.after .began).after (.ended r))

/-- UPDATE (rules R103, R223), with or without the optional WAIT_DONE. Nothing is sent for an empty pixel buffer (rule R224), for a strip
without a lane, or while no CONSTRUCT has responded 1 (rule R221). -/
def ChannelMethod.update {α : Type} (c : ChannelMethod) (wait : Bool) (f : Frame α c) : HostProgram ChannelMethod :=
  match c.laneId, f.pixels with
  | none, _ => .done c
  | some _, [] => .done c
  | some lane, _ :: _ =>
    if c.mayUpdate then
      if wait then .waitDone ((c.after (.polled 1#32)).fillFrame lane f.chunks) else c.fillFrame lane f.chunks
    else .done c

/-! ### TEARDOWN -/

/-- TEARDOWN (rules R103, R226), for a strip that has a lane. -/
def ChannelMethod.teardown (c : ChannelMethod) : HostProgram ChannelMethod :=
  match c.laneId with
  | none => .done c
  | some lane => .waitDone (.call (.deregisterLane lane) fun _ => .done ((c.after (.polled 1#32)).after .deregistered))

end Sys2Proof.Machine
end

