-- ==== Sys2Proof/Machine/Step.lean ====
section
/-! DEFINITION. One step of the machine: the chosen agent's step (rules R6, R247), and where a command is placed to be fetched. -/

namespace Sys2Proof.Machine

/-- One step. Where no agent is enabled nothing changes (rule R253). -/
def step (s : State) : Host.Outcome State Fault Refusal :=
  match s.chooseAgent with
  | (none, _) => .next s
  | (some a, d) => agentStep a { s with sched := d }

/-- The state whose next step fetches and runs the command with bits `w`: its words stand complete in `cmdBuf`, and where another agent
is enabled too the choice is the Command Unit's. (A hold-class command waits while a transfer runs, as rule R270 says.) -/
def State.withFetchWord (s : State) (nbits w : Nat) : State :=
  let s' := { s with cmdBuf := tableWords nbits w }
  if s'.hostReady || s'.xferBusy then { s' with sched := s'.sched.push .commandUnit } else s'

/-- A program loaded from outside (rule R5): its words sent, behind what the port still has. -/
def State.withProgram (s : State) (ws : List Word) : State := { s with port := s.port ++ ws }

end Sys2Proof.Machine
end

