-- ==== Sys2Proof/Safety.lean ====
section
/-! DEFINITION. The terms claims use: the invariant of reachable states (rule R32 and what follows from the rules), what an answer is,
and the groups of state a frame speaks of. -/

namespace Sys2Proof.Machine

/-! ### The invariant -/

/-- The masks have no bit at W or above (rule R30: W bits wide; log 2). -/
abbrev State.MasksFit (s : State) : Prop :=
  s.activeMask.toNat < 2 ^ s.cfg.bits ∧ s.completeMask.toNat < 2 ^ s.cfg.bits

/-- Rule R32: I1, I2, and (C5, rule R148 b) no largest size is kept while no lane is registered. -/
abbrev State.RegistryInv (s : State) : Prop :=
  s.completeMask &&& ~~~s.activeMask = 0#16 ∧ s.laneCount.toNat = popcount s.activeMask ∧
    (s.activeMask = 0#16 → s.maxLaneDataSize = 0#16)

/-- Rule R32, I4: an Unallocated buffer is empty. -/
abbrev State.EmptyBuffer (s : State) : Prop :=
  s.capSlots = 0#16 ∧ s.payloadBytes = 0#32 ∧ s.descCount = 0#32 ∧ s.bufSize = 0#32 ∧ s.bufBase = none ∧ s.mem = [] ∧ s.descs = []

/-- An Allocated buffer has the sizes of R75 for its `capSlots`, the chain of R67, an aligned base (R66), and lists payload bytes only. -/
abbrev State.SizedBuffer (s : State) : Prop :=
  s.payloadBytes.toNat = s.cfg.payloadSize s.capSlots.toNat ∧
    s.descCount.toNat = s.cfg.descriptorCount s.capSlots.toNat ∧
    s.bufSize.toNat = s.cfg.regionSize s.capSlots.toNat ∧
    s.descs = descriptorChain s.cfg s.capSlots.toNat ∧
    s.bufBase.map (· % 4) = some 0 ∧
    ∀ c ∈ s.mem, s.payloadOff ≤ c.1 ∧ c.1 < s.payloadOff + s.payloadBytes.toNat

/-- Rule R32, I3 and I4, and the layout of the region. -/
abbrev State.BufferInv (s : State) : Prop :=
  Memory.wf s.mem ∧ (s.bufState = .allocated → s.activeMask ≠ 0#16 ∧ s.SizedBuffer) ∧ (s.bufState = .unallocated → s.EmptyBuffer)

/-- Rule R32, I5 and I6; during a transfer the completion bitmap is empty (R145) and the cells emitted so far are the payload's first
`xferPos` cells, in wire order (R201, R208). -/
abbrev State.TransferInv (s : State) : Prop :=
  (s.xferBusy = true → s.bufState = .allocated ∧ s.completeMask = 0#16 ∧ s.xferPos.toNat ≤ s.ncells ∧
    s.frame = (List.range s.xferPos.toNat).map s.cell ∧ s.lines = s.frame.getLastD 0#16) ∧
  (s.xferBusy = false → s.xferPos = 0#32 ∧ s.lines = 0#16 ∧ s.frame = [])

/-- The reserved bits of FAULT and DIAG are never set (R240, R244), and FAULT_INFO is 0 while FAULT is (R45). -/
abbrev State.LogInv (s : State) : Prop :=
  s.fault.toNat < 2 ^ 6 ∧ s.diag.toNat < 2 ^ 2 ∧ (s.fault = 0#32 → s.faultInfo = 0#32)

/-- `cmdBuf` never holds more than one command (rules R30, R31). -/
abbrev State.PortInv (s : State) : Prop :=
  s.cmdBuf.length ≤ commandLength (s.cmdBuf.headD 0#32)

/-- The invariant: an admitted instance (R7), and rules R32 (I1 to I6), R45, R240, R244 and the layout of R61 to R67. -/
abbrev State.Inv (s : State) : Prop :=
  s.cfg.Admitted ∧ s.MasksFit ∧ s.RegistryInv ∧ s.BufferInv ∧ s.TransferInv ∧ s.LogInv ∧ s.PortInv

/-! ### Answers -/

/-- The next state of an answer, none where the machine stops. -/
def nextState : Out → Option State
  | .next s => some s
  | .fault _ => none
  | .refused _ => none

/-- `t` is `s` after a command that was performed and answered `v` (rule R90). -/
abbrev Answered (v : Word) (s t : State) : Prop := t.responses = s.responses ++ [v] ∧ t.cmdBuf = []

/-- The bit of FAULT that a cause sets (rule R240), written out. -/
abbrev faultBit : FaultCode → Word
  | .illegalCmd => 0x00000001#32
  | .badLane => 0x00000002#32
  | .notAllocated => 0x00000004#32
  | .outOfBounds => 0x00000008#32
  | .prematureDestruct => 0x00000010#32
  | .constructNoLanes => 0x00000020#32

/-- `t` is `s` with the fault `code` of a command with word 0 `w` (rule R241): the FAULT bit, FAULT_INFO if it is the first fault, the
response ERR_RESP, and nothing else. -/
abbrev Faulted (code : FaultCode) (w : Word) (s t : State) : Prop :=
  t = { s with
        fault := s.fault ||| faultBit code
        faultInfo := if s.fault = 0#32 then w else s.faultInfo
        responses := s.responses ++ [0xFFFFFFFF#32]
        cmdBuf := [] }

/-- A faulted run (rule R241): the source gives its output no meaning. -/
abbrev State.Clean (s : State) : Prop := s.fault = 0#32

/-! ### Frames: the groups of state that `s` and `t` may have in common -/

/-- The lane registry's state. -/
abbrev SameRegistry (s t : State) : Prop :=
  t.activeMask = s.activeMask ∧ t.completeMask = s.completeMask ∧ t.laneCount = s.laneCount ∧ t.maxLaneDataSize = s.maxLaneDataSize

/-- The buffer's shape: everything of it but the payload's bytes. -/
abbrev SameShape (s t : State) : Prop :=
  t.bufState = s.bufState ∧ t.capSlots = s.capSlots ∧ t.payloadBytes = s.payloadBytes ∧ t.descCount = s.descCount ∧
    t.bufSize = s.bufSize ∧ t.bufBase = s.bufBase ∧ t.descs = s.descs

/-- Every byte of memory reads as before. -/
abbrev SameBytes (s t : State) : Prop := ∀ a, Memory.read t.mem a = Memory.read s.mem a

/-- The Transfer Engine's state and the observed frames. -/
abbrev SameTransfer (s t : State) : Prop :=
  t.xferBusy = s.xferBusy ∧ t.xferPos = s.xferPos ∧ t.lines = s.lines ∧ t.frame = s.frame ∧ t.sent = s.sent

/-- FAULT, FAULT_INFO and DIAG. -/
abbrev SameLog (s t : State) : Prop := t.fault = s.fault ∧ t.faultInfo = s.faultInfo ∧ t.diag = s.diag

/-- The instance, the words still to come, the host, and the choices among agents. -/
abbrev SameOutside (s t : State) : Prop :=
  t.cfg = s.cfg ∧ t.port = s.port ∧ t.host = s.host ∧ t.received = s.received ∧ t.sched = s.sched

/-- The Allocator was not asked. -/
abbrev SameAlloc (s t : State) : Prop := t.alloc = s.alloc

/-! ### Polls -/

/-- The words of exactly one command (rule R92). -/
abbrev WholeCommand (c : List Word) : Prop := c ≠ [] ∧ c.length = commandLength (c.headD 0#32)

/-- A poll is on its way, behind the commands `cs`: when they have answered, `older` responses come before its own (rules R90, R103). -/
abbrev State.PollOnItsWay (s : State) (older : Nat) : Prop :=
  ∃ cs : List (List Word), (∀ c ∈ cs, WholeCommand c) ∧ s.cmdBuf ++ s.port = cs.flatten ++ [Instr.isTransferDone.word0] ∧
    s.responses.length + cs.length = older

/-- A poll was answered, nothing came after it, and if it was answered 1 then no transfer runs. -/
abbrev State.PollAnswered (s : State) (older : Nat) : Prop :=
  s.cmdBuf = [] ∧ s.port = [] ∧ s.responses.length = older + 1 ∧ (s.responses.getLast? = some 1#32 → s.xferBusy = false)

/-- The host awaits a poll's response behind `older` others. -/
abbrev State.Polls (s : State) (older : Nat) : Prop := s.PollOnItsWay older ∨ s.PollAnswered older

/-! ### Runs -/

/-- A run: each state's step is the next state. -/
def IsRun (r : Nat → State) : Prop := ∀ n, step (r n) = .next (r (n + 1))

/-- A run that does not starve the Transfer Engine: if it is enabled from some point on, it takes a step after that point. This is the
weak fairness that rule R202 has a model assume. -/
def FairRun (r : Nat → State) : Prop :=
  IsRun r ∧ ∀ n, (∀ m, n ≤ m → (r m).xferBusy = true) → ∃ m, n ≤ m ∧ (r m).chooseAgent.1 = some .transferEngine

end Sys2Proof.Machine
end

