-- ==== Sys2Proof/Certificates/Slice0/Obligations.lean ====
section
/-! DEFINITION. The statements for the provers, each formalising rules of spec/ about the block. -/

open Sys2Proof Sys2Proof.Machine

/-! ### Encoding (spec/30_encoding.md) -/

/-- Rules R91 to R95: the words of a command that can be encoded decode to that command, with every operand and every data byte. -/
def Obligations.DecodeOfEncodeIsTheCommand : Prop :=
  ∀ i : Instr, i.wf = true → decode (encode i) = .instr i

/-- Rules R91, R97, R98: a decoded command is well formed and its word 0 is the word it was decoded from, so no two words 0 decode to one
command. -/
def Obligations.DecodedCommandHasItsWordZero : Prop :=
  ∀ (w : Word) (rest : List Word) (i : Instr), decode (w :: rest) = .instr i → i.word0 = w ∧ i.wf = true

/-- Rules R97 to R99: a complete command is legal exactly when a row of the opcode map selects its word 0, and then it is that row's
command, of that row's hold class. -/
def Obligations.OpcodeMapDecidesLegality : Prop :=
  ∀ (w : Word) (rest : List Word), decode (w :: rest) ≠ .incomplete →
    ((∃ r ∈ opcodeMap, w &&& r.mask = r.pattern) →
      ∃ i, decode (w :: rest) = .instr i ∧
        ∃ r ∈ opcodeMap, w &&& r.mask = r.pattern ∧ r.mnemonic = i.mnemonic ∧ r.hold = i.holdClass) ∧
    ((∀ r ∈ opcodeMap, w &&& r.mask ≠ r.pattern) → ∃ why, decode (w :: rest) = .illegal why)

/-- Rule R92: the words of a command are complete exactly when there are `2 + ceil(ARG / 4)` of them for OP = 0x04 and one for any other
OP, reserved ones included; no other field and no state matters. -/
def Obligations.CompleteLengthComesFromWordZero : Prop :=
  ∀ (w : Word) (rest : List Word),
    decode (w :: rest) = .incomplete ↔
      rest.length + 1 < (if w &&& 0xFF#32 = 0x04#32 then 2 + ((w >>> 16).toNat + 3) / 4 else 1)

/-- Rule R104: the words of the worked encodings decode to the commands they stand for, and the two illegal ones are illegal commands. -/
def Obligations.WorkedEncodingsDecode : Prop :=
  decode [0x00090001#32] = .instr (.registerLane 9#16) ∧
  decode [0x00000302#32] = .instr (.deregisterLane 3#8) ∧
  decode [0x00000003#32] = .instr .beginFill ∧
  decode [0x00010004#32, 0x00000000#32, 0x000000A5#32] = .instr (.encode 0#8 0#32 [0xA5#8]) ∧
  decode [0x00050204#32, 0x00000001#32, 0x78563412#32, 0x0000009A#32] =
    .instr (.encode 2#8 1#32 [0x12#8, 0x34#8, 0x56#8, 0x78#8, 0x9A#8]) ∧
  decode [0x00000105#32] = .instr (.endFill 1#8) ∧
  decode [0x0006000F#32] = .instr (.readStatus 6#16) ∧
  decode [0x00010003#32] = .illegal .reservedArg ∧
  decode [0x00000010#32] = .illegal .reservedOpcode

/-! ### The lane registry (spec/41_lane_registry.md) -/

/-- Rules R140, R144: REGISTER_LANE gives the lowest free id, whatever else the block is doing, and changes nothing but the registry. -/
def Obligations.RegisterLaneTakesTheLowestFreeId : Prop :=
  ∀ (s : State) (d : Half) (id : Nat), id < s.cfg.bits → s.activeMask.getLsbD id = false →
    (∀ j < id, s.activeMask.getLsbD j = true) →
    ∃ t, exec (.registerLane d) s = .next t ∧ Answered (BitVec.ofNat 32 id) s t ∧
      (∀ j < 16, t.activeMask.getLsbD j = (s.activeMask.getLsbD j || j == id)) ∧
      t.completeMask = s.completeMask ∧ t.laneCount = s.laneCount + 1#5 ∧
      t.maxLaneDataSize.toNat = max s.maxLaneDataSize.toNat d.toNat ∧
      SameShape s t ∧ SameBytes s t ∧ SameTransfer s t ∧ SameLog s t ∧ SameOutside s t ∧ SameAlloc s t

/-- Rules R140, R244, R245: with every id taken REGISTER_LANE answers 0xFF, sets DIAG.LANES_FULL and changes nothing else; no fault. -/
def Obligations.RegisterLaneWhenFullOnlyLogs : Prop :=
  ∀ (s : State) (d : Half), (∀ j < s.cfg.bits, s.activeMask.getLsbD j = true) →
    exec (.registerLane d) s =
      .next { s with diag := s.diag ||| 1#32, responses := s.responses ++ [0x000000FF#32], cmdBuf := [] }

/-- Rule R141: DEREGISTER_LANE of an active lane that is not the last leaves both masks without it and answers 0; the cells and
everything else stay, and no transfer starts. -/
def Obligations.DeregisterLaneKeepsTheOthers : Prop :=
  ∀ (s : State) (lane : LaneId) (other : Nat), s.xferBusy = false → s.laneActive lane = true →
    other < 16 → other ≠ lane.toNat → s.activeMask.getLsbD other = true →
    ∃ t, exec (.deregisterLane lane) s = .next t ∧ Answered 0#32 s t ∧
      (∀ j < 16, t.activeMask.getLsbD j = (s.activeMask.getLsbD j && j != lane.toNat)) ∧
      (∀ j < 16, t.completeMask.getLsbD j = (s.completeMask.getLsbD j && j != lane.toNat)) ∧
      t.laneCount = s.laneCount - 1#5 ∧ t.maxLaneDataSize = s.maxLaneDataSize ∧
      SameShape s t ∧ SameBytes s t ∧ SameTransfer s t ∧ SameLog s t ∧ SameOutside s t ∧ SameAlloc s t

/-- Rules R141, R162: the last lane's departure answers 1, tears the buffer down and resets the largest size. -/
def Obligations.DeregisterLastLaneTearsDown : Prop :=
  ∀ (s : State) (lane : LaneId), s.xferBusy = false → s.laneActive lane = true →
    (∀ j < 16, j ≠ lane.toNat → s.activeMask.getLsbD j = false) →
    ∃ t, exec (.deregisterLane lane) s = .next t ∧ Answered 1#32 s t ∧
      t.activeMask = 0#16 ∧ (∀ j < 16, t.completeMask.getLsbD j = (s.completeMask.getLsbD j && j != lane.toNat)) ∧
      t.laneCount = s.laneCount - 1#5 ∧ t.maxLaneDataSize = 0#16 ∧ t.bufState = .unallocated ∧
      (s.bufState = .allocated → t.EmptyBuffer) ∧ (s.bufState = .unallocated → SameShape s t ∧ SameBytes s t) ∧
      SameTransfer s t ∧ SameLog s t ∧ SameOutside s t ∧ SameAlloc s t

/-- Rule R141: DEREGISTER_LANE of an id that is out of range, INVALID or not active answers 0 and changes nothing. -/
def Obligations.DeregisterInactiveLaneDoesNothing : Prop :=
  ∀ (s : State) (lane : LaneId), s.xferBusy = false →
    (s.cfg.bits ≤ lane.toNat ∨ s.activeMask.getLsbD lane.toNat = false) →
    exec (.deregisterLane lane) s = .next { s with responses := s.responses ++ [0#32], cmdBuf := [] }

/-- Rule R142: MARK_LANE_COMPLETE of an active lane sets its bit of the completion bitmap, and starts no transfer. -/
def Obligations.MarkLaneCompleteSetsItsBit : Prop :=
  ∀ (s : State) (lane : LaneId), s.xferBusy = false → lane.toNat < s.cfg.bits →
    s.activeMask.getLsbD lane.toNat = true →
    ∃ t, exec (.markLaneComplete lane) s = .next t ∧ Answered 0#32 s t ∧
      (∀ j < 16, t.completeMask.getLsbD j = (s.completeMask.getLsbD j || j == lane.toNat)) ∧
      t.activeMask = s.activeMask ∧ t.laneCount = s.laneCount ∧ t.maxLaneDataSize = s.maxLaneDataSize ∧
      SameShape s t ∧ SameBytes s t ∧ SameTransfer s t ∧ SameLog s t ∧ SameOutside s t ∧ SameAlloc s t

/-- Rules R145, R146, R185: the three queries answer their predicate at once, during a transfer too, and change nothing else. -/
def Obligations.QueriesAnswerTheirPredicate : Prop :=
  ∀ s : State,
    (∃ v, exec .allLanesComplete s = .next { s with responses := s.responses ++ [v], cmdBuf := [] } ∧
      ((∀ j < 16, s.completeMask.getLsbD j = s.activeMask.getLsbD j) → v = 1#32) ∧
      (∀ j < 16, s.completeMask.getLsbD j ≠ s.activeMask.getLsbD j → v = 0#32)) ∧
    (∃ v, exec .noLanesComplete s = .next { s with responses := s.responses ++ [v], cmdBuf := [] } ∧
      ((∀ j < 16, s.completeMask.getLsbD j = false) → v = 1#32) ∧
      (∀ j < 16, s.completeMask.getLsbD j = true → v = 0#32)) ∧
    (∃ v, exec .isTransferDone s = .next { s with responses := s.responses ++ [v], cmdBuf := [] } ∧
      (s.xferBusy = false → v = 1#32) ∧ (s.xferBusy = true → v = 0#32))

/-- Rule R147: RESET_COMPLETION empties the completion bitmap and changes nothing else. -/
def Obligations.ResetCompletionEmptiesTheBitmap : Prop :=
  ∀ s : State, s.xferBusy = false →
    exec .resetCompletion s =
      .next { s with completeMask := 0#16, responses := s.responses ++ [0#32], cmdBuf := [] }

/-- Rule R143: in every state that meets the invariant the barrier predicate is a comparison of counts; each successful REGISTER_LANE
adds one to `laneCount`, each DEREGISTER_LANE that removes an active id takes one off, and no other command changes it. -/
def Obligations.LaneCountIsTheQuorumCounter : Prop :=
  (∀ s : State, s.Inv → (s.completeMask = s.activeMask ↔ popcount s.completeMask = s.laneCount.toNat)) ∧
  (∀ (s t : State) (d : Half), s.Inv → exec (.registerLane d) s = .next t →
    t.laneCount.toNat = s.laneCount.toNat + (if t.activeMask = s.activeMask then 0 else 1)) ∧
  (∀ (s t : State) (lane : LaneId), s.Inv → exec (.deregisterLane lane) s = .next t →
    s.laneCount.toNat = t.laneCount.toNat + (if t.activeMask = s.activeMask then 0 else 1)) ∧
  (∀ (i : Instr) (s t : State), exec i s = .next t → (∀ d, i ≠ .registerLane d) → (∀ lane, i ≠ .deregisterLane lane) →
    t.laneCount = s.laneCount)

/-- Rule R148 (b): the largest size never shrinks while a lane is registered, and a command that changes it leaves it 0 with no lane
registered or is a REGISTER_LANE. -/
def Obligations.LargestSizeOnlyGrowsWithinACycle : Prop :=
  ∀ (i : Instr) (s t : State), exec i s = .next t →
    (t.activeMask ≠ 0#16 → s.maxLaneDataSize.toNat ≤ t.maxLaneDataSize.toNat) ∧
    (t.maxLaneDataSize ≠ s.maxLaneDataSize →
      (∃ d, i = .registerLane d ∧ t.maxLaneDataSize = d) ∨ (t.activeMask = 0#16 ∧ t.maxLaneDataSize = 0#16))

/-! ### The buffer manager (spec/42_buffer_manager.md) -/

/-- Rules R160, R66, R67, R75, R164: CONSTRUCT with lanes registered and an Allocator that answers `ok` builds the region: its sizes, its
chain, every cell 0. (How the answer is drawn is the model's choice: log 3.) -/
def Obligations.ConstructBuildsTheRegion : Prop :=
  ∀ (s : State) (q : Nat), s.cfg.Admitted → s.bufState = .unallocated → s.activeMask ≠ 0#16 →
    s.alloc.value Config.allocatorAnswer = .ok q →
    ∃ t, exec .construct s = .next t ∧ Answered 1#32 s t ∧ t.bufState = .allocated ∧ t.bufBase = some (4 * q) ∧
      t.capSlots = s.maxLaneDataSize ∧
      t.payloadBytes.toNat = s.maxLaneDataSize.toNat * s.cfg.cellsPerBit * s.cfg.bits ∧
      t.descCount.toNat = max 1 ((t.payloadBytes.toNat + s.cfg.mtu - 1) / s.cfg.mtu) ∧
      t.bufSize.toNat = t.descCount.toNat * s.cfg.descBytes + t.payloadBytes.toNat ∧
      t.descs.length = t.descCount.toNat ∧
      (∀ k < t.descCount.toNat, t.descs[k]? = some
        { segOff := t.descCount.toNat * s.cfg.descBytes + k * s.cfg.mtu
          segLen := min s.cfg.mtu (t.payloadBytes.toNat - k * s.cfg.mtu)
          next := if k < t.descCount.toNat - 1 then some (k + 1) else none
          eof := decide (k = t.descCount.toNat - 1) }) ∧
      (∀ n < t.ncells, t.cell n = 0#16) ∧
      (∀ a, a < t.payloadOff ∨ t.bufSize.toNat ≤ a → Memory.read t.mem a = Memory.read s.mem a) ∧
      SameRegistry s t ∧ SameTransfer s t ∧ SameLog s t ∧ SameOutside s t ∧ t.alloc = s.alloc.pop

/-- Rules R160, R244, R245: an Allocator that answers `fail` leaves the buffer Unallocated; the command answers 0, logs ALLOC_FAIL and
changes nothing else. (How the answer is drawn is the model's choice: log 3.) -/
def Obligations.ConstructLogsAnAllocationFailure : Prop :=
  ∀ s : State, s.bufState = .unallocated → s.activeMask ≠ 0#16 →
    s.alloc.value Config.allocatorAnswer = .fail →
    exec .construct s =
      .next { s with diag := s.diag ||| 2#32, alloc := s.alloc.pop, responses := s.responses ++ [0#32], cmdBuf := [] }

/-- Rules R160, R168 (a), R240: CONSTRUCT of an Allocated buffer answers 1 and changes nothing; with no lane registered it faults. -/
def Obligations.ConstructIsIdempotentAndNeedsALane : Prop :=
  (∀ s : State, s.bufState = .allocated →
    exec .construct s = .next { s with responses := s.responses ++ [1#32], cmdBuf := [] }) ∧
  (∀ s : State, s.bufState = .unallocated → s.activeMask = 0#16 →
    ∃ t, exec .construct s = .next t ∧ Faulted .constructNoLanes 0x0000000B#32 s t)

/-- Rules R161, R162: DESTRUCT with a lane registered faults; with none it tears the buffer down, which in every state that meets the
invariant is a no-op. -/
def Obligations.DestructIsPrematureOrTearsDown : Prop :=
  (∀ s : State, s.xferBusy = false → s.activeMask ≠ 0#16 →
    ∃ t, exec .destruct s = .next t ∧ Faulted .prematureDestruct 0x0000000C#32 s t) ∧
  (∀ s : State, s.xferBusy = false → s.activeMask = 0#16 →
    ∃ t, exec .destruct s = .next t ∧ Answered 0#32 s t ∧ t.bufState = .unallocated ∧
      (s.bufState = .allocated → t.EmptyBuffer) ∧ (s.bufState = .unallocated → SameShape s t ∧ SameBytes s t) ∧
      SameRegistry s t ∧ SameTransfer s t ∧ SameLog s t ∧ SameOutside s t ∧ SameAlloc s t) ∧
  (∀ s : State, s.Inv → s.xferBusy = false → s.activeMask = 0#16 →
    exec .destruct s = .next { s with responses := s.responses ++ [0#32], cmdBuf := [] })

/-- Rules R163, R164, R180: BEGIN_FILL and RESET_BUFFER_FOR_CYCLE zero the payload exactly when no lane has completed; the first answers
the handle 0, the second whether it cleared. Nothing but payload bytes changes. -/
def Obligations.CycleClearsOnlyWhenNoLaneCompleted : Prop :=
  ∀ s : State, s.Inv → s.xferBusy = false → s.bufState = .allocated →
    ∃ t u, exec .beginFill s = .next t ∧ exec .resetBufferForCycle s = .next u ∧ Answered 0#32 s t ∧
      Answered (if s.completeMask = 0#16 then 1#32 else 0#32) s u ∧ t.mem = u.mem ∧
      (s.completeMask = 0#16 → ∀ n < s.ncells, t.cell n = 0#16) ∧ (s.completeMask ≠ 0#16 → SameBytes s t) ∧
      (∀ a, a < s.payloadOff ∨ s.bufSize.toNat ≤ a → Memory.read t.mem a = Memory.read s.mem a) ∧
      (SameRegistry s t ∧ SameShape s t ∧ SameTransfer s t ∧ SameLog s t ∧ SameOutside s t ∧ SameAlloc s t) ∧
      (SameRegistry s u ∧ SameShape s u ∧ SameTransfer s u ∧ SameLog s u ∧ SameOutside s u ∧ SameAlloc s u)

/-- Rules R165, R166: TRIGGER_TRANSFER_IF_READY of an Allocated buffer starts one transfer of the payload when a lane is registered and
every registered lane has completed; where that is not so it answers 0 and changes nothing. (`frame` is the model's observation, log 8.) -/
def Obligations.TriggerStartsATransferAtTheBarrier : Prop :=
  (∀ s : State, s.xferBusy = false → s.activeMask ≠ 0#16 → s.completeMask = s.activeMask → s.bufState = .allocated →
    exec .triggerTransferIfReady s =
      .next { s with completeMask := 0#16, xferPos := 0#32, xferBusy := true, frame := []
                     responses := s.responses ++ [1#32], cmdBuf := [] }) ∧
  (∀ s : State, s.xferBusy = false → (s.activeMask = 0#16 ∨ s.completeMask ≠ s.activeMask) →
    exec .triggerTransferIfReady s = .next { s with responses := s.responses ++ [0#32], cmdBuf := [] })

/-- Rule R167: `bufState` goes from Unallocated to Allocated only by CONSTRUCT, with a lane registered and answered 1, and back only by
a DEREGISTER_LANE that leaves no lane, or by a DESTRUCT with none. -/
def Obligations.BufferStateMachine : Prop :=
  ∀ (i : Instr) (s t : State), exec i s = .next t →
    (s.bufState = .unallocated → t.bufState = .allocated →
      i = .construct ∧ s.activeMask ≠ 0#16 ∧ t.responses = s.responses ++ [1#32]) ∧
    (s.bufState = .allocated → t.bufState = .unallocated →
      t.activeMask = 0#16 ∧ t.EmptyBuffer ∧ ((∃ lane, i = .deregisterLane lane) ∨ i = .destruct))

/-- Rule R168 (c), (d): a command starts a transfer only where none runs, it is END_FILL or TRIGGER_TRANSFER_IF_READY, the buffer is
Allocated, a lane is registered and every registered lane has completed, the last of them perhaps by this END_FILL. -/
def Obligations.TransferStartsOnlyAtTheBarrier : Prop :=
  ∀ (i : Instr) (s t : State), exec i s = .next t → s.xferBusy = false → t.xferBusy = true →
    s.bufState = .allocated ∧ s.activeMask ≠ 0#16 ∧ t.completeMask = 0#16 ∧ t.responses = s.responses ++ [1#32] ∧
    ((i = .triggerTransferIfReady ∧ s.completeMask = s.activeMask) ∨
     (∃ lane, i = .endFill lane ∧ s.laneActive lane = true ∧
       ∀ j < 16, s.activeMask.getLsbD j = true → j = lane.toNat ∨ s.completeMask.getLsbD j = true))

/-! ### The facade (spec/43_mux_bus.md) -/

/-- Rule R181: END_FILL of the lane that completes the quorum answers 1 and starts the transfer. (`frame` is the model's observation,
log 8.) -/
def Obligations.EndFillOfTheLastLaneStartsTheTransfer : Prop :=
  ∀ (s : State) (lane : LaneId), s.Inv → s.xferBusy = false → s.bufState = .allocated → lane.toNat < s.cfg.bits →
    s.activeMask.getLsbD lane.toNat = true →
    (∀ j < 16, s.activeMask.getLsbD j = true → j = lane.toNat ∨ s.completeMask.getLsbD j = true) →
    exec (.endFill lane) s =
      .next { s with completeMask := 0#16, xferPos := 0#32, xferBusy := true, frame := []
                     responses := s.responses ++ [1#32], cmdBuf := [] }

/-- Rule R181: END_FILL while another lane has not completed sets the lane's bit, answers 0 and starts nothing. -/
def Obligations.EndFillBeforeTheQuorumOnlyMarks : Prop :=
  ∀ (s : State) (lane : LaneId) (other : Nat), s.xferBusy = false → s.bufState = .allocated → lane.toNat < s.cfg.bits →
    s.activeMask.getLsbD lane.toNat = true → other ≠ lane.toNat → s.activeMask.getLsbD other = true →
    s.completeMask.getLsbD other = false →
    ∃ t, exec (.endFill lane) s = .next t ∧ Answered 0#32 s t ∧
      (∀ j < 16, t.completeMask.getLsbD j = (s.completeMask.getLsbD j || j == lane.toNat)) ∧
      t.activeMask = s.activeMask ∧ t.laneCount = s.laneCount ∧ t.maxLaneDataSize = s.maxLaneDataSize ∧
      SameShape s t ∧ SameBytes s t ∧ SameTransfer s t ∧ SameLog s t ∧ SameOutside s t ∧ SameAlloc s t

/-- Rule R182: with the buffer Allocated and the lane active, BEGIN_FILL has RESET_BUFFER_FOR_CYCLE's effect but for the response, which is
always 0, and END_FILL has the effect of MARK_LANE_COMPLETE followed by TRIGGER_TRANSFER_IF_READY, with the latter's response. -/
def Obligations.FacadeIsTheComposition : Prop :=
  ∀ (s : State) (lane : LaneId), s.xferBusy = false → s.bufState = .allocated → s.laneActive lane = true →
    (∃ t u v, exec .beginFill s = .next t ∧ exec .resetBufferForCycle s = .next u ∧ { t with responses := u.responses } = u ∧
      t.responses = s.responses ++ [0#32] ∧ u.responses = s.responses ++ [v]) ∧
    (∃ t m u, exec (.endFill lane) s = .next t ∧ exec (.markLaneComplete lane) s = .next m ∧
      exec .triggerTransferIfReady m = .next u ∧ { t with responses := u.responses } = u ∧
      ∃ v, t.responses = s.responses ++ [v] ∧ u.responses = m.responses ++ [v])

/-- Rules R186, R34 to R47: READ_STATUS answers the register that `sel` names, during a transfer too, and changes nothing else. -/
def Obligations.ReadStatusReadsTheRegister : Prop :=
  ∀ (s : State) (sel : Half), ∃ v,
    exec (.readStatus sel) s = .next { s with responses := s.responses ++ [v], cmdBuf := [] } ∧
    (sel = 0x0#16 → v.toNat = s.activeMask.toNat) ∧ (sel = 0x1#16 → v.toNat = s.completeMask.toNat) ∧
    (sel = 0x2#16 → v.toNat = s.laneCount.toNat) ∧ (sel = 0x3#16 → v.toNat = s.maxLaneDataSize.toNat) ∧
    (sel = 0x4#16 → v = if s.bufState = .allocated then 1#32 else 0#32) ∧
    (sel = 0x5#16 → v.toNat = s.capSlots.toNat) ∧ (sel = 0x6#16 → v = s.bufSize) ∧
    (sel = 0x7#16 → v = s.payloadBytes) ∧ (sel = 0x8#16 → v = s.descCount) ∧
    (sel = 0x9#16 → v = if s.xferBusy = true then 0#32 else 1#32) ∧
    (sel = 0xA#16 → v = s.fault) ∧ (sel = 0xB#16 → v = s.faultInfo) ∧ (sel = 0xC#16 → v = s.diag) ∧
    (sel = 0xD#16 → (v.extractLsb' 0 8).toNat = s.cfg.bits ∧ (v.extractLsb' 8 4).toNat = s.cfg.cellsPerBit ∧
      v.extractLsb' 12 4 = 0#4 ∧ (s.cfg.mtu / 4 < 65536 → (v.extractLsb' 16 16).toNat = s.cfg.mtu / 4))

/-- Rule R48: every reserved `sel` reads 0 and raises no fault. -/
def Obligations.ReservedStatusReadsZero : Prop :=
  ∀ (s : State) (sel : Half), 0x000E ≤ sel.toNat →
    exec (.readStatus sel) s = .next { s with responses := s.responses ++ [0#32], cmdBuf := [] }

/-! ### The bit encoder (spec/40_bit_encoder.md) -/

/-- Rules R120 to R124, R126: a legal ENCODE answers HANDLE + COUNT; cell `(HANDLE + j) * CPS + p * K + k` has the lane's pattern level
OR-ed in (high in the pattern's first cell, and in every cell but the last for a 1-bit), every other bit of every cell stays, and nothing
but the payload changes. -/
def Obligations.EncodeOrsThePatternsIntoItsLane : Prop :=
  ∀ (s : State) (lane : LaneId) (handle : Word) (data : List Byte), s.Inv → s.xferBusy = false →
    lane.toNat < s.cfg.bits → s.activeMask.getLsbD lane.toNat = true → s.bufState = .allocated →
    handle.toNat + data.length ≤ s.capSlots.toNat →
    ∃ t, exec (.encode lane handle data) s = .next t ∧ Answered (BitVec.ofNat 32 (handle.toNat + data.length)) s t ∧
      (∀ (j p k : Nat) (hj : j < data.length), p < 8 → k < s.cfg.cellsPerBit →
        (t.cell ((handle.toNat + j) * s.cfg.cellsPerSlot + p * s.cfg.cellsPerBit + k)).getLsbD lane.toNat =
          ((s.cell ((handle.toNat + j) * s.cfg.cellsPerSlot + p * s.cfg.cellsPerBit + k)).getLsbD lane.toNat ||
            k == 0 || ((data[j]).getLsbD (7 - p) && decide (k + 1 < s.cfg.cellsPerBit)))) ∧
      (∀ n b : Nat, n < s.ncells → (b ≠ lane.toNat ∨ n < handle.toNat * s.cfg.cellsPerSlot ∨
          (handle.toNat + data.length) * s.cfg.cellsPerSlot ≤ n) →
        (t.cell n).getLsbD b = (s.cell n).getLsbD b) ∧
      SameRegistry s t ∧ SameShape s t ∧ SameTransfer s t ∧ SameLog s t ∧ SameOutside s t ∧ SameAlloc s t

/-- Rules R63, R124: an ENCODE that is performed stores to no byte but those of the cells of its byte slots. -/
def Obligations.EncodeStoresOnlyToItsSlots : Prop :=
  ∀ (s t : State) (lane : LaneId) (handle : Word) (data : List Byte) (a : Nat), exec (.encode lane handle data) s = .next t →
    (∀ n, handle.toNat * s.cfg.cellsPerSlot ≤ n → n < (handle.toNat + data.length) * s.cfg.cellsPerSlot →
      a < cellOffset s.cfg s.payloadOff n ∨ cellOffset s.cfg s.payloadOff n + s.cfg.cellBytes ≤ a) →
    Memory.read t.mem a = Memory.read s.mem a

/-- Rules R94, R124: an ENCODE whose bytes would pass the end of the payload faults OUT_OF_BOUNDS and writes no cell; all 32 bits of
HANDLE count and the sum does not wrap. -/
def Obligations.EncodePastTheEndFaults : Prop :=
  ∀ (s : State) (lane : LaneId) (handle : Word) (data : List Byte), s.xferBusy = false → s.laneActive lane = true →
    s.bufState = .allocated → s.capSlots.toNat < handle.toNat + data.length →
    ∃ t, exec (.encode lane handle data) s = .next t ∧
      Faulted .outOfBounds (Instr.encode lane handle data).word0 s t

/-- Rule R125: DEC of a slot whose lane bits were 0 gives back the byte ENCODE wrote there, for every instance, lane and byte. -/
def Obligations.DecodingTheSlotsGivesTheBytesBack : Prop :=
  ∀ (s t : State) (lane : LaneId) (handle : Word) (data : List Byte), s.Inv → s.xferBusy = false →
    s.laneActive lane = true → s.bufState = .allocated → handle.toNat + data.length ≤ s.capSlots.toNat →
    exec (.encode lane handle data) s = .next t →
    ∀ (j : Nat) (hj : j < data.length),
      (∀ n < s.cfg.cellsPerSlot, (s.cell ((handle.toNat + j) * s.cfg.cellsPerSlot + n)).getLsbD lane.toNat = false) →
      t.decodeSlot lane.toNat (handle.toNat + j) = some data[j]

/-- Rule R127: an ENCODE onto slots that hold encoded bytes leaves DEC the bitwise OR of the old byte and the new one. -/
def Obligations.RepeatedEncodeOrsTheBytes : Prop :=
  ∀ (s t : State) (lane : LaneId) (handle : Word) (data : List Byte), s.Inv → s.xferBusy = false →
    s.laneActive lane = true → s.bufState = .allocated → handle.toNat + data.length ≤ s.capSlots.toNat →
    exec (.encode lane handle data) s = .next t →
    ∀ (j : Nat) (hj : j < data.length) (old : Byte),
      s.decodeSlot lane.toNat (handle.toNat + j) = some old →
      t.decodeSlot lane.toNat (handle.toNat + j) = some (old ||| data[j])

/-- Rule R126: legal ENCODEs of different lanes commute: in either order the state is the same but for the order of the responses. -/
def Obligations.EncodesOfDifferentLanesCommute : Prop :=
  ∀ (s : State) (l₁ l₂ : LaneId) (h₁ h₂ : Word) (d₁ d₂ : List Byte), s.Inv → s.xferBusy = false → s.bufState = .allocated →
    l₁ ≠ l₂ → s.laneActive l₁ = true → s.laneActive l₂ = true →
    h₁.toNat + d₁.length ≤ s.capSlots.toNat → h₂.toNat + d₂.length ≤ s.capSlots.toNat →
    ∃ a ab b ba, exec (.encode l₁ h₁ d₁) s = .next a ∧ exec (.encode l₂ h₂ d₂) a = .next ab ∧
      exec (.encode l₂ h₂ d₂) s = .next b ∧ exec (.encode l₁ h₁ d₁) b = .next ba ∧
      { ab with responses := ba.responses } = ba

/-- Rules R94, R223: two ENCODEs chained by the returned handle have the effect of one ENCODE of all the bytes, and the second's
response is the one's. -/
def Obligations.ChainedEncodesAreOneEncode : Prop :=
  ∀ (s : State) (lane : LaneId) (handle : Word) (d₁ d₂ : List Byte), s.Inv → s.xferBusy = false → s.bufState = .allocated →
    s.laneActive lane = true → handle.toNat + (d₁ ++ d₂).length ≤ s.capSlots.toNat →
    ∃ a b t v, exec (.encode lane handle d₁) s = .next a ∧ a.responses = s.responses ++ [v] ∧
      exec (.encode lane v d₂) a = .next b ∧ exec (.encode lane handle (d₁ ++ d₂)) s = .next t ∧
      { b with responses := t.responses } = t ∧ ∃ r, b.responses = a.responses ++ [r] ∧ t.responses = s.responses ++ [r]

/-! ### The Transfer Engine (spec/44_transfer_engine.md) -/

/-- Rules R201, R203, R205: while cells remain the engine puts cell `xferPos` on the lines; then its completion step leaves the lines
low and the transfer done. Nothing else of the block changes. (`frame` and `sent` are the model's observation, log 8.) -/
def Obligations.TransferEngineEmitsThenCompletes : Prop :=
  ∀ s : State, s.Inv → s.xferBusy = true →
    (s.xferPos.toNat < s.capSlots.toNat * s.cfg.cellsPerSlot →
      transferStep s = .next { s with lines := s.cell s.xferPos.toNat, xferPos := s.xferPos + 1#32
                                      frame := s.frame ++ [s.cell s.xferPos.toNat] }) ∧
    (s.capSlots.toNat * s.cfg.cellsPerSlot ≤ s.xferPos.toNat →
      transferStep s = .next { s with lines := 0#16, xferPos := 0#32, xferBusy := false, frame := []
                                      sent := s.sent ++ [{ frame := s.frame, completed := true }] })

/-- Rules R201, R202, R208: where no other agent is enabled (a command is held, or none has come), a transfer ends after its remaining
emit steps and one completion step, and its frame is the whole payload, cell 0 first. (`frame` and `sent` are the model's observation,
log 8.) -/
def Obligations.TransferSendsTheWholePayload : Prop :=
  ∀ s : State, s.Inv → s.xferBusy = true → s.host = [] → s.commandReady = false →
    Sys2Proof.core.run (s.ncells - s.xferPos.toNat + 1) s =
      .next { s with lines := 0#16, xferPos := 0#32, xferBusy := false, frame := []
                     sent := s.sent ++ [{ frame := (List.range s.ncells).map s.cell, completed := true }] }

/-- Rules R270, R202, R247: a held command at the head is performed by the step after the transfer's completion step, which comes after
at most the transfer's remaining cells, on the state the transfer leaves; no fairness is needed where the host has nothing to do. -/
def Obligations.HeldCommandIsPerformedAfterTheTransfer : Prop :=
  ∀ (s : State) (i : Instr), s.Inv → s.xferBusy = true → s.host = [] → decode s.cmdBuf = .instr i → i.holdClass = true →
    ∃ t, Sys2Proof.core.run (s.ncells - s.xferPos.toNat + 1) s = .next t ∧ t.xferBusy = false ∧ step t = exec i t ∧
      SameRegistry s t ∧ SameShape s t ∧ SameBytes s t ∧ SameLog s t ∧ SameOutside s t ∧ SameAlloc s t ∧
      t.cmdBuf = s.cmdBuf ∧ t.responses = s.responses

/-- Rule R204: traversing the descriptor chain from `desc[0]` to its terminator, and each storage word in wire order, meets the cells of
the payload in wire order, each once, whatever MTU and sigma are. -/
def Obligations.ChainTraversalIsWireOrder : Prop :=
  ∀ s : State, s.Inv → s.bufState = .allocated → s.chainCells = (List.range s.ncells).map s.cell

/-! ### The hold rule and ordering (spec/70_reset_and_hazards.md, spec/20_memory.md) -/

/-- Rule R270: a command of the hold class is not performed while a transfer runs: nothing changes and no response is made. (That `exec` then
answers the same state, an empty step, is the model's reading of R270: log 15; `step` never takes it.) -/
def Obligations.HoldClassWaitsDuringATransfer : Prop :=
  ∀ (i : Instr) (s : State), i.holdClass = true → s.xferBusy = true → exec i s = .next s

/-- Rules R71, R145: while a transfer runs no command changes a cell, the buffer's shape, the completion bitmap or the transfer. -/
def Obligations.NoCommandTouchesARunningTransfer : Prop :=
  ∀ (i : Instr) (s t : State), s.Inv → s.xferBusy = true → exec i s = .next t →
    t.mem = s.mem ∧ SameShape s t ∧ t.completeMask = s.completeMask ∧ SameTransfer s t

/-! ### Faults (spec/60_exceptions.md) -/

/-- Rules R98, R99, R241, R242: an illegal command faults at once, also while a transfer runs (it is never held). -/
def Obligations.IllegalCommandFaultsAndIsNeverHeld : Prop :=
  ∀ (s : State) (w : Word) (rest : List Word) (why : IllegalCommand), s.cmdBuf = w :: rest → decode s.cmdBuf = .illegal why →
    s.commandReady = true ∧ ∃ t, agentStep .commandUnit s = .next t ∧ Faulted .illegalCmd w s t

/-- Rules R124, R142, R181, R241, R242: ENCODE, END_FILL and MARK_LANE_COMPLETE of a lane out of range, INVALID or not active fault
BAD_LANE, whatever the buffer's state. -/
def Obligations.LaneNotActiveFaultsBadLane : Prop :=
  ∀ (s : State) (lane : LaneId) (handle : Word) (data : List Byte), s.xferBusy = false →
    (s.cfg.bits ≤ lane.toNat ∨ s.activeMask.getLsbD lane.toNat = false) →
    ∀ i ∈ [Instr.encode lane handle data, .endFill lane, .markLaneComplete lane],
      ∃ t, exec i s = .next t ∧ Faulted .badLane i.word0 s t

/-- Rules R240, R241: the commands that need the buffer fault NOT_ALLOCATED when it does not exist; TRIGGER_TRANSFER_IF_READY only when
it is ready. -/
def Obligations.MissingBufferFaultsNotAllocated : Prop :=
  ∀ (s : State) (lane : LaneId) (handle : Word) (data : List Byte), s.xferBusy = false → s.bufState = .unallocated →
    (∀ i ∈ [Instr.beginFill, .resetBufferForCycle], ∃ t, exec i s = .next t ∧ Faulted .notAllocated i.word0 s t) ∧
    (s.laneActive lane = true → ∀ i ∈ [Instr.encode lane handle data, .endFill lane],
      ∃ t, exec i s = .next t ∧ Faulted .notAllocated i.word0 s t) ∧
    (s.activeMask ≠ 0#16 → s.completeMask = s.activeMask →
      ∃ t, exec .triggerTransferIfReady s = .next t ∧ Faulted .notAllocated 0x0000000E#32 s t)

/-- Rules R32 (I7), R44 to R46, R241: no step of the Command Unit or of the Transfer Engine, and no step of the host but a reset, clears a
FAULT or a DIAG bit or replaces FAULT_INFO once there is a fault; so neither does a step of the machine whose host does not reset. -/
def Obligations.FaultAndDiagBitsAreSticky : Prop :=
  ∀ s t : State,
    (agentStep .commandUnit s = .next t ∨ agentStep .transferEngine s = .next t ∨
      (s.host.head? ≠ some .reset ∧ (agentStep .host s = .next t ∨ step s = .next t))) →
    (∀ b, s.fault.getLsbD b = true → t.fault.getLsbD b = true) ∧
    (∀ b, s.diag.getLsbD b = true → t.diag.getLsbD b = true) ∧
    (s.fault ≠ 0#32 → t.faultInfo = s.faultInfo)

/-! ### The whole machine -/

/-- Rules R30, R32, R260, R261: the state after reset of every admitted instance meets the invariant. -/
def Obligations.ResetMeetsTheInvariant : Prop :=
  ∀ c : Config, c.Admitted → (State.resetOf c).Inv

/-- Rule R32: every step of every agent keeps the invariant. -/
def Obligations.EveryStepKeepsTheInvariant : Prop :=
  ∀ s t : State, s.Inv → step s = .next t → t.Inv

/-- Rules R64, R202, R241: from a state that meets the invariant the machine never stops; no command and no cell is refused. -/
def Obligations.NoStepStopsTheMachine : Prop :=
  ∀ s : State, s.Inv → ∃ t, step s = .next t

/-- Rules R90, R31: a command that is performed makes exactly one response and empties `cmdBuf`; one that is held changes nothing. The
words behind it, the host and the instance are untouched. -/
def Obligations.EveryCommandAnswersOnce : Prop :=
  ∀ (i : Instr) (s t : State), exec i s = .next t →
    SameOutside s t ∧ ((i.holdClass = true ∧ s.xferBusy = true ∧ t = s) ∨ ∃ v, Answered v s t)

/-- Rules R31, R90: when `cmdBuf` holds the words of a command that is not held and no other agent is enabled, the step is that
command's meaning on this very state; where other agents are enabled, a choice of the Command Unit makes it the step too. (The draw of the
choice is the model's: log 4.) -/
def Obligations.StepRunsTheDecodedCommand : Prop :=
  ∀ (s : State) (i : Instr), decode s.cmdBuf = .instr i → ¬(s.xferBusy = true ∧ i.holdClass = true) →
    (s.hostReady = false → s.xferBusy = false → step s = exec i s) ∧
    (s.hostReady = true ∨ s.xferBusy = true → s.sched.value Config.agentChoice = .commandUnit →
      step s = exec i { s with sched := s.sched.pop })

/-- Rule R253: while no transfer runs, the host does nothing and no command has arrived, a step changes nothing. -/
def Obligations.IdleBlockChangesNothing : Prop :=
  ∀ s : State, s.xferBusy = false → s.hostReady = false → s.port = [] → decode s.cmdBuf = .incomplete → step s = .next s

/-- Rules R260, R262: a reset, also in mid-transfer, leaves every element of the block at its reset value at once; a transfer in flight
ends with the cells emitted so far as its frame. What is outside the block stays. (The host, the draws and the observed frames are the
model's choice: logs 3, 4, 7, 8; that words on the port are discarded is read from R260: log 6.) -/
def Obligations.ResetClearsTheBlock : Prop :=
  ∀ (s : State) (rest : List HostAction), s.host = .reset :: rest →
    ∃ t, agentStep .host s = .next t ∧
      SameRegistry (State.resetOf s.cfg) t ∧ SameShape (State.resetOf s.cfg) t ∧ t.mem = [] ∧
      t.xferBusy = false ∧ t.xferPos = 0#32 ∧ t.lines = 0#16 ∧ SameLog (State.resetOf s.cfg) t ∧
      t.cmdBuf = [] ∧ t.port = [] ∧ t.responses = [] ∧ t.cfg = s.cfg ∧ t.host = rest ∧ t.received = s.received ∧
      SameAlloc s t ∧ t.sched = s.sched ∧ t.frame = [] ∧
      t.sent = s.sent ++ (if s.xferBusy = true then [{ frame := s.frame, completed := false }] else [])

/-- Rules R34 to R46, R261: right after reset every status register but XFER_STATUS (which reads 1) and CONFIG reads 0. -/
def Obligations.StatusAfterResetReadsAsStated : Prop :=
  ∀ (c : Config) (sel : Half), sel ≠ 0xD#16 →
    (State.resetOf c).statusReg sel = if sel = 0x9#16 then 1#32 else 0#32

/-! ### The host protocol (spec/45_channel_host.md) -/

/-- Rule R224: a frame has exactly `pixelCount` pixels, and pixel `p` is the caller's pixel `p mod L`. -/
def Obligations.FramePixelsWrapAround : Prop :=
  ∀ (count : Nat) (pixels : List Nat) (serialize : Nat → List Byte), pixels ≠ [] →
    (framePixels count pixels serialize).length = count ∧
    ∀ p < count, (framePixels count pixels serialize)[p]? = (pixels[p % pixels.length]?).map serialize

/-- Rules R103, R221 to R224, R226, R228: what a Channel Method sends, response by response. Registering sends REGISTER_LANE with the frame
size of R222, and nothing where that exceeds 65535; INIT_LANE adds CONSTRUCT unless the response was 0xFF, which makes the strip non-functional:
nothing is ever sent for it again. The strips of a block are all registered before the first CONSTRUCT. UPDATE sends the optional WAIT_DONE,
BEGIN_FILL, one ENCODE for the leading settings if LEAD > 0, for each pixel, and for the trailing settings if TRAIL > 0, each with the response
before it as its handle, and END_FILL; nothing without a lane, before a CONSTRUCT answered 1, or with no pixels. TEARDOWN sends WAIT_DONE and
DEREGISTER_LANE. A strip becomes ready by a CONSTRUCT that answers 1, and only one that has a lane does. (The host's actions are the model's:
log 7; what a reset of the block does to a strip: log 16.) -/
def Obligations.ChannelMethodFollowsItsProtocol : Prop :=
  (∀ (c : ChannelMethod) (r : Word) (rs : List Word), c.laneId = none → c.phase = .uninitialized → 0 < c.byteSendTimeUs →
    ∀ d : Half, d.toNat = c.lead + c.pixelCount * c.pixelSize + c.trail + ⌈(c.resetTimeUs / c.byteSendTimeUs : ℚ)⌉₊ →
      c.register.actions (r :: rs) = syncCall (.registerLane d) ∧
      c.initLane.actions (r :: rs) =
        syncCall (.registerLane d) ++ (if r = 0x000000FF#32 then [] else syncCall .construct)) ∧
  (∀ (c : ChannelMethod) (rs : List Word), c.laneId = none →
    65535 < c.lead + c.pixelCount * c.pixelSize + c.trail + ⌈(c.resetTimeUs / c.byteSendTimeUs : ℚ)⌉₊ → c.initLane.actions rs = []) ∧
  (∀ c : ChannelMethod, c.laneId = none → c.phase = .uninitialized →
    (∀ e, (c.after (.registered 0x000000FF#32)).after e = c.after (.registered 0x000000FF#32)) ∧
    ∀ (wait : Bool) (f : Frame Nat (c.after (.registered 0x000000FF#32))) (rs : List Word),
      (c.after (.registered 0x000000FF#32)).register.actions rs = [] ∧ (c.after (.registered 0x000000FF#32)).initLane.actions rs = [] ∧
      ((c.after (.registered 0x000000FF#32)).update wait f).actions rs = [] ∧ (c.after (.registered 0x000000FF#32)).teardown.actions rs = []) ∧
  (∀ (cs : List ChannelMethod) (d : ChannelMethod → Half) (rs qs : List Word),
    (∀ c ∈ cs, c.laneId = none ∧ c.phase = .uninitialized ∧ 0 < c.byteSendTimeUs ∧
      (d c).toNat = c.lead + c.pixelCount * c.pixelSize + c.trail + ⌈(c.resetTimeUs / c.byteSendTimeUs : ℚ)⌉₊) →
    rs.length = cs.length → qs.length = cs.length → 0x000000FF#32 ∉ rs →
    (initStrips cs).actions (rs ++ qs) = cs.flatMap (fun c => syncCall (.registerLane (d c))) ++ cs.flatMap fun _ => syncCall .construct) ∧
  (∀ (c : ChannelMethod) (lane : LaneId) (wait : Bool) (f : Frame Nat c) (h r : Word) (hs : List Word), c.laneId = some lane →
    (c.phase = .ready ∨ c.phase = .sending true) → f.pixels ≠ [] →
    ∀ chunks : List (List Byte), chunks =
      (if 0 < c.lead then [f.leading.toList] else []) ++
        (List.range c.pixelCount).map (fun p =>
          ((f.pixels[p % f.pixels.length]?).map fun x => (f.serialize (f.shader x)).toList).getD []) ++
        (if 0 < c.trail then [f.trailing.toList] else []) →
    hs.length = chunks.length →
    (c.update wait f).actions (h :: hs ++ [r]) =
      (if wait = true then [.waitDone] else []) ++ syncCall .beginFill ++
        (List.zipWith (fun bytes h => syncCall (.encode lane h bytes)) chunks (h :: hs)).flatten ++ syncCall (.endFill lane)) ∧
  (∀ (c : ChannelMethod) (wait : Bool) (f : Frame Nat c) (rs : List Word),
    (c.laneId = none ∨ c.phase = .uninitialized ∨ f.pixels = []) → (c.update wait f).actions rs = []) ∧
  (∀ (c : ChannelMethod) (lane : LaneId) (r : Word) (rs : List Word), c.laneId = some lane →
    c.teardown.actions (r :: rs) = .waitDone :: syncCall (.deregisterLane lane)) ∧
  (∀ (c : ChannelMethod) (rs : List Word), c.laneId = none → c.teardown.actions rs = []) ∧
  (∀ (c : ChannelMethod) (lane : LaneId) (r : Word), c.laneId = some lane → c.phase = .uninitialized →
    ((c.after (.constructed r)).phase = .ready ↔ r = 1#32)) ∧
  (∀ (c : ChannelMethod) (e : ChannelEvent), c.laneId = none → (c.after e).phase = .ready → c.phase = .ready)

/-- Rules R223 to R225, R222, R181: UPDATE of a ready strip, on a block in which no transfer runs, is carried out to its end without a fault. It
encodes LEAD bytes, PixelSize bytes of each of `pixelCount` pixels and TRAIL bytes, each ENCODE at the handle the response before it gave;
onto cleared cells DEC then gives those bytes back, and the byte slots after them stay low. The lane has completed: the transfer runs, and the
completion bitmap is empty, exactly if every other active lane had completed before, and else the lane's completion bit is set too. The strip is
sending exactly when its END_FILL started the transfer. -/
def Obligations.UpdateWritesTheFrame : Prop :=
  ∀ (α : Type) (s : State) (c : ChannelMethod) (lane : LaneId) (wait : Bool) (f : Frame α c), s.Inv → s.xferBusy = false →
    s.bufState = .allocated → s.laneActive lane = true → c.laneId = some lane → c.mayUpdate = true → f.pixels ≠ [] →
    c.lead + c.pixelCount * c.pixelSize + c.trail ≤ s.capSlots.toNat →
    f.chunks.flatten = f.leading.toList ++
      (List.range c.pixelCount).flatMap (fun p =>
        ((f.pixels[p % f.pixels.length]?).map fun x => (f.serialize (f.shader x)).toList).getD []) ++ f.trailing.toList ∧
    f.chunks.flatten.length = c.lead + c.pixelCount * c.pixelSize + c.trail ∧
    ∃ c' t, (c.update wait f).perform s = some (c', t) ∧ t.fault = s.fault ∧ t.capSlots = s.capSlots ∧
      (s.completeMask = 0#16 ∨ (∀ n < s.ncells, (s.cell n).getLsbD lane.toNat = false) →
        (∀ (j : Nat) (hj : j < f.chunks.flatten.length), t.decodeSlot lane.toNat j = some f.chunks.flatten[j]) ∧
        ∀ n < t.ncells, f.chunks.flatten.length * t.cfg.cellsPerSlot ≤ n → (t.cell n).getLsbD lane.toNat = false) ∧
      t.activeMask = s.activeMask ∧
      (t.xferBusy = true ↔ ∀ j < 16, s.activeMask.getLsbD j = true → j = lane.toNat ∨ s.completeMask.getLsbD j = true) ∧
      (t.xferBusy = true → t.completeMask = 0#16) ∧
      (t.xferBusy = false → ∀ j < 16, t.completeMask.getLsbD j = (s.completeMask.getLsbD j || j == lane.toNat)) ∧
      c'.phase = (if t.xferBusy = true then .sending true else .ready)

/-! ### The host's port, polls and fair runs -/

/-- Rule R90: words are sent in program order and accepted in that order into `cmdBuf`, and responses queue in order. A word the host sends goes
last on the port; a read takes the oldest response and waits while there is none. (The host's lists are the model's: log 7. That words wait in
a queue `port`, and that the Command Unit takes one of them a step, is the model's reading of R90 and R270: log 6, DEDUCED.) -/
def Obligations.PortAndResponsesAreQueues : Prop :=
  (∀ (s : State) (w : Word) (rest : List Word), decode s.cmdBuf = .incomplete → s.port = w :: rest →
    s.commandReady = true ∧ agentStep .commandUnit s = .next { s with cmdBuf := s.cmdBuf ++ [w], port := rest }) ∧
  (∀ (s : State) (w : Word) (rest : List HostAction), s.host = .send w :: rest →
    s.hostReady = true ∧ agentStep .host s = .next { s with host := rest, port := s.port ++ [w] }) ∧
  (∀ (s : State) (r : Word) (rs : List Word) (rest : List HostAction), s.host = .read :: rest → s.responses = r :: rs →
    s.hostReady = true ∧ agentStep .host s = .next { s with host := rest, responses := rs, received := s.received ++ [r] }) ∧
  (∀ (s : State) (rest : List HostAction), s.host = .read :: rest → s.responses = [] → s.hostReady = false)

/-- Rules R103, R90: WAIT_DONE ends on the response of its own IS_TRANSFER_DONE, whatever commands were sent before it and are not yet answered
or read: when it ends, no transfer runs. First the poll is sent behind those commands; then every step of any agent keeps the poll on its
way or answered, or the poll was answered 0 and the host polls again, or the wait is over. (The host's actions are
the model's: log 7; the queue `port`, and a word taken a step, is its reading of R90: log 6, DEDUCED.) -/
def Obligations.WaitDoneEndsOnlyAfterTheTransfer : Prop :=
  (∀ (s : State) (rest : List HostAction) (cs : List (List Word)), s.host = .waitDone :: rest → (∀ c ∈ cs, WholeCommand c) →
    s.cmdBuf ++ s.port = cs.flatten →
    ∃ t older, agentStep .host s = .next t ∧ t.host = .awaitDone older :: rest ∧ t.Polls older ∧
      t.port = s.port ++ [0x00000006#32] ∧ older = s.responses.length + cs.length) ∧
  (∀ (s t : State) (older : Nat) (rest : List HostAction), s.Inv → s.host = .awaitDone older :: rest → s.Polls older →
    step s = .next t →
    (∃ m, t.host = .awaitDone m :: rest ∧ t.Polls m) ∨
    (t.host = .waitDone :: rest ∧ t.cmdBuf = [] ∧ t.port = []) ∨
    (t.host = rest ∧ t.xferBusy = false))

/-- Rule R202: in every run that does not starve the Transfer Engine and in which the host does not reset the block, every transfer, whatever
the host and the Command Unit do meanwhile, reaches its completion step, and its frame is the payload's NCELLS cells. (The host's lists and
`sent` are the model's: logs 7, 8; the draws: log 4.) -/
def Obligations.FairRunsCompleteEveryTransfer : Prop :=
  ∀ r : Nat → State, FairRun r → (r 0).Inv → .reset ∉ (r 0).host →
    ∀ n, (r n).xferBusy = true →
      ∃ m, n ≤ m ∧ (∀ k, n ≤ k → k ≤ m → (r k).xferBusy = true) ∧ (r m).chooseAgent.1 = some .transferEngine ∧
        (r (m + 1)).xferBusy = false ∧
        (r (m + 1)).sent = (r n).sent ++ [{ frame := (List.range (r n).ncells).map (r n).cell, completed := true }]

/-- Rules R202, R270, R90: in such a run every complete legal command at the head, held or not, is performed and answered: until then it
stays in `cmdBuf`, and the step that performs it is its meaning. (The host's lists are the model's: log 7; the draws: log 4.) -/
def Obligations.FairRunsPerformEveryCommand : Prop :=
  ∀ r : Nat → State, FairRun r → (r 0).Inv → .reset ∉ (r 0).host →
    ∀ (n : Nat) (i : Instr), decode (r n).cmdBuf = .instr i →
      ∃ m, n ≤ m ∧ (∀ k, n ≤ k → k ≤ m → (r k).cmdBuf = (r n).cmdBuf) ∧
        exec i { r m with sched := (r m).chooseAgent.2 } = .next (r (m + 1)) ∧ ∃ v, Answered v (r m) (r (m + 1))
end

