-- ==== Sys2Proof/Laws/Masks.lean ====
section
/-! SUPPORT. Lane masks as sets of lane ids (rule R11): single lanes, counting, the lowest free id. -/

namespace Sys2Proof.Machine

@[simp] theorem getLsbD_laneBit (i j : Nat) : (laneBit i).getLsbD j = (decide (j < 16) && decide (j = i)) := by
  unfold laneBit
  rw [BitVec.getLsbD_shiftLeft]
  by_cases h : j < 16 <;> by_cases hj : j < i <;> by_cases he : j = i <;> (simp [h, hj, he, BitVec.getLsbD_one]; try omega)

/-- A mask with a lane added. -/
theorem getLsbD_or_laneBit (m : LaneMask) (i j : Nat) :
    (m ||| laneBit i).getLsbD j = (m.getLsbD j || (decide (j < 16) && decide (j = i))) := by
  rw [BitVec.getLsbD_or, getLsbD_laneBit]

/-- A mask with a lane removed. -/
theorem getLsbD_and_not_laneBit (m : LaneMask) (i j : Nat) :
    (m &&& ~~~laneBit i).getLsbD j = (m.getLsbD j && decide (j ≠ i)) := by
  rw [BitVec.getLsbD_and, BitVec.getLsbD_not, getLsbD_laneBit]
  by_cases h : j < 16
  · simp [h]
  · simp [h, BitVec.getLsbD_of_ge m j (by omega)]

/-- Masks are equal when they have the same lanes. -/
theorem mask_ext {m n : LaneMask} (h : ∀ j < 16, m.getLsbD j = n.getLsbD j) : m = n :=
  BitVec.eq_of_getLsbD_eq h

theorem mask_eq_zero_iff (m : LaneMask) : m = 0#16 ↔ ∀ j < 16, m.getLsbD j = false := by
  constructor
  · rintro rfl j -; simp
  · intro h; exact mask_ext fun j hj => by simp [h j hj]

/-- A mask below `2 ^ w` has no lane at `w` or above. -/
theorem getLsbD_false_of_fits {m : LaneMask} {w j : Nat} (h : m.toNat < 2 ^ w) (hj : w ≤ j) : m.getLsbD j = false := by
  rw [BitVec.getLsbD]
  exact Nat.testBit_lt_two_pow (Nat.lt_of_lt_of_le h (Nat.pow_le_pow_right (by omega) hj))

theorem fits_of_getLsbD {m : LaneMask} {w : Nat} (h : ∀ j, w ≤ j → m.getLsbD j = false) : m.toNat < 2 ^ w :=
  Nat.lt_pow_two_of_testBit _ fun j hj => h j hj

/-- The completion bitmap is a subset of the active lanes (rule R32, I1), lane by lane. -/
theorem subset_iff (m n : LaneMask) : m &&& ~~~n = 0#16 ↔ ∀ j < 16, m.getLsbD j = true → n.getLsbD j = true := by
  rw [mask_eq_zero_iff]
  refine forall₂_congr fun j hj => ?_
  rw [BitVec.getLsbD_and, BitVec.getLsbD_not]
  simp only [hj, decide_true, Bool.true_and]
  cases m.getLsbD j <;> cases n.getLsbD j <;> simp

/-! ### Counting -/

/-- Counting over a list with no repeats grows by one when one more member counts. -/
theorem countP_insert {l : List Nat} (hl : l.Nodup) {p q : Nat → Bool} {i : Nat} (hi : i ∈ l) (hp : p i = false)
    (hq : q i = true) (h : ∀ j, j ≠ i → q j = p j) : l.countP q = l.countP p + 1 := by
  induction l with
  | nil => simp at hi
  | cons a l ih =>
    obtain ⟨ha, hl'⟩ := List.nodup_cons.1 hl
    rcases List.mem_cons.1 hi with rfl | hi
    · rw [List.countP_cons_of_pos hq, List.countP_cons_of_neg (by simp [hp])]
      congr 1
      exact List.countP_congr fun j hj => by
        rw [h j fun e => ha (e ▸ hj)]
    · have hai : a ≠ i := fun e => ha (e ▸ hi)
      rw [List.countP_cons, List.countP_cons, ih hl' hi, h a hai]
      omega

theorem popcount_le (m : LaneMask) : popcount m ≤ 16 := by
  have := List.countP_le_length (p := m.getLsbD) (l := List.range 16)
  simpa [popcount] using this

@[simp] theorem popcount_zero : popcount 0#16 = 0 := by decide

theorem popcount_or_laneBit {m : LaneMask} {i : Nat} (hi : i < 16) (h : m.getLsbD i = false) :
    popcount (m ||| laneBit i) = popcount m + 1 :=
  countP_insert List.nodup_range (List.mem_range.2 hi) h (by simp [hi]) fun j hj => by simp [hj]

theorem popcount_and_not_laneBit {m : LaneMask} {i : Nat} (hi : i < 16) (h : m.getLsbD i = true) :
    popcount m = popcount (m &&& ~~~laneBit i) + 1 :=
  countP_insert List.nodup_range (List.mem_range.2 hi) (by rw [getLsbD_and_not_laneBit]; simp) h
    fun j hj => by rw [getLsbD_and_not_laneBit]; simp [hj]

/-- Counting is strict: a subset with as many members is the whole. -/
theorem eq_of_subset_of_countP {l : List Nat} {p q : Nat → Bool} (h : ∀ j ∈ l, p j = true → q j = true)
    (hc : l.countP q ≤ l.countP p) : ∀ j ∈ l, p j = q j := by
  induction l with
  | nil => simp
  | cons a l ih =>
    have hl : ∀ j ∈ l, p j = true → q j = true := fun j hj => h j (List.mem_cons_of_mem _ hj)
    have hle : l.countP p ≤ l.countP q := List.countP_mono_left hl
    have ha := h a (List.mem_cons_self ..)
    rw [List.countP_cons, List.countP_cons] at hc
    have hpq : p a = q a := by
      cases hpa : p a
      · cases hqa : q a
        · rfl
        · simp [hpa, hqa] at hc; omega
      · exact (ha hpa).symm
    rw [hpq] at hc
    intro j hj
    rcases List.mem_cons.1 hj with rfl | hj
    · exact hpq
    · exact ih hl (by omega) j hj

/-- The barrier as a count (rule R143): a subset of the active lanes with as many members is all of them. -/
theorem eq_of_subset_of_popcount {m n : LaneMask} (h : m &&& ~~~n = 0#16) (hc : popcount m = popcount n) : m = n :=
  mask_ext fun j hj =>
    eq_of_subset_of_countP (l := List.range 16) (fun k hk => (subset_iff m n).1 h k (List.mem_range.1 hk)) (by
      simp only [popcount] at hc; omega) j (List.mem_range.2 hj)

theorem popcount_pos {m : LaneMask} {i : Nat} (hi : i < 16) (h : m.getLsbD i = true) : 0 < popcount m :=
  List.countP_pos_iff.2 ⟨i, List.mem_range.2 hi, h⟩

/-! ### The lowest free id -/

/-- What `lowestFree` says when it finds one (rule R144: first fit). -/
theorem lowestFree_some {w i : Nat} {m : LaneMask} :
    lowestFree w m = some i ↔ i < w ∧ m.getLsbD i = false ∧ ∀ j < i, m.getLsbD j = true := by
  unfold lowestFree
  rw [List.find?_range_eq_some]
  simp only [Bool.not_eq_eq_eq_not, Bool.not_true, List.mem_range, Bool.not_not]
  tauto

theorem lowestFree_none {w : Nat} {m : LaneMask} : lowestFree w m = none ↔ ∀ j < w, m.getLsbD j = true := by
  unfold lowestFree
  rw [List.find?_eq_none]
  simp

end Sys2Proof.Machine
end

