-- ==== Sys2Proof/Laws/Memory.lean ====
section
/-! SUPPORT. The laws of the region's bytes: read after write, what a write leaves alone, and that every operation keeps the canonical
form, in which equal contents are equal lists. -/

namespace Sys2Proof.Machine

/-! ### Reading -/

@[simp] theorem Memory.read_nil (a : Nat) : Memory.read [] a = 0#8 := rfl

@[simp] theorem Memory.read_cons (c : Host.Cell) (m : Memory) (a : Nat) :
    Memory.read (c :: m) a = if c.1 = a then c.2 else Memory.read m a := rfl

/-- An address no entry has reads 0. -/
theorem Memory.read_unlisted {m : Memory} {a : Nat} (h : ∀ c ∈ m, c.1 ≠ a) : Memory.read m a = 0#8 := by
  induction m with
  | nil => rfl
  | cons c m ih =>
    have hc := h c (by simp)
    have hm := ih fun d hd => h d (by simp [hd])
    simp [hc, hm]

/-! ### The canonical form -/

theorem Memory.wf_nil : Memory.wf [] := ⟨.nil, fun _ h => absurd h List.not_mem_nil⟩

theorem Memory.wf_cons {c : Host.Cell} {m : Memory} :
    Memory.wf (c :: m) ↔ (∀ d ∈ m, c.1 < d.1) ∧ c.2 ≠ 0#8 ∧ Memory.wf m := by
  simp only [Memory.wf, List.pairwise_cons, List.forall_mem_cons]
  tauto

/-- Equal contents in canonical form are equal lists. -/
theorem Memory.ext_of_read {m n : Memory} (hm : Memory.wf m) (hn : Memory.wf n)
    (h : ∀ a, Memory.read m a = Memory.read n a) : m = n := by
  induction m generalizing n with
  | nil =>
    cases n with
    | nil => rfl
    | cons d n =>
      have := h d.1
      simp only [Memory.read_nil, Memory.read_cons, if_true] at this
      exact absurd this.symm (Memory.wf_cons.1 hn).2.1
  | cons c m ih =>
    obtain ⟨hcm, hc, hm'⟩ := Memory.wf_cons.1 hm
    cases n with
    | nil =>
      have := h c.1
      simp only [Memory.read_nil, Memory.read_cons, if_true] at this
      exact absurd this hc
    | cons d n =>
      obtain ⟨hdn, hd, hn'⟩ := Memory.wf_cons.1 hn
      have unlisted_m : ∀ a, a ≤ c.1 → Memory.read m a = 0#8 := fun a ha =>
        Memory.read_unlisted fun e he => by have := hcm e he; omega
      have unlisted_n : ∀ a, a ≤ d.1 → Memory.read n a = 0#8 := fun a ha =>
        Memory.read_unlisted fun e he => by have := hdn e he; omega
      have hk : c.1 = d.1 := by
        rcases Nat.lt_trichotomy c.1 d.1 with hlt | heq | hgt
        · have := h c.1
          rw [Memory.read_cons, Memory.read_cons, if_pos rfl, if_neg (by omega), unlisted_n _ (by omega)] at this
          exact absurd this hc
        · exact heq
        · have := h d.1
          rw [Memory.read_cons, Memory.read_cons, if_pos rfl, if_neg (by omega), unlisted_m _ (by omega)] at this
          exact absurd this.symm hd
      have hv : c.2 = d.2 := by
        have := h c.1
        rwa [Memory.read_cons, Memory.read_cons, if_pos rfl, if_pos hk.symm] at this
      have htail : m = n := by
        refine ih hm' hn' fun a => ?_
        by_cases ha : c.1 = a
        · rw [unlisted_m a (by omega), unlisted_n a (by omega)]
        · have := h a
          rwa [Memory.read_cons, Memory.read_cons, if_neg ha, if_neg (by omega)] at this
      rw [htail, Prod.ext hk hv]

/-! ### Writing one byte -/

/-- A write leaves every other address alone, whatever the list. -/
theorem Memory.read_write_of_ne {m : Memory} {a x : Nat} (b : Byte) (h : x ≠ a) :
    Memory.read (Memory.write m a b) x = Memory.read m x := by
  induction m with
  | nil =>
    unfold Memory.write
    split
    · rfl
    · simp [Ne.symm h]
  | cons c m ih =>
    unfold Memory.write
    split
    · split
      · rfl
      · simp [Ne.symm h]
    · split
      · rename_i hac
        have hcx : c.1 ≠ x := by omega
        split
        · simp [hcx]
        · simp [Ne.symm h, hcx]
      · simp [ih]

theorem Memory.mem_write {m : Memory} {a : Nat} {b : Byte} {c : Host.Cell} (h : c ∈ Memory.write m a b) :
    c ∈ m ∨ (c.1 = a ∧ c.2 = b ∧ b ≠ 0#8) := by
  induction m with
  | nil =>
    unfold Memory.write at h
    split at h
    · simp at h
    · rename_i hb
      simp only [List.mem_singleton] at h
      subst h
      exact .inr ⟨rfl, rfl, hb⟩
  | cons d m ih =>
    unfold Memory.write at h
    split at h
    · split at h
      · exact .inl h
      · rename_i hb
        rcases List.mem_cons.1 h with rfl | h
        · exact .inr ⟨rfl, rfl, hb⟩
        · exact .inl h
    · split at h
      · split at h
        · exact .inl (List.mem_cons_of_mem _ h)
        · rename_i hb
          rcases List.mem_cons.1 h with rfl | h
          · exact .inr ⟨rfl, rfl, hb⟩
          · exact .inl (List.mem_cons_of_mem _ h)
      · rcases List.mem_cons.1 h with rfl | h
        · exact .inl (List.mem_cons_self ..)
        · rcases ih h with h | h
          · exact .inl (List.mem_cons_of_mem _ h)
          · exact .inr h

theorem Memory.wf_write {m : Memory} (hm : Memory.wf m) (a : Nat) (b : Byte) : Memory.wf (Memory.write m a b) := by
  induction m with
  | nil =>
    unfold Memory.write
    split
    · exact Memory.wf_nil
    · rename_i hb
      exact Memory.wf_cons.2 ⟨by simp, hb, Memory.wf_nil⟩
  | cons c m ih =>
    obtain ⟨hcm, hc, hm'⟩ := Memory.wf_cons.1 hm
    unfold Memory.write
    split
    · rename_i hac
      split
      · exact hm
      · rename_i hb
        refine Memory.wf_cons.2 ⟨?_, hb, hm⟩
        intro d hd
        rcases List.mem_cons.1 hd with rfl | hd
        · exact hac
        · exact Nat.lt_trans hac (hcm d hd)
    · split
      · rename_i hac
        split
        · exact hm'
        · rename_i hb
          exact Memory.wf_cons.2 ⟨fun d hd => by have := hcm d hd; simp only; omega, hb, hm'⟩
      · rename_i h1 h2
        refine Memory.wf_cons.2 ⟨?_, hc, ih hm'⟩
        intro d hd
        rcases Memory.mem_write hd with hd | ⟨hd, -⟩
        · exact hcm d hd
        · omega

/-- Read after write, on memories in canonical form. -/
theorem Memory.read_write_self {m : Memory} (hm : Memory.wf m) (a : Nat) (b : Byte) :
    Memory.read (Memory.write m a b) a = b := by
  induction m with
  | nil =>
    unfold Memory.write
    split
    · rename_i hb; simp [hb]
    · simp
  | cons c m ih =>
    obtain ⟨hcm, hc, hm'⟩ := Memory.wf_cons.1 hm
    unfold Memory.write
    split
    · rename_i hac
      split
      · rename_i hb
        rw [hb]
        refine Memory.read_unlisted fun d hd => ?_
        rcases List.mem_cons.1 hd with rfl | hd
        · omega
        · have := hcm d hd; omega
      · simp
    · split
      · rename_i hac
        split
        · rename_i hb
          rw [hb]
          exact Memory.read_unlisted fun d hd => by have := hcm d hd; omega
        · simp
      · rename_i h1 h2
        rw [Memory.read_cons, if_neg (by omega), ih hm']

/-- One lemma for both: what a canonical memory reads after a write. -/
theorem Memory.read_write {m : Memory} (hm : Memory.wf m) (a x : Nat) (b : Byte) :
    Memory.read (Memory.write m a b) x = if x = a then b else Memory.read m x := by
  split
  · rename_i h; rw [h, Memory.read_write_self hm]
  · rename_i h; exact Memory.read_write_of_ne b h

/-! ### Clearing a range -/

theorem Memory.wf_clear {m : Memory} (hm : Memory.wf m) (lo len : Nat) : Memory.wf (Memory.clear m lo len) :=
  ⟨hm.1.filter _, fun c hc => hm.2 c (List.mem_filter.1 hc).1⟩

theorem Memory.read_clear (m : Memory) (lo len x : Nat) :
    Memory.read (Memory.clear m lo len) x = if lo ≤ x ∧ x < lo + len then 0#8 else Memory.read m x := by
  induction m with
  | nil => simp [Memory.clear]
  | cons c m ih =>
    have ih' : Memory.read (m.filter fun c => decide (c.1 < lo) || decide (lo + len ≤ c.1)) x = _ := ih
    by_cases hc : c.1 < lo ∨ lo + len ≤ c.1
    · have : Memory.clear (c :: m) lo len = c :: Memory.clear m lo len := by
        unfold Memory.clear
        exact List.filter_cons_of_pos (by simpa using hc)
      rw [this, Memory.read_cons, Memory.read_cons, ih]
      by_cases hx : c.1 = x
      · simp only [hx, if_true]
        rw [if_neg (by omega)]
      · simp only [hx, if_false]
    · have : Memory.clear (c :: m) lo len = Memory.clear m lo len := by
        unfold Memory.clear
        exact List.filter_cons_of_neg (by simpa using hc)
      rw [this, ih, Memory.read_cons]
      by_cases hx : c.1 = x
      · rw [if_pos (by omega), if_pos (by omega)]
      · rw [if_neg hx]

theorem Memory.clear_subset {m : Memory} {lo len : Nat} {c : Host.Cell} (h : c ∈ Memory.clear m lo len) : c ∈ m :=
  (List.mem_filter.1 h).1

/-! ### Reading and writing n bytes -/

theorem memRead_congr {m n : Memory} {off k : Nat}
    (h : ∀ a, off ≤ a → a < off + k → Memory.read m a = Memory.read n a) : memRead m off k = memRead n off k := by
  induction k generalizing off with
  | zero => rfl
  | succ k ih =>
    simp only [memRead]
    rw [h off (by omega) (by omega), ih fun a h1 h2 => h a (by omega) (by omega)]

theorem memRead_lt (m : Memory) (off n : Nat) : memRead m off n < 256 ^ n := by
  induction n generalizing off with
  | zero => simp [memRead]
  | succ n ih =>
    have h1 := ih (off + 1)
    have h2 : (Memory.read m off).toNat < 256 := (Memory.read m off).isLt
    simp only [memRead, Nat.pow_succ]
    omega

/-- MemWrite leaves every byte outside its range alone, whatever the list. -/
theorem read_memWrite_outside {m : Memory} {off n v x : Nat} (h : x < off ∨ off + n ≤ x) :
    Memory.read (memWrite m off n v) x = Memory.read m x := by
  induction n generalizing m off v with
  | zero => rfl
  | succ n ih => rw [memWrite, ih (by omega), Memory.read_write_of_ne _ (by omega)]

theorem wf_memWrite {m : Memory} (hm : Memory.wf m) (off n v : Nat) : Memory.wf (memWrite m off n v) := by
  induction n generalizing m off v with
  | zero => exact hm
  | succ n ih => exact ih (Memory.wf_write hm ..) ..

theorem mem_memWrite {m : Memory} {off n v : Nat} {c : Host.Cell} (h : c ∈ memWrite m off n v) :
    c ∈ m ∨ (off ≤ c.1 ∧ c.1 < off + n) := by
  induction n generalizing m off v with
  | zero => exact .inl h
  | succ n ih =>
    rcases ih h with h | h
    · rcases Memory.mem_write h with h | ⟨h, -⟩
      · exact .inl h
      · exact .inr (by omega)
    · exact .inr (by omega)

/-- MemRead after MemWrite of the same bytes (rule R64). -/
theorem memRead_memWrite {m : Memory} (hm : Memory.wf m) (off n v : Nat) :
    memRead (memWrite m off n v) off n = v % 256 ^ n := by
  induction n generalizing m off v with
  | zero => simp [memRead, Nat.mod_one]
  | succ n ih =>
    simp only [memRead, memWrite]
    rw [read_memWrite_outside (by omega), Memory.read_write_self hm, ih (Memory.wf_write hm ..)]
    rw [BitVec.toNat_ofNat, show v % 256 ^ (n + 1) = v % (256 * 256 ^ n) by rw [Nat.pow_succ, Nat.mul_comm], Nat.mod_mul]

/-- The bytes MemWrite stores (rule R64). -/
theorem read_memWrite_inside {m : Memory} (hm : Memory.wf m) {off n v x : Nat} (h1 : off ≤ x) (h2 : x < off + n) :
    Memory.read (memWrite m off n v) x = BitVec.ofNat 8 (v / 256 ^ (x - off)) := by
  induction n generalizing m off v with
  | zero => omega
  | succ n ih =>
    rw [memWrite]
    by_cases hx : x = off
    · subst hx
      rw [read_memWrite_outside (by omega), Memory.read_write_self hm, Nat.sub_self, Nat.pow_zero, Nat.div_one]
    · rw [ih (Memory.wf_write hm ..) (by omega) (by omega), Nat.div_div_eq_div_mul, ← Nat.pow_succ',
        show (x - (off + 1)).succ = x - off by omega]

/-- A second MemWrite of the same bytes hides the first. -/
theorem memWrite_memWrite_self {m : Memory} (hm : Memory.wf m) (off n v w : Nat) :
    memWrite (memWrite m off n v) off n w = memWrite m off n w := by
  have hv := wf_memWrite hm off n v
  refine Memory.ext_of_read (wf_memWrite hv ..) (wf_memWrite hm ..) fun x => ?_
  by_cases hx : off ≤ x ∧ x < off + n
  · rw [read_memWrite_inside hv hx.1 hx.2, read_memWrite_inside hm hx.1 hx.2]
  · rw [read_memWrite_outside (by omega), read_memWrite_outside (by omega), read_memWrite_outside (by omega)]

/-- MemWrites of disjoint bytes commute. -/
theorem memWrite_comm {m : Memory} (hm : Memory.wf m) {a k b l v w : Nat} (h : a + k ≤ b ∨ b + l ≤ a) :
    memWrite (memWrite m a k v) b l w = memWrite (memWrite m b l w) a k v := by
  have ha := wf_memWrite hm a k v
  have hb := wf_memWrite hm b l w
  refine Memory.ext_of_read (wf_memWrite ha ..) (wf_memWrite hb ..) fun x => ?_
  by_cases hxa : a ≤ x ∧ x < a + k
  · rw [read_memWrite_outside (by omega), read_memWrite_inside hm hxa.1 hxa.2, read_memWrite_inside hb hxa.1 hxa.2]
  · by_cases hxb : b ≤ x ∧ x < b + l
    · rw [read_memWrite_inside ha hxb.1 hxb.2, read_memWrite_outside (by omega), read_memWrite_inside hm hxb.1 hxb.2]
    · rw [read_memWrite_outside (by omega), read_memWrite_outside (by omega), read_memWrite_outside (by omega),
        read_memWrite_outside (by omega)]

end Sys2Proof.Machine
end

