-- ==== Sys2Proof/Laws/Cells.lean ====
section
/-! SUPPORT. The laws of cells (rules R62, R63): where they lie, that they do not overlap, read after write, and what OR-ing one lane's
bits into consecutive cells does (rules R124, R126). -/

namespace Sys2Proof

/-! ### Constants of an instance -/

theorem Config.bits_cases (c : Config) : c.bits = 8 ∨ c.bits = 16 := by
  unfold Config.bits; split <;> simp

theorem Config.bits_le (c : Config) : c.bits ≤ 16 := by
  rcases c.bits_cases with h | h <;> omega

theorem Config.cellBytes_pos (c : Config) : 0 < c.cellBytes := by
  unfold Config.cellBytes; rcases c.bits_cases with h | h <;> simp [h]

theorem Config.cellsPerWord_pos (c : Config) : 0 < c.cellsPerWord := by
  unfold Config.cellsPerWord; rcases c.bits_cases with h | h <;> simp [h]

/-- G cells of CB bytes fill a storage word (rule R8). -/
theorem Config.cellBytes_mul_cellsPerWord (c : Config) : c.cellBytes * c.cellsPerWord = 4 := by
  unfold Config.cellBytes Config.cellsPerWord; rcases c.bits_cases with h | h <;> simp [h]

/-- CB bytes hold W bits (rule R8). -/
theorem Config.pow_cellBytes (c : Config) : 256 ^ c.cellBytes = 2 ^ c.bits := by
  unfold Config.cellBytes; rcases c.bits_cases with h | h <;> simp [h]

theorem Config.eight_mul_cellBytes (c : Config) : 8 * c.cellBytes = c.bits := by
  unfold Config.cellBytes; rcases c.bits_cases with h | h <;> simp [h]

theorem Config.cellsPerBit_cases (c : Config) : c.cellsPerBit = 3 ∨ c.cellsPerBit = 4 := by
  unfold Config.cellsPerBit; split <;> simp

theorem Config.cellsPerBit_pos (c : Config) : 0 < c.cellsPerBit := by
  rcases c.cellsPerBit_cases with h | h <;> omega

theorem Config.cellsPerSlot_eq (c : Config) : c.cellsPerSlot = 8 * c.cellsPerBit := rfl

theorem Config.cellsPerSlot_pos (c : Config) : 0 < c.cellsPerSlot := by
  have := c.cellsPerBit_pos; simp only [Config.cellsPerSlot]; omega

/-- A byte slot is whole storage words: G divides CPS. -/
theorem Config.cellsPerWord_dvd_cellsPerSlot (c : Config) : c.cellsPerWord ∣ c.cellsPerSlot := by
  unfold Config.cellsPerWord Config.cellsPerSlot
  rcases c.bits_cases with h | h <;> rcases c.cellsPerBit_cases with k | k <;> simp [h, k]

/-- payloadBytes = capSlots * K * W (rule R75). -/
theorem Config.payloadSize_eq (c : Config) (cap : Nat) : c.payloadSize cap = cap * c.cellsPerBit * c.bits := by
  unfold Config.payloadSize Config.cellsPerSlot
  rw [← c.eight_mul_cellBytes]; ring

theorem Config.payloadSize_mono (c : Config) {a b : Nat} (h : a ≤ b) : c.payloadSize a ≤ c.payloadSize b :=
  Nat.mul_le_mul_right _ (Nat.mul_le_mul_right _ h)

theorem Config.payloadSize_le_regionSize (c : Config) (cap : Nat) : c.payloadSize cap ≤ c.regionSize cap := Nat.le_add_left ..

theorem Config.descriptorCount_mono (c : Config) {a b : Nat} (h : a ≤ b) : c.descriptorCount a ≤ c.descriptorCount b := by
  have := c.payloadSize_mono h
  exact max_le_max (Nat.le_refl 1) (Nat.div_le_div_right (by omega))

theorem Config.regionSize_mono (c : Config) {a b : Nat} (h : a ≤ b) : c.regionSize a ≤ c.regionSize b :=
  Nat.add_le_add (Nat.mul_le_mul_right _ (c.descriptorCount_mono h)) (c.payloadSize_mono h)

theorem Config.descriptorCount_pos (c : Config) (cap : Nat) : 0 < c.descriptorCount cap := by
  unfold Config.descriptorCount; omega

/-- The sizes of an admitted instance fit their registers (rules R9, R30, R75). -/
theorem Config.Admitted.regionSize_lt {c : Config} (h : c.Admitted) {cap : Nat} (hc : cap ≤ 65535) : c.regionSize cap < 2 ^ 32 :=
  Nat.lt_of_le_of_lt (c.regionSize_mono hc) h.2.2.2.2

theorem Config.payloadSize_lt (c : Config) {cap : Nat} (hc : cap ≤ 65535) : c.payloadSize cap < 2 ^ 23 := by
  rw [Config.payloadSize_eq]
  rcases c.bits_cases with h | h <;> rcases c.cellsPerBit_cases with k | k <;> rw [h, k] <;> omega

theorem Config.descriptorCount_lt {c : Config} (h : c.Admitted) {cap : Nat} (hc : cap ≤ 65535) : c.descriptorCount cap < 2 ^ 32 := by
  have h1 := c.payloadSize_lt hc
  have h2 : 4 ≤ c.mtu := h.2.2.1
  have h3 : (c.payloadSize cap + c.mtu - 1) / c.mtu ≤ c.payloadSize cap + 1 := by
    have : c.payloadSize cap ≤ c.mtu * c.payloadSize cap := Nat.le_mul_of_pos_left _ (by omega)
    apply Nat.div_le_of_le_mul
    rw [Nat.mul_add, Nat.mul_one]
    omega
  unfold Config.descriptorCount
  omega

/-! ### sigma (rule R63) -/

theorem Config.Admitted.length {c : Config} (h : c.Admitted) : c.cellOrder.length = c.cellsPerWord := by
  rw [h.1.length_eq, List.length_range]

theorem Config.Admitted.sigma_lt {c : Config} (h : c.Admitted) {j : Nat} (hj : j < c.cellsPerWord) : c.sigma j < c.cellsPerWord := by
  have hlen := h.length
  unfold Config.sigma
  rw [List.getD_eq_getElem _ _ (by omega)]
  exact List.mem_range.1 (h.1.mem_iff.1 (List.getElem_mem _))

theorem Config.Admitted.sigma_inj {c : Config} (h : c.Admitted) {i j : Nat} (hi : i < c.cellsPerWord) (hj : j < c.cellsPerWord)
    (he : c.sigma i = c.sigma j) : i = j := by
  have hlen := h.length
  have hnd : c.cellOrder.Nodup := h.1.nodup_iff.2 List.nodup_range
  unfold Config.sigma at he
  rw [List.getD_eq_getElem _ _ (by omega), List.getD_eq_getElem _ _ (by omega)] at he
  exact (List.Nodup.getElem_inj_iff hnd).1 he

namespace Machine

/-! ### Where a cell lies -/

/-- A cell lies inside its storage word. -/
theorem cellOffset_bounds {c : Config} (h : c.Admitted) (po t : Nat) :
    po + 4 * (t / c.cellsPerWord) ≤ cellOffset c po t ∧
      cellOffset c po t + c.cellBytes ≤ po + 4 * (t / c.cellsPerWord) + 4 := by
  have hs := h.sigma_lt (Nat.mod_lt t c.cellsPerWord_pos)
  have h4 := c.cellBytes_mul_cellsPerWord
  have : c.cellBytes * (c.sigma (t % c.cellsPerWord) + 1) ≤ c.cellBytes * c.cellsPerWord := Nat.mul_le_mul_left _ hs
  rw [Nat.mul_add, Nat.mul_one] at this
  unfold cellOffset
  omega

/-- Different cells share no byte. -/
theorem cellOffset_disjoint {c : Config} (h : c.Admitted) (po : Nat) {t u : Nat} (htu : t ≠ u) :
    cellOffset c po t + c.cellBytes ≤ cellOffset c po u ∨ cellOffset c po u + c.cellBytes ≤ cellOffset c po t := by
  have hG := c.cellsPerWord_pos
  by_cases hq : t / c.cellsPerWord = u / c.cellsPerWord
  · have hr : t % c.cellsPerWord ≠ u % c.cellsPerWord := fun hr => htu (by
      rw [← Nat.div_add_mod t c.cellsPerWord, ← Nat.div_add_mod u c.cellsPerWord, hq, hr])
    have hs : c.sigma (t % c.cellsPerWord) ≠ c.sigma (u % c.cellsPerWord) := fun he =>
      hr (h.sigma_inj (Nat.mod_lt _ hG) (Nat.mod_lt _ hG) he)
    unfold cellOffset
    rw [hq]
    rcases Nat.lt_or_gt_of_ne hs with hlt | hgt
    · left
      have : c.cellBytes * (c.sigma (t % c.cellsPerWord) + 1) ≤ c.cellBytes * c.sigma (u % c.cellsPerWord) :=
        Nat.mul_le_mul_left _ hlt
      rw [Nat.mul_add, Nat.mul_one] at this
      omega
    · right
      have : c.cellBytes * (c.sigma (u % c.cellsPerWord) + 1) ≤ c.cellBytes * c.sigma (t % c.cellsPerWord) :=
        Nat.mul_le_mul_left _ hgt
      rw [Nat.mul_add, Nat.mul_one] at this
      omega
  · have ht := cellOffset_bounds h po t
    have hu := cellOffset_bounds h po u
    rcases Nat.lt_or_gt_of_ne hq with hlt | hgt
    · left; omega
    · right; omega

/-- The cells of the byte slots below `cap` lie in the payload of `cap` slots (rules R61, R62). -/
theorem cellOffset_in_payload {c : Config} (h : c.Admitted) (po : Nat) {t cap : Nat} (ht : t < cap * c.cellsPerSlot) :
    po ≤ cellOffset c po t ∧ cellOffset c po t + c.cellBytes ≤ po + c.payloadSize cap := by
  have hb := cellOffset_bounds h po t
  obtain ⟨w, hw⟩ := c.cellsPerWord_dvd_cellsPerSlot
  have h4 := c.cellBytes_mul_cellsPerWord
  have hsize : c.payloadSize cap = 4 * (cap * w) := by
    unfold Config.payloadSize
    rw [hw, ← h4]; ring
  have hq : t / c.cellsPerWord < cap * w := by
    rw [Nat.div_lt_iff_lt_mul c.cellsPerWord_pos]
    calc t < cap * c.cellsPerSlot := ht
      _ = cap * w * c.cellsPerWord := by rw [hw]; ring
  omega

/-! ### One cell -/

/-- A cell depends on its bytes alone. -/
theorem cellRead_congr {c : Config} {po : Nat} {m n : Memory} {t : Nat}
    (h : ∀ a, cellOffset c po t ≤ a → a < cellOffset c po t + c.cellBytes → Memory.read m a = Memory.read n a) :
    cellRead c po m t = cellRead c po n t := by
  unfold cellRead; rw [memRead_congr h]

/-- A cell has W bits (rule R62). -/
theorem cellRead_lt (c : Config) (po : Nat) (m : Memory) (t : Nat) : (cellRead c po m t).toNat < 2 ^ c.bits := by
  have := memRead_lt m (cellOffset c po t) c.cellBytes
  rw [c.pow_cellBytes] at this
  unfold cellRead
  rw [BitVec.toNat_ofNat]
  exact Nat.lt_of_le_of_lt (Nat.mod_le ..) this

theorem wf_cellWrite {m : Memory} (hm : Memory.wf m) (c : Config) (po t : Nat) (v : LineCell) : Memory.wf (cellWrite c po m t v) :=
  wf_memWrite hm ..

theorem cellRead_cellWrite_self {m : Memory} (hm : Memory.wf m) (c : Config) (po t : Nat) {v : LineCell}
    (hv : v.toNat < 2 ^ c.bits) : cellRead c po (cellWrite c po m t v) t = v := by
  unfold cellRead cellWrite
  rw [memRead_memWrite hm, c.pow_cellBytes, Nat.mod_eq_of_lt hv]
  simp

theorem cellRead_cellWrite_of_ne {c : Config} (h : c.Admitted) (po : Nat) (m : Memory) {t u : Nat} (htu : u ≠ t) (v : LineCell) :
    cellRead c po (cellWrite c po m t v) u = cellRead c po m u :=
  cellRead_congr fun a h1 h2 => read_memWrite_outside (by
    rcases cellOffset_disjoint h po htu with hd | hd <;> omega)

/-! ### OR-ing one lane's bits -/

theorem laneBit_lt {lane w : Nat} (h : lane < w) : (laneBit lane).toNat < 2 ^ w :=
  fits_of_getLsbD fun j hj => by
    rw [getLsbD_laneBit]
    have : j ≠ lane := by omega
    simp [this]

theorem orCell_read_outside {c : Config} {po lane t x : Nat} {m : Memory} {b : Bool}
    (h : x < cellOffset c po t ∨ cellOffset c po t + c.cellBytes ≤ x) :
    Memory.read (orCell c po lane m t b) x = Memory.read m x := read_memWrite_outside h

theorem wf_orCell {m : Memory} (hm : Memory.wf m) (c : Config) (po lane t : Nat) (b : Bool) : Memory.wf (orCell c po lane m t b) :=
  wf_cellWrite hm ..

/-- The cell that is OR-ed, bit by bit (rule R124). -/
theorem getLsbD_orCell_self {c : Config} (po : Nat) {m : Memory} (hm : Memory.wf m) {lane : Nat}
    (hl : lane < c.bits) (t : Nat) (b : Bool) (i : Nat) :
    (cellRead c po (orCell c po lane m t b) t).getLsbD i =
      ((cellRead c po m t).getLsbD i || (decide (i = lane) && b)) := by
  have hw := c.bits_le
  unfold orCell
  rw [cellRead_cellWrite_self hm]
  · rw [BitVec.getLsbD_or]
    cases b
    · simp
    · simp only [if_true, getLsbD_laneBit, Bool.and_true]
      by_cases he : i = lane
      · simp [he, show lane < 16 by omega]
      · simp [he]
  · rw [BitVec.toNat_or]
    refine Nat.or_lt_two_pow (cellRead_lt ..) ?_
    cases b
    · simp
    · simpa using laneBit_lt hl

theorem orCells_read_outside {c : Config} {po lane t x : Nat} {m : Memory} {bs : List Bool}
    (h : ∀ n, t ≤ n → n < t + bs.length → x < cellOffset c po n ∨ cellOffset c po n + c.cellBytes ≤ x) :
    Memory.read (orCells c po lane m t bs) x = Memory.read m x := by
  induction bs generalizing m t with
  | nil => rfl
  | cons b bs ih =>
    rw [orCells, ih fun n h1 h2 => h n (by omega) (by simp only [List.length_cons]; omega),
      orCell_read_outside (h t (by omega) (by simp))]

theorem wf_orCells {m : Memory} (hm : Memory.wf m) (c : Config) (po lane t : Nat) (bs : List Bool) :
    Memory.wf (orCells c po lane m t bs) := by
  induction bs generalizing m t with
  | nil => exact hm
  | cons b bs ih => exact ih (wf_orCell hm ..) _

/-- Every entry is an old one or lies in a cell that was OR-ed. -/
theorem mem_orCells {c : Config} {po lane t : Nat} {m : Memory} {bs : List Bool} {e : Host.Cell}
    (h : e ∈ orCells c po lane m t bs) :
    e ∈ m ∨ ∃ n, t ≤ n ∧ n < t + bs.length ∧ cellOffset c po n ≤ e.1 ∧ e.1 < cellOffset c po n + c.cellBytes := by
  induction bs generalizing m t with
  | nil => exact .inl h
  | cons b bs ih =>
    rcases ih h with h | ⟨n, h1, h2, h3⟩
    · rcases mem_memWrite h with h | h
      · exact .inl h
      · exact .inr ⟨t, by omega, by simp, h⟩
    · exact .inr ⟨n, by omega, by simp only [List.length_cons]; omega, h3⟩

/-- Every bit of every cell after one lane's bits were OR-ed into consecutive cells (rules R124, R126). -/
theorem getLsbD_orCells {c : Config} (h : c.Admitted) (po : Nat) {m : Memory} (hm : Memory.wf m) {lane : Nat}
    (hl : lane < c.bits) (t : Nat) (bs : List Bool) (n i : Nat) :
    (cellRead c po (orCells c po lane m t bs) n).getLsbD i =
      ((cellRead c po m n).getLsbD i || (decide (i = lane) && decide (t ≤ n) && bs.getD (n - t) false)) := by
  induction bs generalizing m t with
  | nil => simp [orCells]
  | cons b bs ih =>
    rw [orCells, ih (wf_orCell hm ..)]
    rcases Nat.lt_trichotomy n t with hn | rfl | hn
    · rw [show cellRead c po (orCell c po lane m t b) n = cellRead c po m n from cellRead_cellWrite_of_ne h po m (by omega) _]
      simp [show ¬ t ≤ n by omega, show ¬ t + 1 ≤ n by omega]
    · rw [getLsbD_orCell_self po hm hl]
      simp
    · rw [show cellRead c po (orCell c po lane m t b) n = cellRead c po m n from cellRead_cellWrite_of_ne h po m (by omega) _]
      obtain ⟨k, rfl⟩ : ∃ k, n = t + 1 + k := ⟨n - (t + 1), by omega⟩
      simp [show t + 1 + k - t = k + 1 by omega, show t ≤ t + 1 + k by omega]

/-- OR-ing two runs of bits one after the other is OR-ing the whole run (rule R223). -/
theorem orCells_append (c : Config) (po lane : Nat) (m : Memory) (t : Nat) (as bs : List Bool) :
    orCells c po lane m t (as ++ bs) = orCells c po lane (orCells c po lane m t as) (t + as.length) bs := by
  induction as generalizing m t with
  | nil => rfl
  | cons a as ih => simp only [List.cons_append, orCells, ih, List.length_cons]; congr 1; omega

/-- OR-ing into cells commutes, whatever the cells, the lanes and the bits are. -/
theorem orCell_comm {c : Config} (h : c.Admitted) (po : Nat) {m : Memory} (hm : Memory.wf m) {l k : Nat} (hl : l < c.bits)
    (hk : k < c.bits) (t u : Nat) (a b : Bool) :
    orCell c po k (orCell c po l m t a) u b = orCell c po l (orCell c po k m u b) t a := by
  have hbit : ∀ (i : Nat) (x : Bool), i < c.bits → (if x then laneBit i else (0#16 : LaneMask)).toNat < 2 ^ c.bits := fun i x hi => by
    cases x
    · simp
    · simpa using laneBit_lt hi
  have hor : ∀ (v : LineCell) (i : Nat) (x : Bool), v.toNat < 2 ^ c.bits → i < c.bits →
      (v ||| (if x then laneBit i else 0#16)).toNat < 2 ^ c.bits := fun v i x hv hi => by
    rw [BitVec.toNat_or]; exact Nat.or_lt_two_pow hv (hbit i x hi)
  have hr := cellRead_lt c po m
  by_cases htu : t = u
  · subst htu
    unfold orCell
    rw [cellRead_cellWrite_self hm c po t (hor _ _ _ (hr t) hl), cellRead_cellWrite_self hm c po t (hor _ _ _ (hr t) hk)]
    unfold cellWrite
    rw [memWrite_memWrite_self hm, memWrite_memWrite_self hm]
    congr 2
    rw [BitVec.or_assoc, BitVec.or_assoc, BitVec.or_comm (if a then laneBit l else 0#16)]
  · unfold orCell
    rw [cellRead_cellWrite_of_ne h po m (Ne.symm htu), cellRead_cellWrite_of_ne h po m htu]
    unfold cellWrite
    exact memWrite_comm hm (cellOffset_disjoint h po htu)

theorem orCells_orCell_comm {c : Config} (h : c.Admitted) (po : Nat) {m : Memory} (hm : Memory.wf m) {l k : Nat} (hl : l < c.bits)
    (hk : k < c.bits) (t u : Nat) (as : List Bool) (b : Bool) :
    orCell c po k (orCells c po l m t as) u b = orCells c po l (orCell c po k m u b) t as := by
  induction as generalizing m t with
  | nil => rfl
  | cons a as ih => rw [orCells, orCells, ih (wf_orCell hm ..), orCell_comm h po hm hl hk]

theorem orCells_comm {c : Config} (h : c.Admitted) (po : Nat) {m : Memory} (hm : Memory.wf m) {l k : Nat} (hl : l < c.bits)
    (hk : k < c.bits) (t u : Nat) (as bs : List Bool) :
    orCells c po k (orCells c po l m t as) u bs = orCells c po l (orCells c po k m u bs) t as := by
  induction bs generalizing m u with
  | nil => rfl
  | cons b bs ih => rw [orCells, orCells, orCells_orCell_comm h po hm hl hk, ih (wf_orCell hm ..)]

/-! ### ENC -/

theorem pattern_length (k : CellsPerBit) (b : Bool) : (pattern k b).length = (match k with | .k3 => 3 | .k4 => 4) := by
  cases k <;> cases b <;> rfl

theorem pattern_length_config (c : Config) (b : Bool) : (pattern c.cells b).length = c.cellsPerBit := by
  rw [pattern_length]; rfl

theorem encodeByte_length (c : Config) (b : Byte) : (encodeByte c.cells b).length = c.cellsPerSlot := by
  simp only [encodeByte, byteBits, List.flatMap_cons, List.flatMap_nil, List.length_append, pattern_length_config, List.length_nil,
    Config.cellsPerSlot]
  omega

theorem encodeBytes_length (c : Config) (data : List Byte) :
    (encodeBytes c.cells data).length = data.length * c.cellsPerSlot := by
  induction data with
  | nil => simp [encodeBytes]
  | cons b bs ih =>
    simp only [encodeBytes, List.flatMap_cons, List.length_append, List.length_cons] at ih ⊢
    rw [encodeByte_length, ih]; ring

theorem encodeBytes_append (k : CellsPerBit) (as bs : List Byte) :
    encodeBytes k (as ++ bs) = encodeBytes k as ++ encodeBytes k bs := by
  simp [encodeBytes]

/-- Cell `p * K + k` of a list of K-cell groups is cell `k` of group `p`. -/
theorem getD_flatMap_uniform {α : Type} (f : α → List Bool) {len : Nat} (hf : ∀ a, (f a).length = len) (l : List α) (p k : Nat)
    (hp : p < l.length) (hk : k < len) : (l.flatMap f).getD (p * len + k) false = (f l[p]).getD k false := by
  induction l generalizing p with
  | nil => simp at hp
  | cons a l ih =>
    cases p with
    | zero =>
      rw [List.flatMap_cons, List.getD_append _ _ _ _ (by rw [hf]; omega)]
      simp
    | succ p =>
      rw [List.flatMap_cons, List.getD_append_right _ _ _ _ (by rw [hf]; nlinarith), hf]
      rw [show (p + 1) * len + k - len = p * len + k by rw [Nat.succ_mul]; omega]
      rw [ih p (by simpa using hp)]
      rfl

/-- The pattern levels of rule R120: the first cell is high, and every cell but the last of a 1-bit is. -/
theorem getD_pattern (c : Config) (b : Bool) {k : Nat} (hk : k < c.cellsPerBit) :
    (pattern c.cells b).getD k false = (k == 0 || (b && decide (k + 1 < c.cellsPerBit))) := by
  unfold Config.cellsPerBit at *
  cases hc : c.cells <;> rw [hc] at hk <;> simp only at hk ⊢ <;> cases b <;> interval_cases k <;> rfl

theorem byteBits_length (b : Byte) : (byteBits b).length = 8 := rfl

theorem byteBits_getElem (b : Byte) {p : Nat} (hp : p < 8) : (byteBits b)[p]'(by rw [byteBits_length]; exact hp) = b.getLsbD (7 - p) := by
  interval_cases p <;> rfl

/-- ENC(b)[p * K + k] = P_{b[7 - p]}[k] (rule R122). -/
theorem getD_encodeByte (c : Config) (b : Byte) {p k : Nat} (hp : p < 8) (hk : k < c.cellsPerBit) :
    (encodeByte c.cells b).getD (p * c.cellsPerBit + k) false = (pattern c.cells (b.getLsbD (7 - p))).getD k false := by
  unfold encodeByte
  rw [getD_flatMap_uniform _ (pattern_length_config c) _ p k (by rw [byteBits_length]; exact hp) hk, byteBits_getElem b hp]

/-- The cells of byte `j` among the cells of consecutive bytes (rules R62, R124). -/
theorem getD_encodeBytes (c : Config) (data : List Byte) {j n : Nat} (hj : j < data.length) (hn : n < c.cellsPerSlot) :
    (encodeBytes c.cells data).getD (j * c.cellsPerSlot + n) false = (encodeByte c.cells data[j]).getD n false :=
  getD_flatMap_uniform _ (encodeByte_length c) data j n hj hn

/-- Past the last byte there is no cell. -/
theorem getD_encodeBytes_past (c : Config) (data : List Byte) {n : Nat} (hn : data.length * c.cellsPerSlot ≤ n) :
    (encodeBytes c.cells data).getD n false = false := by
  rw [List.getD_eq_default]
  rw [encodeBytes_length]; exact hn

/-! ### DEC (rule R125) -/

/-- A K-cell pattern is recognised exactly as the bit it stands for. -/
theorem patternBit_eq_some (c : Config) (f : Nat → Bool) (b : Bool) :
    patternBit c.cells ((List.range c.cellsPerBit).map f) = some b ↔
      ∀ k < c.cellsPerBit, f k = (pattern c.cells b).getD k false := by
  unfold Config.cellsPerBit
  cases hc : c.cells
  · simp only [Nat.forall_lt_succ_right, Nat.not_lt_zero, false_implies, implies_true, true_and, List.range_succ, List.range_zero,
      List.nil_append, List.cons_append, List.map_cons, List.map_nil]
    cases f 0 <;> cases f 1 <;> cases f 2 <;> cases b <;> decide
  · simp only [Nat.forall_lt_succ_right, Nat.not_lt_zero, false_implies, implies_true, true_and, List.range_succ, List.range_zero,
      List.nil_append, List.cons_append, List.map_cons, List.map_nil]
    cases f 0 <;> cases f 1 <;> cases f 2 <;> cases f 3 <;> cases b <;> decide

theorem bitsByte_byteBits (b : Byte) : bitsByte (byteBits b) = b := by
  revert b; decide

theorem byteBits_bitsByte (b0 b1 b2 b3 b4 b5 b6 b7 : Bool) :
    byteBits (bitsByte [b7, b6, b5, b4, b3, b2, b1, b0]) = [b7, b6, b5, b4, b3, b2, b1, b0] := by
  revert b0 b1 b2 b3 b4 b5 b6 b7; decide

/-- A byte is read from eight bits exactly when they are its bits. -/
theorem mapM_bits_eq_some (f : Nat → Option Bool) (b : Byte) :
    ((List.range 8).mapM f).map bitsByte = some b ↔ ∀ p < 8, f p = some (b.getLsbD (7 - p)) := by
  constructor
  · intro h
    simp only [List.range_succ, List.range_zero, List.nil_append, List.cons_append, List.mapM_cons, List.mapM_nil] at h
    cases h0 : f 0 <;> cases h1 : f 1 <;> cases h2 : f 2 <;> cases h3 : f 3 <;> cases h4 : f 4 <;> cases h5 : f 5 <;>
      cases h6 : f 6 <;> cases h7 : f 7 <;> simp [h0, h1, h2, h3, h4, h5, h6, h7] at h
    have hb := congrArg byteBits h
    rw [byteBits_bitsByte] at hb
    simp only [byteBits, List.cons.injEq, and_true] at hb
    obtain ⟨e7, e6, e5, e4, e3, e2, e1, e0⟩ := hb
    intro p hp
    interval_cases p
    · rw [h0, e7]
    · rw [h1, e6]
    · rw [h2, e5]
    · rw [h3, e4]
    · rw [h4, e3]
    · rw [h5, e2]
    · rw [h6, e1]
    · rw [h7, e0]
  · intro h
    have : (List.range 8).mapM f = some (byteBits b) := by
      simp [List.range_succ, h 0, h 1, h 2, h 3, h 4, h 5, h 6, h 7, byteBits]
    rw [this, Option.map_some, bitsByte_byteBits]

/-- DEC finds the byte `b` exactly when the lane's bits of the slot are ENC(b) (rules R122, R125). -/
theorem decodeSlot_eq_some {s : State} {lane slot : Nat} {b : Byte} :
    s.decodeSlot lane slot = some b ↔ ∀ p < 8, ∀ k < s.cfg.cellsPerBit,
      (s.cell (slot * s.cfg.cellsPerSlot + p * s.cfg.cellsPerBit + k)).getLsbD lane =
        (pattern s.cfg.cells (b.getLsbD (7 - p))).getD k false := by
  unfold State.decodeSlot
  rw [mapM_bits_eq_some]
  exact forall₂_congr fun p _ => patternBit_eq_some s.cfg _ _

/-! ### ENCODE's effect on the payload -/

theorem wf_encodePayload {m : Memory} (hm : Memory.wf m) (c : Config) (po lane h : Nat) (data : List Byte) :
    Memory.wf (encodePayload c po lane h data m) := wf_orCells hm ..

/-- A byte in no cell of the slots `[h, h + COUNT)` stays (rule R126). -/
theorem encodePayload_read_outside {c : Config} {po lane h x : Nat} {data : List Byte} {m : Memory}
    (hx : ∀ n, h * c.cellsPerSlot ≤ n → n < (h + data.length) * c.cellsPerSlot →
      x < cellOffset c po n ∨ cellOffset c po n + c.cellBytes ≤ x) :
    Memory.read (encodePayload c po lane h data m) x = Memory.read m x :=
  orCells_read_outside fun n h1 h2 => hx n h1 (by
    rw [encodeBytes_length, Config.slotStart] at h2; rw [Nat.add_mul]; exact h2)

/-- Every bit of every cell after ENCODE's loops (rules R124, R126). -/
theorem getLsbD_encodePayload {c : Config} (hc : c.Admitted) (po : Nat) {m : Memory} (hm : Memory.wf m) {lane : Nat}
    (hl : lane < c.bits) (h : Nat) (data : List Byte) (n i : Nat) :
    (cellRead c po (encodePayload c po lane h data m) n).getLsbD i =
      ((cellRead c po m n).getLsbD i || (decide (i = lane) && decide (h * c.cellsPerSlot ≤ n) &&
        (encodeBytes c.cells data).getD (n - h * c.cellsPerSlot) false)) :=
  getLsbD_orCells hc po hm hl ..

/-- The lane's bit of cell `(h + j) * CPS + p * K + k` after ENCODE's loops (rule R124). -/
theorem getLsbD_encodePayload_lane {c : Config} (hc : c.Admitted) (po : Nat) {m : Memory} (hm : Memory.wf m) {lane : Nat}
    (hl : lane < c.bits) (h : Nat) (data : List Byte) {j p k : Nat} (hj : j < data.length) (hp : p < 8) (hk : k < c.cellsPerBit) :
    (cellRead c po (encodePayload c po lane h data m) ((h + j) * c.cellsPerSlot + p * c.cellsPerBit + k)).getLsbD lane =
      ((cellRead c po m ((h + j) * c.cellsPerSlot + p * c.cellsPerBit + k)).getLsbD lane ||
        (pattern c.cells (data[j].getLsbD (7 - p))).getD k false) := by
  rw [getLsbD_encodePayload hc po hm hl]
  congr 1
  have hn : p * c.cellsPerBit + k < c.cellsPerSlot := by
    simp only [Config.cellsPerSlot]; nlinarith
  rw [show (h + j) * c.cellsPerSlot + p * c.cellsPerBit + k - h * c.cellsPerSlot =
      j * c.cellsPerSlot + (p * c.cellsPerBit + k) by rw [Nat.add_mul]; omega,
    getD_encodeBytes c data hj hn, getD_encodeByte c _ hp hk]
  simp [show h * c.cellsPerSlot ≤ (h + j) * c.cellsPerSlot + p * c.cellsPerBit + k by rw [Nat.add_mul]; omega]

/-- The effects of ENCODEs commute (rule R126). -/
theorem encodePayload_comm {c : Config} (hc : c.Admitted) (po : Nat) {m : Memory} (hm : Memory.wf m) {l k : Nat} (hl : l < c.bits)
    (hk : k < c.bits) (h g : Nat) (as bs : List Byte) :
    encodePayload c po k g bs (encodePayload c po l h as m) = encodePayload c po l h as (encodePayload c po k g bs m) :=
  orCells_comm hc po hm hl hk ..

/-- Chained ENCODEs are one (rules R94, R223). -/
theorem encodePayload_append (c : Config) (po lane h : Nat) (as bs : List Byte) (m : Memory) :
    encodePayload c po lane h (as ++ bs) m = encodePayload c po lane (h + as.length) bs (encodePayload c po lane h as m) := by
  unfold encodePayload
  rw [encodeBytes_append, orCells_append, encodeBytes_length]
  simp only [Config.slotStart, Nat.add_mul]

end Machine
end Sys2Proof
end

