-- ==== Sys2Proof/Laws/State.lean ====
section
/-! SUPPORT. What each named update of the state leaves in each field: one lemma a field, so that no later proof unfolds an update. -/

namespace Sys2Proof.Machine

variable (s : State)

/-! ### respond -/

@[simp] theorem respond_cfg (v : Word) : (respond v s).cfg = s.cfg := rfl
@[simp] theorem respond_activeMask (v : Word) : (respond v s).activeMask = s.activeMask := rfl
@[simp] theorem respond_completeMask (v : Word) : (respond v s).completeMask = s.completeMask := rfl
@[simp] theorem respond_laneCount (v : Word) : (respond v s).laneCount = s.laneCount := rfl
@[simp] theorem respond_maxLaneDataSize (v : Word) : (respond v s).maxLaneDataSize = s.maxLaneDataSize := rfl
@[simp] theorem respond_bufState (v : Word) : (respond v s).bufState = s.bufState := rfl
@[simp] theorem respond_capSlots (v : Word) : (respond v s).capSlots = s.capSlots := rfl
@[simp] theorem respond_payloadBytes (v : Word) : (respond v s).payloadBytes = s.payloadBytes := rfl
@[simp] theorem respond_descCount (v : Word) : (respond v s).descCount = s.descCount := rfl
@[simp] theorem respond_bufSize (v : Word) : (respond v s).bufSize = s.bufSize := rfl
@[simp] theorem respond_bufBase (v : Word) : (respond v s).bufBase = s.bufBase := rfl
@[simp] theorem respond_mem (v : Word) : (respond v s).mem = s.mem := rfl
@[simp] theorem respond_descs (v : Word) : (respond v s).descs = s.descs := rfl
@[simp] theorem respond_xferBusy (v : Word) : (respond v s).xferBusy = s.xferBusy := rfl
@[simp] theorem respond_xferPos (v : Word) : (respond v s).xferPos = s.xferPos := rfl
@[simp] theorem respond_lines (v : Word) : (respond v s).lines = s.lines := rfl
@[simp] theorem respond_fault (v : Word) : (respond v s).fault = s.fault := rfl
@[simp] theorem respond_faultInfo (v : Word) : (respond v s).faultInfo = s.faultInfo := rfl
@[simp] theorem respond_diag (v : Word) : (respond v s).diag = s.diag := rfl
@[simp] theorem respond_cmdBuf (v : Word) : (respond v s).cmdBuf = [] := rfl
@[simp] theorem respond_port (v : Word) : (respond v s).port = s.port := rfl
@[simp] theorem respond_responses (v : Word) : (respond v s).responses = s.responses ++ [v] := rfl
@[simp] theorem respond_host (v : Word) : (respond v s).host = s.host := rfl
@[simp] theorem respond_received (v : Word) : (respond v s).received = s.received := rfl
@[simp] theorem respond_alloc (v : Word) : (respond v s).alloc = s.alloc := rfl
@[simp] theorem respond_sched (v : Word) : (respond v s).sched = s.sched := rfl
@[simp] theorem respond_frame (v : Word) : (respond v s).frame = s.frame := rfl
@[simp] theorem respond_sent (v : Word) : (respond v s).sent = s.sent := rfl

/-! ### raiseFault -/

@[simp] theorem raiseFault_cfg (c : FaultCode) (w : Word) : (raiseFault c w s).cfg = s.cfg := rfl
@[simp] theorem raiseFault_activeMask (c : FaultCode) (w : Word) : (raiseFault c w s).activeMask = s.activeMask := rfl
@[simp] theorem raiseFault_completeMask (c : FaultCode) (w : Word) : (raiseFault c w s).completeMask = s.completeMask := rfl
@[simp] theorem raiseFault_laneCount (c : FaultCode) (w : Word) : (raiseFault c w s).laneCount = s.laneCount := rfl
@[simp] theorem raiseFault_maxLaneDataSize (c : FaultCode) (w : Word) : (raiseFault c w s).maxLaneDataSize = s.maxLaneDataSize := rfl
@[simp] theorem raiseFault_bufState (c : FaultCode) (w : Word) : (raiseFault c w s).bufState = s.bufState := rfl
@[simp] theorem raiseFault_capSlots (c : FaultCode) (w : Word) : (raiseFault c w s).capSlots = s.capSlots := rfl
@[simp] theorem raiseFault_payloadBytes (c : FaultCode) (w : Word) : (raiseFault c w s).payloadBytes = s.payloadBytes := rfl
@[simp] theorem raiseFault_descCount (c : FaultCode) (w : Word) : (raiseFault c w s).descCount = s.descCount := rfl
@[simp] theorem raiseFault_bufSize (c : FaultCode) (w : Word) : (raiseFault c w s).bufSize = s.bufSize := rfl
@[simp] theorem raiseFault_bufBase (c : FaultCode) (w : Word) : (raiseFault c w s).bufBase = s.bufBase := rfl
@[simp] theorem raiseFault_mem (c : FaultCode) (w : Word) : (raiseFault c w s).mem = s.mem := rfl
@[simp] theorem raiseFault_descs (c : FaultCode) (w : Word) : (raiseFault c w s).descs = s.descs := rfl
@[simp] theorem raiseFault_xferBusy (c : FaultCode) (w : Word) : (raiseFault c w s).xferBusy = s.xferBusy := rfl
@[simp] theorem raiseFault_xferPos (c : FaultCode) (w : Word) : (raiseFault c w s).xferPos = s.xferPos := rfl
@[simp] theorem raiseFault_lines (c : FaultCode) (w : Word) : (raiseFault c w s).lines = s.lines := rfl
@[simp] theorem raiseFault_fault (c : FaultCode) (w : Word) : (raiseFault c w s).fault = setBit s.fault c.number := rfl
@[simp] theorem raiseFault_faultInfo (c : FaultCode) (w : Word) : (raiseFault c w s).faultInfo = if s.fault = 0#32 then w else s.faultInfo := rfl
@[simp] theorem raiseFault_diag (c : FaultCode) (w : Word) : (raiseFault c w s).diag = s.diag := rfl
@[simp] theorem raiseFault_cmdBuf (c : FaultCode) (w : Word) : (raiseFault c w s).cmdBuf = [] := rfl
@[simp] theorem raiseFault_port (c : FaultCode) (w : Word) : (raiseFault c w s).port = s.port := rfl
@[simp] theorem raiseFault_responses (c : FaultCode) (w : Word) : (raiseFault c w s).responses = s.responses ++ [errResp] := rfl
@[simp] theorem raiseFault_host (c : FaultCode) (w : Word) : (raiseFault c w s).host = s.host := rfl
@[simp] theorem raiseFault_received (c : FaultCode) (w : Word) : (raiseFault c w s).received = s.received := rfl
@[simp] theorem raiseFault_alloc (c : FaultCode) (w : Word) : (raiseFault c w s).alloc = s.alloc := rfl
@[simp] theorem raiseFault_sched (c : FaultCode) (w : Word) : (raiseFault c w s).sched = s.sched := rfl
@[simp] theorem raiseFault_frame (c : FaultCode) (w : Word) : (raiseFault c w s).frame = s.frame := rfl
@[simp] theorem raiseFault_sent (c : FaultCode) (w : Word) : (raiseFault c w s).sent = s.sent := rfl

/-! ### recordFault -/

@[simp] theorem recordFault_cfg (c : FaultCode) (w : Word) : (recordFault c w s).cfg = s.cfg := rfl
@[simp] theorem recordFault_activeMask (c : FaultCode) (w : Word) : (recordFault c w s).activeMask = s.activeMask := rfl
@[simp] theorem recordFault_completeMask (c : FaultCode) (w : Word) : (recordFault c w s).completeMask = s.completeMask := rfl
@[simp] theorem recordFault_laneCount (c : FaultCode) (w : Word) : (recordFault c w s).laneCount = s.laneCount := rfl
@[simp] theorem recordFault_maxLaneDataSize (c : FaultCode) (w : Word) : (recordFault c w s).maxLaneDataSize = s.maxLaneDataSize := rfl
@[simp] theorem recordFault_bufState (c : FaultCode) (w : Word) : (recordFault c w s).bufState = s.bufState := rfl
@[simp] theorem recordFault_capSlots (c : FaultCode) (w : Word) : (recordFault c w s).capSlots = s.capSlots := rfl
@[simp] theorem recordFault_payloadBytes (c : FaultCode) (w : Word) : (recordFault c w s).payloadBytes = s.payloadBytes := rfl
@[simp] theorem recordFault_descCount (c : FaultCode) (w : Word) : (recordFault c w s).descCount = s.descCount := rfl
@[simp] theorem recordFault_bufSize (c : FaultCode) (w : Word) : (recordFault c w s).bufSize = s.bufSize := rfl
@[simp] theorem recordFault_bufBase (c : FaultCode) (w : Word) : (recordFault c w s).bufBase = s.bufBase := rfl
@[simp] theorem recordFault_mem (c : FaultCode) (w : Word) : (recordFault c w s).mem = s.mem := rfl
@[simp] theorem recordFault_descs (c : FaultCode) (w : Word) : (recordFault c w s).descs = s.descs := rfl
@[simp] theorem recordFault_xferBusy (c : FaultCode) (w : Word) : (recordFault c w s).xferBusy = s.xferBusy := rfl
@[simp] theorem recordFault_xferPos (c : FaultCode) (w : Word) : (recordFault c w s).xferPos = s.xferPos := rfl
@[simp] theorem recordFault_lines (c : FaultCode) (w : Word) : (recordFault c w s).lines = s.lines := rfl
@[simp] theorem recordFault_fault (c : FaultCode) (w : Word) : (recordFault c w s).fault = setBit s.fault c.number := rfl
@[simp] theorem recordFault_faultInfo (c : FaultCode) (w : Word) : (recordFault c w s).faultInfo = if s.fault = 0#32 then w else s.faultInfo := rfl
@[simp] theorem recordFault_diag (c : FaultCode) (w : Word) : (recordFault c w s).diag = s.diag := rfl
@[simp] theorem recordFault_cmdBuf (c : FaultCode) (w : Word) : (recordFault c w s).cmdBuf = s.cmdBuf := rfl
@[simp] theorem recordFault_port (c : FaultCode) (w : Word) : (recordFault c w s).port = s.port := rfl
@[simp] theorem recordFault_responses (c : FaultCode) (w : Word) : (recordFault c w s).responses = s.responses := rfl
@[simp] theorem recordFault_host (c : FaultCode) (w : Word) : (recordFault c w s).host = s.host := rfl
@[simp] theorem recordFault_received (c : FaultCode) (w : Word) : (recordFault c w s).received = s.received := rfl
@[simp] theorem recordFault_alloc (c : FaultCode) (w : Word) : (recordFault c w s).alloc = s.alloc := rfl
@[simp] theorem recordFault_sched (c : FaultCode) (w : Word) : (recordFault c w s).sched = s.sched := rfl
@[simp] theorem recordFault_frame (c : FaultCode) (w : Word) : (recordFault c w s).frame = s.frame := rfl
@[simp] theorem recordFault_sent (c : FaultCode) (w : Word) : (recordFault c w s).sent = s.sent := rfl

/-! ### logDiag -/

@[simp] theorem logDiag_cfg (d : DiagBit) : (logDiag d s).cfg = s.cfg := rfl
@[simp] theorem logDiag_activeMask (d : DiagBit) : (logDiag d s).activeMask = s.activeMask := rfl
@[simp] theorem logDiag_completeMask (d : DiagBit) : (logDiag d s).completeMask = s.completeMask := rfl
@[simp] theorem logDiag_laneCount (d : DiagBit) : (logDiag d s).laneCount = s.laneCount := rfl
@[simp] theorem logDiag_maxLaneDataSize (d : DiagBit) : (logDiag d s).maxLaneDataSize = s.maxLaneDataSize := rfl
@[simp] theorem logDiag_bufState (d : DiagBit) : (logDiag d s).bufState = s.bufState := rfl
@[simp] theorem logDiag_capSlots (d : DiagBit) : (logDiag d s).capSlots = s.capSlots := rfl
@[simp] theorem logDiag_payloadBytes (d : DiagBit) : (logDiag d s).payloadBytes = s.payloadBytes := rfl
@[simp] theorem logDiag_descCount (d : DiagBit) : (logDiag d s).descCount = s.descCount := rfl
@[simp] theorem logDiag_bufSize (d : DiagBit) : (logDiag d s).bufSize = s.bufSize := rfl
@[simp] theorem logDiag_bufBase (d : DiagBit) : (logDiag d s).bufBase = s.bufBase := rfl
@[simp] theorem logDiag_mem (d : DiagBit) : (logDiag d s).mem = s.mem := rfl
@[simp] theorem logDiag_descs (d : DiagBit) : (logDiag d s).descs = s.descs := rfl
@[simp] theorem logDiag_xferBusy (d : DiagBit) : (logDiag d s).xferBusy = s.xferBusy := rfl
@[simp] theorem logDiag_xferPos (d : DiagBit) : (logDiag d s).xferPos = s.xferPos := rfl
@[simp] theorem logDiag_lines (d : DiagBit) : (logDiag d s).lines = s.lines := rfl
@[simp] theorem logDiag_fault (d : DiagBit) : (logDiag d s).fault = s.fault := rfl
@[simp] theorem logDiag_faultInfo (d : DiagBit) : (logDiag d s).faultInfo = s.faultInfo := rfl
@[simp] theorem logDiag_diag (d : DiagBit) : (logDiag d s).diag = setBit s.diag d.number := rfl
@[simp] theorem logDiag_cmdBuf (d : DiagBit) : (logDiag d s).cmdBuf = s.cmdBuf := rfl
@[simp] theorem logDiag_port (d : DiagBit) : (logDiag d s).port = s.port := rfl
@[simp] theorem logDiag_responses (d : DiagBit) : (logDiag d s).responses = s.responses := rfl
@[simp] theorem logDiag_host (d : DiagBit) : (logDiag d s).host = s.host := rfl
@[simp] theorem logDiag_received (d : DiagBit) : (logDiag d s).received = s.received := rfl
@[simp] theorem logDiag_alloc (d : DiagBit) : (logDiag d s).alloc = s.alloc := rfl
@[simp] theorem logDiag_sched (d : DiagBit) : (logDiag d s).sched = s.sched := rfl
@[simp] theorem logDiag_frame (d : DiagBit) : (logDiag d s).frame = s.frame := rfl
@[simp] theorem logDiag_sent (d : DiagBit) : (logDiag d s).sent = s.sent := rfl

/-! ### zeroCells -/

@[simp] theorem zeroCells_cfg : (zeroCells s).cfg = s.cfg := rfl
@[simp] theorem zeroCells_activeMask : (zeroCells s).activeMask = s.activeMask := rfl
@[simp] theorem zeroCells_completeMask : (zeroCells s).completeMask = s.completeMask := rfl
@[simp] theorem zeroCells_laneCount : (zeroCells s).laneCount = s.laneCount := rfl
@[simp] theorem zeroCells_maxLaneDataSize : (zeroCells s).maxLaneDataSize = s.maxLaneDataSize := rfl
@[simp] theorem zeroCells_bufState : (zeroCells s).bufState = s.bufState := rfl
@[simp] theorem zeroCells_capSlots : (zeroCells s).capSlots = s.capSlots := rfl
@[simp] theorem zeroCells_payloadBytes : (zeroCells s).payloadBytes = s.payloadBytes := rfl
@[simp] theorem zeroCells_descCount : (zeroCells s).descCount = s.descCount := rfl
@[simp] theorem zeroCells_bufSize : (zeroCells s).bufSize = s.bufSize := rfl
@[simp] theorem zeroCells_bufBase : (zeroCells s).bufBase = s.bufBase := rfl
@[simp] theorem zeroCells_mem : (zeroCells s).mem = Memory.clear s.mem s.payloadOff s.payloadBytes.toNat := rfl
@[simp] theorem zeroCells_descs : (zeroCells s).descs = s.descs := rfl
@[simp] theorem zeroCells_xferBusy : (zeroCells s).xferBusy = s.xferBusy := rfl
@[simp] theorem zeroCells_xferPos : (zeroCells s).xferPos = s.xferPos := rfl
@[simp] theorem zeroCells_lines : (zeroCells s).lines = s.lines := rfl
@[simp] theorem zeroCells_fault : (zeroCells s).fault = s.fault := rfl
@[simp] theorem zeroCells_faultInfo : (zeroCells s).faultInfo = s.faultInfo := rfl
@[simp] theorem zeroCells_diag : (zeroCells s).diag = s.diag := rfl
@[simp] theorem zeroCells_cmdBuf : (zeroCells s).cmdBuf = s.cmdBuf := rfl
@[simp] theorem zeroCells_port : (zeroCells s).port = s.port := rfl
@[simp] theorem zeroCells_responses : (zeroCells s).responses = s.responses := rfl
@[simp] theorem zeroCells_host : (zeroCells s).host = s.host := rfl
@[simp] theorem zeroCells_received : (zeroCells s).received = s.received := rfl
@[simp] theorem zeroCells_alloc : (zeroCells s).alloc = s.alloc := rfl
@[simp] theorem zeroCells_sched : (zeroCells s).sched = s.sched := rfl
@[simp] theorem zeroCells_frame : (zeroCells s).frame = s.frame := rfl
@[simp] theorem zeroCells_sent : (zeroCells s).sent = s.sent := rfl

/-! ### askAllocator -/

@[simp] theorem askAllocator_cfg : (askAllocator s).cfg = s.cfg := rfl
@[simp] theorem askAllocator_activeMask : (askAllocator s).activeMask = s.activeMask := rfl
@[simp] theorem askAllocator_completeMask : (askAllocator s).completeMask = s.completeMask := rfl
@[simp] theorem askAllocator_laneCount : (askAllocator s).laneCount = s.laneCount := rfl
@[simp] theorem askAllocator_maxLaneDataSize : (askAllocator s).maxLaneDataSize = s.maxLaneDataSize := rfl
@[simp] theorem askAllocator_bufState : (askAllocator s).bufState = s.bufState := rfl
@[simp] theorem askAllocator_capSlots : (askAllocator s).capSlots = s.capSlots := rfl
@[simp] theorem askAllocator_payloadBytes : (askAllocator s).payloadBytes = s.payloadBytes := rfl
@[simp] theorem askAllocator_descCount : (askAllocator s).descCount = s.descCount := rfl
@[simp] theorem askAllocator_bufSize : (askAllocator s).bufSize = s.bufSize := rfl
@[simp] theorem askAllocator_bufBase : (askAllocator s).bufBase = s.bufBase := rfl
@[simp] theorem askAllocator_mem : (askAllocator s).mem = s.mem := rfl
@[simp] theorem askAllocator_descs : (askAllocator s).descs = s.descs := rfl
@[simp] theorem askAllocator_xferBusy : (askAllocator s).xferBusy = s.xferBusy := rfl
@[simp] theorem askAllocator_xferPos : (askAllocator s).xferPos = s.xferPos := rfl
@[simp] theorem askAllocator_lines : (askAllocator s).lines = s.lines := rfl
@[simp] theorem askAllocator_fault : (askAllocator s).fault = s.fault := rfl
@[simp] theorem askAllocator_faultInfo : (askAllocator s).faultInfo = s.faultInfo := rfl
@[simp] theorem askAllocator_diag : (askAllocator s).diag = s.diag := rfl
@[simp] theorem askAllocator_cmdBuf : (askAllocator s).cmdBuf = s.cmdBuf := rfl
@[simp] theorem askAllocator_port : (askAllocator s).port = s.port := rfl
@[simp] theorem askAllocator_responses : (askAllocator s).responses = s.responses := rfl
@[simp] theorem askAllocator_host : (askAllocator s).host = s.host := rfl
@[simp] theorem askAllocator_received : (askAllocator s).received = s.received := rfl
@[simp] theorem askAllocator_alloc : (askAllocator s).alloc = s.alloc.pop := rfl
@[simp] theorem askAllocator_sched : (askAllocator s).sched = s.sched := rfl
@[simp] theorem askAllocator_frame : (askAllocator s).frame = s.frame := rfl
@[simp] theorem askAllocator_sent : (askAllocator s).sent = s.sent := rfl

/-! ### emptyCompletion -/

@[simp] theorem emptyCompletion_cfg : (emptyCompletion s).cfg = s.cfg := rfl
@[simp] theorem emptyCompletion_activeMask : (emptyCompletion s).activeMask = s.activeMask := rfl
@[simp] theorem emptyCompletion_completeMask : (emptyCompletion s).completeMask = 0#16 := rfl
@[simp] theorem emptyCompletion_laneCount : (emptyCompletion s).laneCount = s.laneCount := rfl
@[simp] theorem emptyCompletion_maxLaneDataSize : (emptyCompletion s).maxLaneDataSize = s.maxLaneDataSize := rfl
@[simp] theorem emptyCompletion_bufState : (emptyCompletion s).bufState = s.bufState := rfl
@[simp] theorem emptyCompletion_capSlots : (emptyCompletion s).capSlots = s.capSlots := rfl
@[simp] theorem emptyCompletion_payloadBytes : (emptyCompletion s).payloadBytes = s.payloadBytes := rfl
@[simp] theorem emptyCompletion_descCount : (emptyCompletion s).descCount = s.descCount := rfl
@[simp] theorem emptyCompletion_bufSize : (emptyCompletion s).bufSize = s.bufSize := rfl
@[simp] theorem emptyCompletion_bufBase : (emptyCompletion s).bufBase = s.bufBase := rfl
@[simp] theorem emptyCompletion_mem : (emptyCompletion s).mem = s.mem := rfl
@[simp] theorem emptyCompletion_descs : (emptyCompletion s).descs = s.descs := rfl
@[simp] theorem emptyCompletion_xferBusy : (emptyCompletion s).xferBusy = s.xferBusy := rfl
@[simp] theorem emptyCompletion_xferPos : (emptyCompletion s).xferPos = s.xferPos := rfl
@[simp] theorem emptyCompletion_lines : (emptyCompletion s).lines = s.lines := rfl
@[simp] theorem emptyCompletion_fault : (emptyCompletion s).fault = s.fault := rfl
@[simp] theorem emptyCompletion_faultInfo : (emptyCompletion s).faultInfo = s.faultInfo := rfl
@[simp] theorem emptyCompletion_diag : (emptyCompletion s).diag = s.diag := rfl
@[simp] theorem emptyCompletion_cmdBuf : (emptyCompletion s).cmdBuf = s.cmdBuf := rfl
@[simp] theorem emptyCompletion_port : (emptyCompletion s).port = s.port := rfl
@[simp] theorem emptyCompletion_responses : (emptyCompletion s).responses = s.responses := rfl
@[simp] theorem emptyCompletion_host : (emptyCompletion s).host = s.host := rfl
@[simp] theorem emptyCompletion_received : (emptyCompletion s).received = s.received := rfl
@[simp] theorem emptyCompletion_alloc : (emptyCompletion s).alloc = s.alloc := rfl
@[simp] theorem emptyCompletion_sched : (emptyCompletion s).sched = s.sched := rfl
@[simp] theorem emptyCompletion_frame : (emptyCompletion s).frame = s.frame := rfl
@[simp] theorem emptyCompletion_sent : (emptyCompletion s).sent = s.sent := rfl

/-! ### storePayload -/

@[simp] theorem storePayload_cfg (m : Memory) : (storePayload m s).cfg = s.cfg := rfl
@[simp] theorem storePayload_activeMask (m : Memory) : (storePayload m s).activeMask = s.activeMask := rfl
@[simp] theorem storePayload_completeMask (m : Memory) : (storePayload m s).completeMask = s.completeMask := rfl
@[simp] theorem storePayload_laneCount (m : Memory) : (storePayload m s).laneCount = s.laneCount := rfl
@[simp] theorem storePayload_maxLaneDataSize (m : Memory) : (storePayload m s).maxLaneDataSize = s.maxLaneDataSize := rfl
@[simp] theorem storePayload_bufState (m : Memory) : (storePayload m s).bufState = s.bufState := rfl
@[simp] theorem storePayload_capSlots (m : Memory) : (storePayload m s).capSlots = s.capSlots := rfl
@[simp] theorem storePayload_payloadBytes (m : Memory) : (storePayload m s).payloadBytes = s.payloadBytes := rfl
@[simp] theorem storePayload_descCount (m : Memory) : (storePayload m s).descCount = s.descCount := rfl
@[simp] theorem storePayload_bufSize (m : Memory) : (storePayload m s).bufSize = s.bufSize := rfl
@[simp] theorem storePayload_bufBase (m : Memory) : (storePayload m s).bufBase = s.bufBase := rfl
@[simp] theorem storePayload_mem (m : Memory) : (storePayload m s).mem = m := rfl
@[simp] theorem storePayload_descs (m : Memory) : (storePayload m s).descs = s.descs := rfl
@[simp] theorem storePayload_xferBusy (m : Memory) : (storePayload m s).xferBusy = s.xferBusy := rfl
@[simp] theorem storePayload_xferPos (m : Memory) : (storePayload m s).xferPos = s.xferPos := rfl
@[simp] theorem storePayload_lines (m : Memory) : (storePayload m s).lines = s.lines := rfl
@[simp] theorem storePayload_fault (m : Memory) : (storePayload m s).fault = s.fault := rfl
@[simp] theorem storePayload_faultInfo (m : Memory) : (storePayload m s).faultInfo = s.faultInfo := rfl
@[simp] theorem storePayload_diag (m : Memory) : (storePayload m s).diag = s.diag := rfl
@[simp] theorem storePayload_cmdBuf (m : Memory) : (storePayload m s).cmdBuf = s.cmdBuf := rfl
@[simp] theorem storePayload_port (m : Memory) : (storePayload m s).port = s.port := rfl
@[simp] theorem storePayload_responses (m : Memory) : (storePayload m s).responses = s.responses := rfl
@[simp] theorem storePayload_host (m : Memory) : (storePayload m s).host = s.host := rfl
@[simp] theorem storePayload_received (m : Memory) : (storePayload m s).received = s.received := rfl
@[simp] theorem storePayload_alloc (m : Memory) : (storePayload m s).alloc = s.alloc := rfl
@[simp] theorem storePayload_sched (m : Memory) : (storePayload m s).sched = s.sched := rfl
@[simp] theorem storePayload_frame (m : Memory) : (storePayload m s).frame = s.frame := rfl
@[simp] theorem storePayload_sent (m : Memory) : (storePayload m s).sent = s.sent := rfl

/-! ### startTransfer -/

@[simp] theorem startTransfer_cfg : (startTransfer s).cfg = s.cfg := rfl
@[simp] theorem startTransfer_activeMask : (startTransfer s).activeMask = s.activeMask := rfl
@[simp] theorem startTransfer_completeMask : (startTransfer s).completeMask = 0#16 := rfl
@[simp] theorem startTransfer_laneCount : (startTransfer s).laneCount = s.laneCount := rfl
@[simp] theorem startTransfer_maxLaneDataSize : (startTransfer s).maxLaneDataSize = s.maxLaneDataSize := rfl
@[simp] theorem startTransfer_bufState : (startTransfer s).bufState = s.bufState := rfl
@[simp] theorem startTransfer_capSlots : (startTransfer s).capSlots = s.capSlots := rfl
@[simp] theorem startTransfer_payloadBytes : (startTransfer s).payloadBytes = s.payloadBytes := rfl
@[simp] theorem startTransfer_descCount : (startTransfer s).descCount = s.descCount := rfl
@[simp] theorem startTransfer_bufSize : (startTransfer s).bufSize = s.bufSize := rfl
@[simp] theorem startTransfer_bufBase : (startTransfer s).bufBase = s.bufBase := rfl
@[simp] theorem startTransfer_mem : (startTransfer s).mem = s.mem := rfl
@[simp] theorem startTransfer_descs : (startTransfer s).descs = s.descs := rfl
@[simp] theorem startTransfer_xferBusy : (startTransfer s).xferBusy = true := rfl
@[simp] theorem startTransfer_xferPos : (startTransfer s).xferPos = 0#32 := rfl
@[simp] theorem startTransfer_lines : (startTransfer s).lines = s.lines := rfl
@[simp] theorem startTransfer_fault : (startTransfer s).fault = s.fault := rfl
@[simp] theorem startTransfer_faultInfo : (startTransfer s).faultInfo = s.faultInfo := rfl
@[simp] theorem startTransfer_diag : (startTransfer s).diag = s.diag := rfl
@[simp] theorem startTransfer_cmdBuf : (startTransfer s).cmdBuf = s.cmdBuf := rfl
@[simp] theorem startTransfer_port : (startTransfer s).port = s.port := rfl
@[simp] theorem startTransfer_responses : (startTransfer s).responses = s.responses := rfl
@[simp] theorem startTransfer_host : (startTransfer s).host = s.host := rfl
@[simp] theorem startTransfer_received : (startTransfer s).received = s.received := rfl
@[simp] theorem startTransfer_alloc : (startTransfer s).alloc = s.alloc := rfl
@[simp] theorem startTransfer_sched : (startTransfer s).sched = s.sched := rfl
@[simp] theorem startTransfer_frame : (startTransfer s).frame = [] := rfl
@[simp] theorem startTransfer_sent : (startTransfer s).sent = s.sent := rfl

/-! ### buildBuffer -/

@[simp] theorem buildBuffer_cfg (b : Nat) : (buildBuffer b s).cfg = s.cfg := rfl
@[simp] theorem buildBuffer_activeMask (b : Nat) : (buildBuffer b s).activeMask = s.activeMask := rfl
@[simp] theorem buildBuffer_completeMask (b : Nat) : (buildBuffer b s).completeMask = s.completeMask := rfl
@[simp] theorem buildBuffer_laneCount (b : Nat) : (buildBuffer b s).laneCount = s.laneCount := rfl
@[simp] theorem buildBuffer_maxLaneDataSize (b : Nat) : (buildBuffer b s).maxLaneDataSize = s.maxLaneDataSize := rfl
@[simp] theorem buildBuffer_bufState (b : Nat) : (buildBuffer b s).bufState = .allocated := rfl
@[simp] theorem buildBuffer_capSlots (b : Nat) : (buildBuffer b s).capSlots = s.maxLaneDataSize := rfl
@[simp] theorem buildBuffer_payloadBytes (b : Nat) : (buildBuffer b s).payloadBytes = BitVec.ofNat 32 (s.cfg.payloadSize s.maxLaneDataSize.toNat) := rfl
@[simp] theorem buildBuffer_descCount (b : Nat) : (buildBuffer b s).descCount = BitVec.ofNat 32 (s.cfg.descriptorCount s.maxLaneDataSize.toNat) := rfl
@[simp] theorem buildBuffer_bufSize (b : Nat) : (buildBuffer b s).bufSize = BitVec.ofNat 32 (s.cfg.regionSize s.maxLaneDataSize.toNat) := rfl
@[simp] theorem buildBuffer_bufBase (b : Nat) : (buildBuffer b s).bufBase = some b := rfl
@[simp] theorem buildBuffer_descs (b : Nat) : (buildBuffer b s).descs = descriptorChain s.cfg s.maxLaneDataSize.toNat := rfl
@[simp] theorem buildBuffer_xferBusy (b : Nat) : (buildBuffer b s).xferBusy = s.xferBusy := rfl
@[simp] theorem buildBuffer_xferPos (b : Nat) : (buildBuffer b s).xferPos = s.xferPos := rfl
@[simp] theorem buildBuffer_lines (b : Nat) : (buildBuffer b s).lines = s.lines := rfl
@[simp] theorem buildBuffer_fault (b : Nat) : (buildBuffer b s).fault = s.fault := rfl
@[simp] theorem buildBuffer_faultInfo (b : Nat) : (buildBuffer b s).faultInfo = s.faultInfo := rfl
@[simp] theorem buildBuffer_diag (b : Nat) : (buildBuffer b s).diag = s.diag := rfl
@[simp] theorem buildBuffer_cmdBuf (b : Nat) : (buildBuffer b s).cmdBuf = s.cmdBuf := rfl
@[simp] theorem buildBuffer_port (b : Nat) : (buildBuffer b s).port = s.port := rfl
@[simp] theorem buildBuffer_responses (b : Nat) : (buildBuffer b s).responses = s.responses := rfl
@[simp] theorem buildBuffer_host (b : Nat) : (buildBuffer b s).host = s.host := rfl
@[simp] theorem buildBuffer_received (b : Nat) : (buildBuffer b s).received = s.received := rfl
@[simp] theorem buildBuffer_alloc (b : Nat) : (buildBuffer b s).alloc = s.alloc := rfl
@[simp] theorem buildBuffer_sched (b : Nat) : (buildBuffer b s).sched = s.sched := rfl
@[simp] theorem buildBuffer_frame (b : Nat) : (buildBuffer b s).frame = s.frame := rfl
@[simp] theorem buildBuffer_sent (b : Nat) : (buildBuffer b s).sent = s.sent := rfl

/-! ### addLane -/

@[simp] theorem addLane_cfg (id : Nat) (d : Half) : (addLane id d s).cfg = s.cfg := rfl
@[simp] theorem addLane_activeMask (id : Nat) (d : Half) : (addLane id d s).activeMask = s.activeMask ||| laneBit id := rfl
@[simp] theorem addLane_completeMask (id : Nat) (d : Half) : (addLane id d s).completeMask = s.completeMask := rfl
@[simp] theorem addLane_laneCount (id : Nat) (d : Half) : (addLane id d s).laneCount = s.laneCount + 1#5 := rfl
@[simp] theorem addLane_maxLaneDataSize (id : Nat) (d : Half) : (addLane id d s).maxLaneDataSize = if s.maxLaneDataSize.toNat < d.toNat then d else s.maxLaneDataSize := rfl
@[simp] theorem addLane_bufState (id : Nat) (d : Half) : (addLane id d s).bufState = s.bufState := rfl
@[simp] theorem addLane_capSlots (id : Nat) (d : Half) : (addLane id d s).capSlots = s.capSlots := rfl
@[simp] theorem addLane_payloadBytes (id : Nat) (d : Half) : (addLane id d s).payloadBytes = s.payloadBytes := rfl
@[simp] theorem addLane_descCount (id : Nat) (d : Half) : (addLane id d s).descCount = s.descCount := rfl
@[simp] theorem addLane_bufSize (id : Nat) (d : Half) : (addLane id d s).bufSize = s.bufSize := rfl
@[simp] theorem addLane_bufBase (id : Nat) (d : Half) : (addLane id d s).bufBase = s.bufBase := rfl
@[simp] theorem addLane_mem (id : Nat) (d : Half) : (addLane id d s).mem = s.mem := rfl
@[simp] theorem addLane_descs (id : Nat) (d : Half) : (addLane id d s).descs = s.descs := rfl
@[simp] theorem addLane_xferBusy (id : Nat) (d : Half) : (addLane id d s).xferBusy = s.xferBusy := rfl
@[simp] theorem addLane_xferPos (id : Nat) (d : Half) : (addLane id d s).xferPos = s.xferPos := rfl
@[simp] theorem addLane_lines (id : Nat) (d : Half) : (addLane id d s).lines = s.lines := rfl
@[simp] theorem addLane_fault (id : Nat) (d : Half) : (addLane id d s).fault = s.fault := rfl
@[simp] theorem addLane_faultInfo (id : Nat) (d : Half) : (addLane id d s).faultInfo = s.faultInfo := rfl
@[simp] theorem addLane_diag (id : Nat) (d : Half) : (addLane id d s).diag = s.diag := rfl
@[simp] theorem addLane_cmdBuf (id : Nat) (d : Half) : (addLane id d s).cmdBuf = s.cmdBuf := rfl
@[simp] theorem addLane_port (id : Nat) (d : Half) : (addLane id d s).port = s.port := rfl
@[simp] theorem addLane_responses (id : Nat) (d : Half) : (addLane id d s).responses = s.responses := rfl
@[simp] theorem addLane_host (id : Nat) (d : Half) : (addLane id d s).host = s.host := rfl
@[simp] theorem addLane_received (id : Nat) (d : Half) : (addLane id d s).received = s.received := rfl
@[simp] theorem addLane_alloc (id : Nat) (d : Half) : (addLane id d s).alloc = s.alloc := rfl
@[simp] theorem addLane_sched (id : Nat) (d : Half) : (addLane id d s).sched = s.sched := rfl
@[simp] theorem addLane_frame (id : Nat) (d : Half) : (addLane id d s).frame = s.frame := rfl
@[simp] theorem addLane_sent (id : Nat) (d : Half) : (addLane id d s).sent = s.sent := rfl

/-! ### removeLane -/

@[simp] theorem removeLane_cfg (l : LaneId) : (removeLane l s).cfg = s.cfg := rfl
@[simp] theorem removeLane_activeMask (l : LaneId) : (removeLane l s).activeMask = s.activeMask &&& ~~~ laneBit l.toNat := rfl
@[simp] theorem removeLane_completeMask (l : LaneId) : (removeLane l s).completeMask = s.completeMask &&& ~~~ laneBit l.toNat := rfl
@[simp] theorem removeLane_laneCount (l : LaneId) : (removeLane l s).laneCount = s.laneCount - 1#5 := rfl
@[simp] theorem removeLane_maxLaneDataSize (l : LaneId) : (removeLane l s).maxLaneDataSize = s.maxLaneDataSize := rfl
@[simp] theorem removeLane_bufState (l : LaneId) : (removeLane l s).bufState = s.bufState := rfl
@[simp] theorem removeLane_capSlots (l : LaneId) : (removeLane l s).capSlots = s.capSlots := rfl
@[simp] theorem removeLane_payloadBytes (l : LaneId) : (removeLane l s).payloadBytes = s.payloadBytes := rfl
@[simp] theorem removeLane_descCount (l : LaneId) : (removeLane l s).descCount = s.descCount := rfl
@[simp] theorem removeLane_bufSize (l : LaneId) : (removeLane l s).bufSize = s.bufSize := rfl
@[simp] theorem removeLane_bufBase (l : LaneId) : (removeLane l s).bufBase = s.bufBase := rfl
@[simp] theorem removeLane_mem (l : LaneId) : (removeLane l s).mem = s.mem := rfl
@[simp] theorem removeLane_descs (l : LaneId) : (removeLane l s).descs = s.descs := rfl
@[simp] theorem removeLane_xferBusy (l : LaneId) : (removeLane l s).xferBusy = s.xferBusy := rfl
@[simp] theorem removeLane_xferPos (l : LaneId) : (removeLane l s).xferPos = s.xferPos := rfl
@[simp] theorem removeLane_lines (l : LaneId) : (removeLane l s).lines = s.lines := rfl
@[simp] theorem removeLane_fault (l : LaneId) : (removeLane l s).fault = s.fault := rfl
@[simp] theorem removeLane_faultInfo (l : LaneId) : (removeLane l s).faultInfo = s.faultInfo := rfl
@[simp] theorem removeLane_diag (l : LaneId) : (removeLane l s).diag = s.diag := rfl
@[simp] theorem removeLane_cmdBuf (l : LaneId) : (removeLane l s).cmdBuf = s.cmdBuf := rfl
@[simp] theorem removeLane_port (l : LaneId) : (removeLane l s).port = s.port := rfl
@[simp] theorem removeLane_responses (l : LaneId) : (removeLane l s).responses = s.responses := rfl
@[simp] theorem removeLane_host (l : LaneId) : (removeLane l s).host = s.host := rfl
@[simp] theorem removeLane_received (l : LaneId) : (removeLane l s).received = s.received := rfl
@[simp] theorem removeLane_alloc (l : LaneId) : (removeLane l s).alloc = s.alloc := rfl
@[simp] theorem removeLane_sched (l : LaneId) : (removeLane l s).sched = s.sched := rfl
@[simp] theorem removeLane_frame (l : LaneId) : (removeLane l s).frame = s.frame := rfl
@[simp] theorem removeLane_sent (l : LaneId) : (removeLane l s).sent = s.sent := rfl

/-! ### markComplete -/

@[simp] theorem markComplete_cfg (l : LaneId) : (markComplete l s).cfg = s.cfg := rfl
@[simp] theorem markComplete_activeMask (l : LaneId) : (markComplete l s).activeMask = s.activeMask := rfl
@[simp] theorem markComplete_completeMask (l : LaneId) : (markComplete l s).completeMask = s.completeMask ||| laneBit l.toNat := rfl
@[simp] theorem markComplete_laneCount (l : LaneId) : (markComplete l s).laneCount = s.laneCount := rfl
@[simp] theorem markComplete_maxLaneDataSize (l : LaneId) : (markComplete l s).maxLaneDataSize = s.maxLaneDataSize := rfl
@[simp] theorem markComplete_bufState (l : LaneId) : (markComplete l s).bufState = s.bufState := rfl
@[simp] theorem markComplete_capSlots (l : LaneId) : (markComplete l s).capSlots = s.capSlots := rfl
@[simp] theorem markComplete_payloadBytes (l : LaneId) : (markComplete l s).payloadBytes = s.payloadBytes := rfl
@[simp] theorem markComplete_descCount (l : LaneId) : (markComplete l s).descCount = s.descCount := rfl
@[simp] theorem markComplete_bufSize (l : LaneId) : (markComplete l s).bufSize = s.bufSize := rfl
@[simp] theorem markComplete_bufBase (l : LaneId) : (markComplete l s).bufBase = s.bufBase := rfl
@[simp] theorem markComplete_mem (l : LaneId) : (markComplete l s).mem = s.mem := rfl
@[simp] theorem markComplete_descs (l : LaneId) : (markComplete l s).descs = s.descs := rfl
@[simp] theorem markComplete_xferBusy (l : LaneId) : (markComplete l s).xferBusy = s.xferBusy := rfl
@[simp] theorem markComplete_xferPos (l : LaneId) : (markComplete l s).xferPos = s.xferPos := rfl
@[simp] theorem markComplete_lines (l : LaneId) : (markComplete l s).lines = s.lines := rfl
@[simp] theorem markComplete_fault (l : LaneId) : (markComplete l s).fault = s.fault := rfl
@[simp] theorem markComplete_faultInfo (l : LaneId) : (markComplete l s).faultInfo = s.faultInfo := rfl
@[simp] theorem markComplete_diag (l : LaneId) : (markComplete l s).diag = s.diag := rfl
@[simp] theorem markComplete_cmdBuf (l : LaneId) : (markComplete l s).cmdBuf = s.cmdBuf := rfl
@[simp] theorem markComplete_port (l : LaneId) : (markComplete l s).port = s.port := rfl
@[simp] theorem markComplete_responses (l : LaneId) : (markComplete l s).responses = s.responses := rfl
@[simp] theorem markComplete_host (l : LaneId) : (markComplete l s).host = s.host := rfl
@[simp] theorem markComplete_received (l : LaneId) : (markComplete l s).received = s.received := rfl
@[simp] theorem markComplete_alloc (l : LaneId) : (markComplete l s).alloc = s.alloc := rfl
@[simp] theorem markComplete_sched (l : LaneId) : (markComplete l s).sched = s.sched := rfl
@[simp] theorem markComplete_frame (l : LaneId) : (markComplete l s).frame = s.frame := rfl
@[simp] theorem markComplete_sent (l : LaneId) : (markComplete l s).sent = s.sent := rfl

/-! ### emitCell -/

@[simp] theorem emitCell_cfg : (emitCell s).cfg = s.cfg := rfl
@[simp] theorem emitCell_activeMask : (emitCell s).activeMask = s.activeMask := rfl
@[simp] theorem emitCell_completeMask : (emitCell s).completeMask = s.completeMask := rfl
@[simp] theorem emitCell_laneCount : (emitCell s).laneCount = s.laneCount := rfl
@[simp] theorem emitCell_maxLaneDataSize : (emitCell s).maxLaneDataSize = s.maxLaneDataSize := rfl
@[simp] theorem emitCell_bufState : (emitCell s).bufState = s.bufState := rfl
@[simp] theorem emitCell_capSlots : (emitCell s).capSlots = s.capSlots := rfl
@[simp] theorem emitCell_payloadBytes : (emitCell s).payloadBytes = s.payloadBytes := rfl
@[simp] theorem emitCell_descCount : (emitCell s).descCount = s.descCount := rfl
@[simp] theorem emitCell_bufSize : (emitCell s).bufSize = s.bufSize := rfl
@[simp] theorem emitCell_bufBase : (emitCell s).bufBase = s.bufBase := rfl
@[simp] theorem emitCell_mem : (emitCell s).mem = s.mem := rfl
@[simp] theorem emitCell_descs : (emitCell s).descs = s.descs := rfl
@[simp] theorem emitCell_xferBusy : (emitCell s).xferBusy = s.xferBusy := rfl
@[simp] theorem emitCell_xferPos : (emitCell s).xferPos = s.xferPos + 1#32 := rfl
@[simp] theorem emitCell_lines : (emitCell s).lines = s.cell s.xferPos.toNat := rfl
@[simp] theorem emitCell_fault : (emitCell s).fault = s.fault := rfl
@[simp] theorem emitCell_faultInfo : (emitCell s).faultInfo = s.faultInfo := rfl
@[simp] theorem emitCell_diag : (emitCell s).diag = s.diag := rfl
@[simp] theorem emitCell_cmdBuf : (emitCell s).cmdBuf = s.cmdBuf := rfl
@[simp] theorem emitCell_port : (emitCell s).port = s.port := rfl
@[simp] theorem emitCell_responses : (emitCell s).responses = s.responses := rfl
@[simp] theorem emitCell_host : (emitCell s).host = s.host := rfl
@[simp] theorem emitCell_received : (emitCell s).received = s.received := rfl
@[simp] theorem emitCell_alloc : (emitCell s).alloc = s.alloc := rfl
@[simp] theorem emitCell_sched : (emitCell s).sched = s.sched := rfl
@[simp] theorem emitCell_frame : (emitCell s).frame = s.frame ++ [s.cell s.xferPos.toNat] := rfl
@[simp] theorem emitCell_sent : (emitCell s).sent = s.sent := rfl

/-! ### completeTransfer -/

@[simp] theorem completeTransfer_cfg : (completeTransfer s).cfg = s.cfg := rfl
@[simp] theorem completeTransfer_activeMask : (completeTransfer s).activeMask = s.activeMask := rfl
@[simp] theorem completeTransfer_completeMask : (completeTransfer s).completeMask = s.completeMask := rfl
@[simp] theorem completeTransfer_laneCount : (completeTransfer s).laneCount = s.laneCount := rfl
@[simp] theorem completeTransfer_maxLaneDataSize : (completeTransfer s).maxLaneDataSize = s.maxLaneDataSize := rfl
@[simp] theorem completeTransfer_bufState : (completeTransfer s).bufState = s.bufState := rfl
@[simp] theorem completeTransfer_capSlots : (completeTransfer s).capSlots = s.capSlots := rfl
@[simp] theorem completeTransfer_payloadBytes : (completeTransfer s).payloadBytes = s.payloadBytes := rfl
@[simp] theorem completeTransfer_descCount : (completeTransfer s).descCount = s.descCount := rfl
@[simp] theorem completeTransfer_bufSize : (completeTransfer s).bufSize = s.bufSize := rfl
@[simp] theorem completeTransfer_bufBase : (completeTransfer s).bufBase = s.bufBase := rfl
@[simp] theorem completeTransfer_mem : (completeTransfer s).mem = s.mem := rfl
@[simp] theorem completeTransfer_descs : (completeTransfer s).descs = s.descs := rfl
@[simp] theorem completeTransfer_xferBusy : (completeTransfer s).xferBusy = false := rfl
@[simp] theorem completeTransfer_xferPos : (completeTransfer s).xferPos = 0#32 := rfl
@[simp] theorem completeTransfer_lines : (completeTransfer s).lines = 0#16 := rfl
@[simp] theorem completeTransfer_fault : (completeTransfer s).fault = s.fault := rfl
@[simp] theorem completeTransfer_faultInfo : (completeTransfer s).faultInfo = s.faultInfo := rfl
@[simp] theorem completeTransfer_diag : (completeTransfer s).diag = s.diag := rfl
@[simp] theorem completeTransfer_cmdBuf : (completeTransfer s).cmdBuf = s.cmdBuf := rfl
@[simp] theorem completeTransfer_port : (completeTransfer s).port = s.port := rfl
@[simp] theorem completeTransfer_responses : (completeTransfer s).responses = s.responses := rfl
@[simp] theorem completeTransfer_host : (completeTransfer s).host = s.host := rfl
@[simp] theorem completeTransfer_received : (completeTransfer s).received = s.received := rfl
@[simp] theorem completeTransfer_alloc : (completeTransfer s).alloc = s.alloc := rfl
@[simp] theorem completeTransfer_sched : (completeTransfer s).sched = s.sched := rfl
@[simp] theorem completeTransfer_frame : (completeTransfer s).frame = [] := rfl
@[simp] theorem completeTransfer_sent : (completeTransfer s).sent = s.sent ++ [{ frame := s.frame, completed := true }] := rfl

/-! ### sendWord -/

@[simp] theorem sendWord_cfg (w : Word) : (sendWord w s).cfg = s.cfg := rfl
@[simp] theorem sendWord_activeMask (w : Word) : (sendWord w s).activeMask = s.activeMask := rfl
@[simp] theorem sendWord_completeMask (w : Word) : (sendWord w s).completeMask = s.completeMask := rfl
@[simp] theorem sendWord_laneCount (w : Word) : (sendWord w s).laneCount = s.laneCount := rfl
@[simp] theorem sendWord_maxLaneDataSize (w : Word) : (sendWord w s).maxLaneDataSize = s.maxLaneDataSize := rfl
@[simp] theorem sendWord_bufState (w : Word) : (sendWord w s).bufState = s.bufState := rfl
@[simp] theorem sendWord_capSlots (w : Word) : (sendWord w s).capSlots = s.capSlots := rfl
@[simp] theorem sendWord_payloadBytes (w : Word) : (sendWord w s).payloadBytes = s.payloadBytes := rfl
@[simp] theorem sendWord_descCount (w : Word) : (sendWord w s).descCount = s.descCount := rfl
@[simp] theorem sendWord_bufSize (w : Word) : (sendWord w s).bufSize = s.bufSize := rfl
@[simp] theorem sendWord_bufBase (w : Word) : (sendWord w s).bufBase = s.bufBase := rfl
@[simp] theorem sendWord_mem (w : Word) : (sendWord w s).mem = s.mem := rfl
@[simp] theorem sendWord_descs (w : Word) : (sendWord w s).descs = s.descs := rfl
@[simp] theorem sendWord_xferBusy (w : Word) : (sendWord w s).xferBusy = s.xferBusy := rfl
@[simp] theorem sendWord_xferPos (w : Word) : (sendWord w s).xferPos = s.xferPos := rfl
@[simp] theorem sendWord_lines (w : Word) : (sendWord w s).lines = s.lines := rfl
@[simp] theorem sendWord_fault (w : Word) : (sendWord w s).fault = s.fault := rfl
@[simp] theorem sendWord_faultInfo (w : Word) : (sendWord w s).faultInfo = s.faultInfo := rfl
@[simp] theorem sendWord_diag (w : Word) : (sendWord w s).diag = s.diag := rfl
@[simp] theorem sendWord_cmdBuf (w : Word) : (sendWord w s).cmdBuf = s.cmdBuf := rfl
@[simp] theorem sendWord_port (w : Word) : (sendWord w s).port = s.port ++ [w] := rfl
@[simp] theorem sendWord_responses (w : Word) : (sendWord w s).responses = s.responses := rfl
@[simp] theorem sendWord_host (w : Word) : (sendWord w s).host = s.host := rfl
@[simp] theorem sendWord_received (w : Word) : (sendWord w s).received = s.received := rfl
@[simp] theorem sendWord_alloc (w : Word) : (sendWord w s).alloc = s.alloc := rfl
@[simp] theorem sendWord_sched (w : Word) : (sendWord w s).sched = s.sched := rfl
@[simp] theorem sendWord_frame (w : Word) : (sendWord w s).frame = s.frame := rfl
@[simp] theorem sendWord_sent (w : Word) : (sendWord w s).sent = s.sent := rfl

/-! ### clearForCycle: at most the payload's bytes -/

@[simp] theorem clearForCycle_cfg : (clearForCycle s).cfg = s.cfg := by
  unfold clearForCycle; split <;> rfl
@[simp] theorem clearForCycle_activeMask : (clearForCycle s).activeMask = s.activeMask := by
  unfold clearForCycle; split <;> rfl
@[simp] theorem clearForCycle_completeMask : (clearForCycle s).completeMask = s.completeMask := by
  unfold clearForCycle; split <;> rfl
@[simp] theorem clearForCycle_laneCount : (clearForCycle s).laneCount = s.laneCount := by
  unfold clearForCycle; split <;> rfl
@[simp] theorem clearForCycle_maxLaneDataSize : (clearForCycle s).maxLaneDataSize = s.maxLaneDataSize := by
  unfold clearForCycle; split <;> rfl
@[simp] theorem clearForCycle_bufState : (clearForCycle s).bufState = s.bufState := by
  unfold clearForCycle; split <;> rfl
@[simp] theorem clearForCycle_capSlots : (clearForCycle s).capSlots = s.capSlots := by
  unfold clearForCycle; split <;> rfl
@[simp] theorem clearForCycle_payloadBytes : (clearForCycle s).payloadBytes = s.payloadBytes := by
  unfold clearForCycle; split <;> rfl
@[simp] theorem clearForCycle_descCount : (clearForCycle s).descCount = s.descCount := by
  unfold clearForCycle; split <;> rfl
@[simp] theorem clearForCycle_bufSize : (clearForCycle s).bufSize = s.bufSize := by
  unfold clearForCycle; split <;> rfl
@[simp] theorem clearForCycle_bufBase : (clearForCycle s).bufBase = s.bufBase := by
  unfold clearForCycle; split <;> rfl
@[simp] theorem clearForCycle_descs : (clearForCycle s).descs = s.descs := by
  unfold clearForCycle; split <;> rfl
@[simp] theorem clearForCycle_xferBusy : (clearForCycle s).xferBusy = s.xferBusy := by
  unfold clearForCycle; split <;> rfl
@[simp] theorem clearForCycle_xferPos : (clearForCycle s).xferPos = s.xferPos := by
  unfold clearForCycle; split <;> rfl
@[simp] theorem clearForCycle_lines : (clearForCycle s).lines = s.lines := by
  unfold clearForCycle; split <;> rfl
@[simp] theorem clearForCycle_fault : (clearForCycle s).fault = s.fault := by
  unfold clearForCycle; split <;> rfl
@[simp] theorem clearForCycle_faultInfo : (clearForCycle s).faultInfo = s.faultInfo := by
  unfold clearForCycle; split <;> rfl
@[simp] theorem clearForCycle_diag : (clearForCycle s).diag = s.diag := by
  unfold clearForCycle; split <;> rfl
@[simp] theorem clearForCycle_cmdBuf : (clearForCycle s).cmdBuf = s.cmdBuf := by
  unfold clearForCycle; split <;> rfl
@[simp] theorem clearForCycle_port : (clearForCycle s).port = s.port := by
  unfold clearForCycle; split <;> rfl
@[simp] theorem clearForCycle_responses : (clearForCycle s).responses = s.responses := by
  unfold clearForCycle; split <;> rfl
@[simp] theorem clearForCycle_host : (clearForCycle s).host = s.host := by
  unfold clearForCycle; split <;> rfl
@[simp] theorem clearForCycle_received : (clearForCycle s).received = s.received := by
  unfold clearForCycle; split <;> rfl
@[simp] theorem clearForCycle_alloc : (clearForCycle s).alloc = s.alloc := by
  unfold clearForCycle; split <;> rfl
@[simp] theorem clearForCycle_sched : (clearForCycle s).sched = s.sched := by
  unfold clearForCycle; split <;> rfl
@[simp] theorem clearForCycle_frame : (clearForCycle s).frame = s.frame := by
  unfold clearForCycle; split <;> rfl
@[simp] theorem clearForCycle_sent : (clearForCycle s).sent = s.sent := by
  unfold clearForCycle; split <;> rfl

/-! ### teardownBuffer: the buffer's elements only -/

@[simp] theorem teardownBuffer_cfg : (teardownBuffer s).cfg = s.cfg := by
  unfold teardownBuffer; split <;> rfl
@[simp] theorem teardownBuffer_activeMask : (teardownBuffer s).activeMask = s.activeMask := by
  unfold teardownBuffer; split <;> rfl
@[simp] theorem teardownBuffer_completeMask : (teardownBuffer s).completeMask = s.completeMask := by
  unfold teardownBuffer; split <;> rfl
@[simp] theorem teardownBuffer_laneCount : (teardownBuffer s).laneCount = s.laneCount := by
  unfold teardownBuffer; split <;> rfl
@[simp] theorem teardownBuffer_maxLaneDataSize : (teardownBuffer s).maxLaneDataSize = s.maxLaneDataSize := by
  unfold teardownBuffer; split <;> rfl
@[simp] theorem teardownBuffer_xferBusy : (teardownBuffer s).xferBusy = s.xferBusy := by
  unfold teardownBuffer; split <;> rfl
@[simp] theorem teardownBuffer_xferPos : (teardownBuffer s).xferPos = s.xferPos := by
  unfold teardownBuffer; split <;> rfl
@[simp] theorem teardownBuffer_lines : (teardownBuffer s).lines = s.lines := by
  unfold teardownBuffer; split <;> rfl
@[simp] theorem teardownBuffer_fault : (teardownBuffer s).fault = s.fault := by
  unfold teardownBuffer; split <;> rfl
@[simp] theorem teardownBuffer_faultInfo : (teardownBuffer s).faultInfo = s.faultInfo := by
  unfold teardownBuffer; split <;> rfl
@[simp] theorem teardownBuffer_diag : (teardownBuffer s).diag = s.diag := by
  unfold teardownBuffer; split <;> rfl
@[simp] theorem teardownBuffer_cmdBuf : (teardownBuffer s).cmdBuf = s.cmdBuf := by
  unfold teardownBuffer; split <;> rfl
@[simp] theorem teardownBuffer_port : (teardownBuffer s).port = s.port := by
  unfold teardownBuffer; split <;> rfl
@[simp] theorem teardownBuffer_responses : (teardownBuffer s).responses = s.responses := by
  unfold teardownBuffer; split <;> rfl
@[simp] theorem teardownBuffer_host : (teardownBuffer s).host = s.host := by
  unfold teardownBuffer; split <;> rfl
@[simp] theorem teardownBuffer_received : (teardownBuffer s).received = s.received := by
  unfold teardownBuffer; split <;> rfl
@[simp] theorem teardownBuffer_alloc : (teardownBuffer s).alloc = s.alloc := by
  unfold teardownBuffer; split <;> rfl
@[simp] theorem teardownBuffer_sched : (teardownBuffer s).sched = s.sched := by
  unfold teardownBuffer; split <;> rfl
@[simp] theorem teardownBuffer_frame : (teardownBuffer s).frame = s.frame := by
  unfold teardownBuffer; split <;> rfl
@[simp] theorem teardownBuffer_sent : (teardownBuffer s).sent = s.sent := by
  unfold teardownBuffer; split <;> rfl

/-! ### endConstructionCycle -/

@[simp] theorem endConstructionCycle_cfg : (endConstructionCycle s).cfg = (teardownBuffer s).cfg := rfl
@[simp] theorem endConstructionCycle_activeMask : (endConstructionCycle s).activeMask = (teardownBuffer s).activeMask := rfl
@[simp] theorem endConstructionCycle_completeMask : (endConstructionCycle s).completeMask = (teardownBuffer s).completeMask := rfl
@[simp] theorem endConstructionCycle_laneCount : (endConstructionCycle s).laneCount = (teardownBuffer s).laneCount := rfl
@[simp] theorem endConstructionCycle_maxLaneDataSize : (endConstructionCycle s).maxLaneDataSize = 0#16 := rfl
@[simp] theorem endConstructionCycle_bufState : (endConstructionCycle s).bufState = (teardownBuffer s).bufState := rfl
@[simp] theorem endConstructionCycle_capSlots : (endConstructionCycle s).capSlots = (teardownBuffer s).capSlots := rfl
@[simp] theorem endConstructionCycle_payloadBytes : (endConstructionCycle s).payloadBytes = (teardownBuffer s).payloadBytes := rfl
@[simp] theorem endConstructionCycle_descCount : (endConstructionCycle s).descCount = (teardownBuffer s).descCount := rfl
@[simp] theorem endConstructionCycle_bufSize : (endConstructionCycle s).bufSize = (teardownBuffer s).bufSize := rfl
@[simp] theorem endConstructionCycle_bufBase : (endConstructionCycle s).bufBase = (teardownBuffer s).bufBase := rfl
@[simp] theorem endConstructionCycle_mem : (endConstructionCycle s).mem = (teardownBuffer s).mem := rfl
@[simp] theorem endConstructionCycle_descs : (endConstructionCycle s).descs = (teardownBuffer s).descs := rfl
@[simp] theorem endConstructionCycle_xferBusy : (endConstructionCycle s).xferBusy = (teardownBuffer s).xferBusy := rfl
@[simp] theorem endConstructionCycle_xferPos : (endConstructionCycle s).xferPos = (teardownBuffer s).xferPos := rfl
@[simp] theorem endConstructionCycle_lines : (endConstructionCycle s).lines = (teardownBuffer s).lines := rfl
@[simp] theorem endConstructionCycle_fault : (endConstructionCycle s).fault = (teardownBuffer s).fault := rfl
@[simp] theorem endConstructionCycle_faultInfo : (endConstructionCycle s).faultInfo = (teardownBuffer s).faultInfo := rfl
@[simp] theorem endConstructionCycle_diag : (endConstructionCycle s).diag = (teardownBuffer s).diag := rfl
@[simp] theorem endConstructionCycle_cmdBuf : (endConstructionCycle s).cmdBuf = (teardownBuffer s).cmdBuf := rfl
@[simp] theorem endConstructionCycle_port : (endConstructionCycle s).port = (teardownBuffer s).port := rfl
@[simp] theorem endConstructionCycle_responses : (endConstructionCycle s).responses = (teardownBuffer s).responses := rfl
@[simp] theorem endConstructionCycle_host : (endConstructionCycle s).host = (teardownBuffer s).host := rfl
@[simp] theorem endConstructionCycle_received : (endConstructionCycle s).received = (teardownBuffer s).received := rfl
@[simp] theorem endConstructionCycle_alloc : (endConstructionCycle s).alloc = (teardownBuffer s).alloc := rfl
@[simp] theorem endConstructionCycle_sched : (endConstructionCycle s).sched = (teardownBuffer s).sched := rfl
@[simp] theorem endConstructionCycle_frame : (endConstructionCycle s).frame = (teardownBuffer s).frame := rfl
@[simp] theorem endConstructionCycle_sent : (endConstructionCycle s).sent = (teardownBuffer s).sent := rfl

/-! ### acceptWord: the port and `cmdBuf` only -/

@[simp] theorem acceptWord_cfg : (acceptWord s).cfg = s.cfg := by
  unfold acceptWord; split <;> rfl
@[simp] theorem acceptWord_activeMask : (acceptWord s).activeMask = s.activeMask := by
  unfold acceptWord; split <;> rfl
@[simp] theorem acceptWord_completeMask : (acceptWord s).completeMask = s.completeMask := by
  unfold acceptWord; split <;> rfl
@[simp] theorem acceptWord_laneCount : (acceptWord s).laneCount = s.laneCount := by
  unfold acceptWord; split <;> rfl
@[simp] theorem acceptWord_maxLaneDataSize : (acceptWord s).maxLaneDataSize = s.maxLaneDataSize := by
  unfold acceptWord; split <;> rfl
@[simp] theorem acceptWord_bufState : (acceptWord s).bufState = s.bufState := by
  unfold acceptWord; split <;> rfl
@[simp] theorem acceptWord_capSlots : (acceptWord s).capSlots = s.capSlots := by
  unfold acceptWord; split <;> rfl
@[simp] theorem acceptWord_payloadBytes : (acceptWord s).payloadBytes = s.payloadBytes := by
  unfold acceptWord; split <;> rfl
@[simp] theorem acceptWord_descCount : (acceptWord s).descCount = s.descCount := by
  unfold acceptWord; split <;> rfl
@[simp] theorem acceptWord_bufSize : (acceptWord s).bufSize = s.bufSize := by
  unfold acceptWord; split <;> rfl
@[simp] theorem acceptWord_bufBase : (acceptWord s).bufBase = s.bufBase := by
  unfold acceptWord; split <;> rfl
@[simp] theorem acceptWord_mem : (acceptWord s).mem = s.mem := by
  unfold acceptWord; split <;> rfl
@[simp] theorem acceptWord_descs : (acceptWord s).descs = s.descs := by
  unfold acceptWord; split <;> rfl
@[simp] theorem acceptWord_xferBusy : (acceptWord s).xferBusy = s.xferBusy := by
  unfold acceptWord; split <;> rfl
@[simp] theorem acceptWord_xferPos : (acceptWord s).xferPos = s.xferPos := by
  unfold acceptWord; split <;> rfl
@[simp] theorem acceptWord_lines : (acceptWord s).lines = s.lines := by
  unfold acceptWord; split <;> rfl
@[simp] theorem acceptWord_fault : (acceptWord s).fault = s.fault := by
  unfold acceptWord; split <;> rfl
@[simp] theorem acceptWord_faultInfo : (acceptWord s).faultInfo = s.faultInfo := by
  unfold acceptWord; split <;> rfl
@[simp] theorem acceptWord_diag : (acceptWord s).diag = s.diag := by
  unfold acceptWord; split <;> rfl
@[simp] theorem acceptWord_responses : (acceptWord s).responses = s.responses := by
  unfold acceptWord; split <;> rfl
@[simp] theorem acceptWord_host : (acceptWord s).host = s.host := by
  unfold acceptWord; split <;> rfl
@[simp] theorem acceptWord_received : (acceptWord s).received = s.received := by
  unfold acceptWord; split <;> rfl
@[simp] theorem acceptWord_alloc : (acceptWord s).alloc = s.alloc := by
  unfold acceptWord; split <;> rfl
@[simp] theorem acceptWord_sched : (acceptWord s).sched = s.sched := by
  unfold acceptWord; split <;> rfl
@[simp] theorem acceptWord_frame : (acceptWord s).frame = s.frame := by
  unfold acceptWord; split <;> rfl
@[simp] theorem acceptWord_sent : (acceptWord s).sent = s.sent := by
  unfold acceptWord; split <;> rfl

/-! ### What is computed from the state -/

theorem payloadOff_eq : s.payloadOff = s.descCount.toNat * s.cfg.descBytes := rfl

theorem ncells_eq : s.ncells = s.capSlots.toNat * s.cfg.cellsPerSlot := rfl

/-- Cells are computed from the instance, the descriptor count and the memory alone. -/
theorem cell_congr {s t : State} (hc : t.cfg = s.cfg) (hd : t.descCount = s.descCount) (hm : t.mem = s.mem) : t.cell = s.cell := by
  funext n; simp only [State.cell, State.payloadOff, hc, hd, hm]

end Sys2Proof.Machine
end

