-- ==== Sys2Proof/Laws/Exec.lean ====
section
/-! SUPPORT. What a command can do, said once (`exec_next`): it waits (rule R270), or it is performed in one of the ways `Performs`
lists, each with its guard, or it faults in one of the ways `Faults` lists (rule R240). -/

namespace Sys2Proof.Machine

/-! ### Holding -/

theorem hold_idle {s : State} (h : s.xferBusy = false) (o : Out) : hold s o = o := by simp [hold, h]

theorem hold_busy {s : State} (h : s.xferBusy = true) (o : Out) : hold s o = .next s := by simp [hold, h]

/-- A held command waits (rule R270). -/
theorem exec_held {i : Instr} {s : State} (hc : i.holdClass = true) (hb : s.xferBusy = true) : exec i s = .next s := by
  cases i <;> simp only [Instr.holdClass, Bool.false_eq_true] at hc <;> exact hold_busy hb _

/-! ### Lanes -/

theorem laneActive_iff {s : State} {lane : LaneId} :
    s.laneActive lane = true ↔ lane.toNat < s.cfg.bits ∧ s.activeMask.getLsbD lane.toNat = true := by
  simp [State.laneActive]

theorem laneActive_eq_false_iff {s : State} {lane : LaneId} :
    s.laneActive lane = false ↔ s.cfg.bits ≤ lane.toNat ∨ s.activeMask.getLsbD lane.toNat = false := by
  rw [← Bool.not_eq_true, laneActive_iff, not_and_or, Nat.not_lt, Bool.not_eq_true]

theorem activeMask_ne_zero_of_laneActive {s : State} {lane : LaneId} (h : s.laneActive lane = true) : s.activeMask ≠ 0#16 := fun h0 => by
  have := (laneActive_iff.1 h).2
  simp [h0] at this

theorem allLanesComplete_iff {s : State} : s.allLanesComplete = true ↔ s.completeMask = s.activeMask := by
  simp [State.allLanesComplete]

theorem noLanesComplete_iff {s : State} : s.noLanesComplete = true ↔ s.completeMask = 0#16 := by
  simp [State.noLanesComplete]

/-! ### What a command can do -/

/-- When a command that does not wait faults, and with which cause (rules R240, R242). -/
def Faults (code : FaultCode) (i : Instr) (s : State) : Prop :=
  match code with
  | .illegalCmd => False
  | .badLane => ∃ lane, s.laneActive lane = false ∧ ((∃ h d, i = .encode lane h d) ∨ i = .endFill lane ∨ i = .markLaneComplete lane)
  | .notAllocated => s.bufState = .unallocated ∧ (i = .beginFill ∨ i = .resetBufferForCycle ∨
      (∃ lane, s.laneActive lane = true ∧ ((∃ h d, i = .encode lane h d) ∨ i = .endFill lane)) ∨
      (i = .triggerTransferIfReady ∧ s.completeMask = s.activeMask ∧ s.activeMask ≠ 0#16))
  | .outOfBounds => ∃ lane h d, i = .encode lane h d ∧ s.laneActive lane = true ∧ s.bufState = .allocated ∧
      s.capSlots.toNat < h.toNat + d.length
  | .prematureDestruct => i = .destruct ∧ s.activeMask ≠ 0#16
  | .constructNoLanes => i = .construct ∧ s.bufState = .unallocated ∧ s.activeMask = 0#16

/-- `Performs i s v u`: the command `i` performed at `s` answers `v` and leaves `u`, but for the response queue and `cmdBuf`. -/
inductive Performs : Instr → State → Word → State → Prop where
  | registerFull (d : Half) (s : State) : lowestFree s.cfg.bits s.activeMask = none →
      Performs (.registerLane d) s 0x000000FF#32 (logDiag .lanesFull s)
  | register (d : Half) (s : State) (id : Nat) : lowestFree s.cfg.bits s.activeMask = some id →
      Performs (.registerLane d) s (BitVec.ofNat 32 id) (addLane id d s)
  | deregisterInactive (lane : LaneId) (s : State) : s.xferBusy = false → s.laneActive lane = false →
      Performs (.deregisterLane lane) s 0#32 s
  | deregister (lane : LaneId) (s : State) : s.xferBusy = false → s.laneActive lane = true → (removeLane lane s).activeMask ≠ 0#16 →
      Performs (.deregisterLane lane) s 0#32 (removeLane lane s)
  | deregisterLast (lane : LaneId) (s : State) : s.xferBusy = false → s.laneActive lane = true → (removeLane lane s).activeMask = 0#16 →
      Performs (.deregisterLane lane) s 1#32 (endConstructionCycle (removeLane lane s))
  | beginFill (s : State) : s.xferBusy = false → s.bufState = .allocated → Performs .beginFill s 0#32 (clearForCycle s)
  | encode (lane : LaneId) (h : Word) (d : List Byte) (s : State) : s.xferBusy = false → s.laneActive lane = true →
      s.bufState = .allocated → h.toNat + d.length ≤ s.capSlots.toNat → s.slotsInRegion (h.toNat + d.length) = true →
      Performs (.encode lane h d) s (BitVec.ofNat 32 (h.toNat + d.length))
        (storePayload (encodePayload s.cfg s.payloadOff lane.toNat h.toNat d s.mem) s)
  | endFill (lane : LaneId) (s : State) : s.xferBusy = false → s.laneActive lane = true → s.bufState = .allocated →
      (markComplete lane s).completeMask ≠ s.activeMask → Performs (.endFill lane) s 0#32 (markComplete lane s)
  | endFillStart (lane : LaneId) (s : State) : s.xferBusy = false → s.laneActive lane = true → s.bufState = .allocated →
      (markComplete lane s).completeMask = s.activeMask → Performs (.endFill lane) s 1#32 (startTransfer (markComplete lane s))
  | isTransferDone (s : State) : Performs .isTransferDone s (flagWord s.xferDone) s
  | markLaneComplete (lane : LaneId) (s : State) : s.xferBusy = false → s.laneActive lane = true →
      Performs (.markLaneComplete lane) s 0#32 (markComplete lane s)
  | allLanesComplete (s : State) : Performs .allLanesComplete s (flagWord s.allLanesComplete) s
  | noLanesComplete (s : State) : Performs .noLanesComplete s (flagWord s.noLanesComplete) s
  | resetCompletion (s : State) : s.xferBusy = false → Performs .resetCompletion s 0#32 (emptyCompletion s)
  | constructAgain (s : State) : s.bufState = .allocated → Performs .construct s 1#32 s
  | constructFail (s : State) : s.bufState = .unallocated → s.activeMask ≠ 0#16 →
      s.alloc.value Config.allocatorAnswer = .fail → Performs .construct s 0#32 (logDiag .allocFail (askAllocator s))
  | construct (s : State) (q : Nat) : s.bufState = .unallocated → s.activeMask ≠ 0#16 →
      s.alloc.value Config.allocatorAnswer = .ok q → Performs .construct s 1#32 (buildBuffer (4 * q) (askAllocator s))
  | destruct (s : State) : s.xferBusy = false → s.activeMask = 0#16 → Performs .destruct s 0#32 (teardownBuffer s)
  | resetBufferForCycle (s : State) : s.xferBusy = false → s.bufState = .allocated →
      Performs .resetBufferForCycle s (flagWord s.noLanesComplete) (clearForCycle s)
  | trigger (s : State) : s.xferBusy = false → s.completeMask = s.activeMask → s.activeMask ≠ 0#16 → s.bufState = .allocated →
      Performs .triggerTransferIfReady s 1#32 (startTransfer s)
  | triggerNotReady (s : State) : s.xferBusy = false → (s.completeMask ≠ s.activeMask ∨ s.activeMask = 0#16) →
      Performs .triggerTransferIfReady s 0#32 s
  | readStatus (sel : Half) (s : State) : Performs (.readStatus sel) s (s.statusReg sel) s

theorem bufState_ne {s : State} (h : ¬ s.bufState = .unallocated) : s.bufState = .allocated := by
  cases hb : s.bufState
  · exact absurd hb h
  · rfl

/-- Everything a command can do: wait in `cmdBuf`, be performed, or fault. -/
theorem exec_next {i : Instr} {s t : State} (h : exec i s = .next t) :
    (i.holdClass = true ∧ s.xferBusy = true ∧ t = s) ∨ (∃ v u, Performs i s v u ∧ t = respond v u) ∨
      ∃ code, Faults code i s ∧ t = raiseFault code i.word0 s := by
  by_cases hw : i.holdClass = true ∧ s.xferBusy = true
  · rw [exec_held hw.1 hw.2] at h
    exact .inl ⟨hw.1, hw.2, (Host.Outcome.next.inj h).symm⟩
  right
  have idle : i.holdClass = true → s.xferBusy = false := fun hc => by
    rw [not_and, Bool.not_eq_true] at hw; exact hw hc
  cases i with
  | registerLane d =>
    simp only [exec, execRegisterLane] at h
    split at h
    · next hf => cases h; exact .inl ⟨_, _, .registerFull d s hf, rfl⟩
    · next id hf => cases h; exact .inl ⟨_, _, .register d s id hf, rfl⟩
  | deregisterLane lane =>
    have hb := idle rfl
    simp only [exec, execDeregisterLane, hold_idle hb] at h
    split at h
    · next hl => cases h; exact .inl ⟨_, _, .deregisterInactive lane s hb (by simpa using hl), rfl⟩
    · next hl =>
      have hl : s.laneActive lane = true := by simpa using hl
      split at h
      · next hz => cases h; exact .inl ⟨_, _, .deregisterLast lane s hb hl hz, rfl⟩
      · next hz => cases h; exact .inl ⟨_, _, .deregister lane s hb hl hz, rfl⟩
  | beginFill =>
    have hb := idle rfl
    simp only [exec, execBeginFill, hold_idle hb] at h
    split at h
    · next hu => cases h; exact .inr ⟨.notAllocated, ⟨hu, .inl rfl⟩, rfl⟩
    · next hu => cases h; exact .inl ⟨_, _, .beginFill s hb (bufState_ne hu), rfl⟩
  | encode lane hd d =>
    have hb := idle rfl
    simp only [exec, execEncode, hold_idle hb] at h
    split at h
    · next hl =>
      cases h
      exact .inr ⟨.badLane, ⟨lane, by simpa using hl, .inl ⟨hd, d, rfl⟩⟩, rfl⟩
    · next hl =>
      split at h
      · next hu => cases h; exact .inr ⟨.notAllocated, ⟨hu, .inr (.inr (.inl ⟨lane, by simpa using hl, .inl ⟨hd, d, rfl⟩⟩))⟩, rfl⟩
      · next hu =>
        split at h
        · next ho =>
          cases h; exact .inr ⟨.outOfBounds, ⟨lane, hd, d, rfl, by simpa using hl, bufState_ne hu, ho⟩, rfl⟩
        · next ho =>
          split at h
          · next hr => cases h; exact .inl ⟨_, _, .encode lane hd d s hb (by simpa using hl) (bufState_ne hu) (by omega) hr, rfl⟩
          · cases h
  | endFill lane =>
    have hb := idle rfl
    simp only [exec, execEndFill, hold_idle hb] at h
    split at h
    · next hl => cases h; exact .inr ⟨.badLane, ⟨lane, by simpa using hl, .inr (.inl rfl)⟩, rfl⟩
    · next hl =>
      have hl : s.laneActive lane = true := by simpa using hl
      split at h
      · next hu => cases h; exact .inr ⟨.notAllocated, ⟨hu, .inr (.inr (.inl ⟨lane, hl, .inr rfl⟩))⟩, rfl⟩
      · next hu =>
        split at h
        · next hq => cases h; exact .inl ⟨_, _, .endFillStart lane s hb hl (bufState_ne hu) (allLanesComplete_iff.1 hq), rfl⟩
        · next hq =>
          cases h
          exact .inl ⟨_, _, .endFill lane s hb hl (bufState_ne hu) (fun he => hq (allLanesComplete_iff.2 he)), rfl⟩
  | isTransferDone => cases h; exact .inl ⟨_, _, .isTransferDone s, rfl⟩
  | markLaneComplete lane =>
    have hb := idle rfl
    simp only [exec, execMarkLaneComplete, hold_idle hb] at h
    split at h
    · next hl => cases h; exact .inr ⟨.badLane, ⟨lane, by simpa using hl, .inr (.inr rfl)⟩, rfl⟩
    · next hl => cases h; exact .inl ⟨_, _, .markLaneComplete lane s hb (by simpa using hl), rfl⟩
  | allLanesComplete => cases h; exact .inl ⟨_, _, .allLanesComplete s, rfl⟩
  | noLanesComplete => cases h; exact .inl ⟨_, _, .noLanesComplete s, rfl⟩
  | resetCompletion =>
    have hb := idle rfl
    simp only [exec, execResetCompletion, hold_idle hb] at h
    cases h; exact .inl ⟨_, _, .resetCompletion s hb, rfl⟩
  | construct =>
    simp only [exec, execConstruct] at h
    split at h
    · next ha => cases h; exact .inl ⟨_, _, .constructAgain s ha, rfl⟩
    · next hu =>
      split at h
      · next hz => cases h; exact .inr ⟨.constructNoLanes, ⟨rfl, hu, hz⟩, rfl⟩
      · next hz =>
        split at h
        · next hf => cases h; exact .inl ⟨_, _, .constructFail s hu hz hf, rfl⟩
        · next q hf => cases h; exact .inl ⟨_, _, .construct s q hu hz hf, rfl⟩
  | destruct =>
    have hb := idle rfl
    simp only [exec, execDestruct, hold_idle hb] at h
    split at h
    · next hz => cases h; exact .inr ⟨.prematureDestruct, ⟨rfl, hz⟩, rfl⟩
    · next hz => cases h; exact .inl ⟨_, _, .destruct s hb (not_not.1 hz), rfl⟩
  | resetBufferForCycle =>
    have hb := idle rfl
    simp only [exec, execResetBufferForCycle, hold_idle hb] at h
    split at h
    · next hu => cases h; exact .inr ⟨.notAllocated, ⟨hu, .inr (.inl rfl)⟩, rfl⟩
    · next hu => cases h; exact .inl ⟨_, _, .resetBufferForCycle s hb (bufState_ne hu), rfl⟩
  | triggerTransferIfReady =>
    have hb := idle rfl
    simp only [exec, execTriggerTransferIfReady, hold_idle hb] at h
    split at h
    · next hr =>
      simp only [Bool.and_eq_true, allLanesComplete_iff, bne_iff_ne] at hr
      split at h
      · next hu => cases h; exact .inr ⟨.notAllocated, ⟨hu, .inr (.inr (.inr ⟨rfl, hr⟩))⟩, rfl⟩
      · next hu => cases h; exact .inl ⟨_, _, .trigger s hb hr.1 hr.2 (bufState_ne hu), rfl⟩
    · next hr =>
      simp only [Bool.and_eq_true, allLanesComplete_iff, bne_iff_ne] at hr
      cases h; exact .inl ⟨_, _, .triggerNotReady s hb (by tauto), rfl⟩
  | readStatus sel => cases h; exact .inl ⟨_, _, .readStatus sel s, rfl⟩

/-- A way of being performed is what `exec` does. -/
theorem Performs.exec {i : Instr} {s u : State} {v : Word} (h : Performs i s v u) : exec i s = .next (respond v u) := by
  cases h with
  | registerFull d _ hf => simp only [Machine.exec, execRegisterLane, hf]; rfl
  | register d _ id hf => simp only [Machine.exec, execRegisterLane, hf]
  | deregisterInactive lane _ hb hl => simp [Machine.exec, execDeregisterLane, hold_idle hb, hl]
  | deregister lane _ hb hl hz => simp only [Machine.exec, execDeregisterLane, hold_idle hb, hl, Bool.not_true, Bool.false_eq_true, if_false, hz]
  | deregisterLast lane _ hb hl hz => simp only [Machine.exec, execDeregisterLane, hold_idle hb, hl, Bool.not_true, Bool.false_eq_true, if_false, hz, if_true]
  | beginFill _ hb ha => simp [Machine.exec, execBeginFill, hold_idle hb, ha]
  | encode lane h d _ hb hl ha ho hr =>
    simp only [Machine.exec, execEncode, hold_idle hb, hl, ha, hr, Bool.not_true, Bool.false_eq_true, if_false, reduceCtorEq, if_true,
      Nat.not_lt.2 ho]
  | endFill lane _ hb hl ha hq =>
    have : (markComplete lane s).allLanesComplete = false := by
      rw [← Bool.not_eq_true, allLanesComplete_iff]; exact hq
    simp only [Machine.exec, execEndFill, hold_idle hb, hl, ha, this, Bool.not_true, Bool.false_eq_true, if_false, reduceCtorEq]
  | endFillStart lane _ hb hl ha hq =>
    have : (markComplete lane s).allLanesComplete = true := allLanesComplete_iff.2 hq
    simp only [Machine.exec, execEndFill, hold_idle hb, hl, ha, this, Bool.not_true, Bool.false_eq_true, if_false, reduceCtorEq, if_true]
  | isTransferDone => rfl
  | markLaneComplete lane _ hb hl => simp [Machine.exec, execMarkLaneComplete, hold_idle hb, hl]
  | allLanesComplete => rfl
  | noLanesComplete => rfl
  | resetCompletion _ hb => simp [Machine.exec, execResetCompletion, hold_idle hb]
  | constructAgain _ ha => simp [Machine.exec, execConstruct, ha]
  | constructFail _ hu hz hf => simp [Machine.exec, execConstruct, hu, hz, hf]
  | construct _ q hu hz hf => simp [Machine.exec, execConstruct, hu, hz, hf]
  | destruct _ hb hz => simp [Machine.exec, execDestruct, hold_idle hb, hz]
  | resetBufferForCycle _ hb ha => simp [Machine.exec, execResetBufferForCycle, hold_idle hb, ha]
  | trigger _ hb hq hz ha => simp [Machine.exec, execTriggerTransferIfReady, hold_idle hb, allLanesComplete_iff.2 hq, hz, ha]
  | triggerNotReady _ hb hr =>
    have : (s.allLanesComplete && (s.activeMask != 0#16)) = false := by
      rw [← Bool.not_eq_true, Bool.and_eq_true, allLanesComplete_iff, bne_iff_ne]; tauto
    simp only [Machine.exec, execTriggerTransferIfReady, hold_idle hb, this, Bool.false_eq_true, if_false]
  | readStatus sel => rfl

/-- A cause of a fault is what `exec` raises (rules R241, R242). -/
theorem Faults.exec {code : FaultCode} {i : Instr} {s : State} (h : Faults code i s) (hb : i.holdClass = true → s.xferBusy = false) :
    exec i s = .next (raiseFault code i.word0 s) := by
  cases code with
  | illegalCmd => exact h.elim
  | badLane =>
    obtain ⟨lane, hl, ⟨hd, d, rfl⟩ | rfl | rfl⟩ := h
    · simp [Machine.exec, execEncode, hold_idle (hb rfl), hl]
    · simp [Machine.exec, execEndFill, hold_idle (hb rfl), hl]
    · simp [Machine.exec, execMarkLaneComplete, hold_idle (hb rfl), hl]
  | notAllocated =>
    obtain ⟨hu, rfl | rfl | ⟨lane, hl, ⟨hd, d, rfl⟩ | rfl⟩ | ⟨rfl, hq, hz⟩⟩ := h
    · simp [Machine.exec, execBeginFill, hold_idle (hb rfl), hu]
    · simp [Machine.exec, execResetBufferForCycle, hold_idle (hb rfl), hu]
    · simp [Machine.exec, execEncode, hold_idle (hb rfl), hl, hu]
    · simp [Machine.exec, execEndFill, hold_idle (hb rfl), hl, hu]
    · simp [Machine.exec, execTriggerTransferIfReady, hold_idle (hb rfl), allLanesComplete_iff.2 hq, hz, hu]
  | outOfBounds =>
    obtain ⟨lane, hd, d, rfl, hl, ha, ho⟩ := h
    simp [Machine.exec, execEncode, hold_idle (hb rfl), hl, ha, ho]
  | prematureDestruct =>
    obtain ⟨rfl, hz⟩ := h
    simp [Machine.exec, execDestruct, hold_idle (hb rfl), hz]
  | constructNoLanes =>
    obtain ⟨rfl, hu, hz⟩ := h
    simp [Machine.exec, execConstruct, hu, hz]

/-- A performed command and its answer, from its effect. -/
theorem Performs.answered {i : Instr} {s u : State} {v : Word} (h : Performs i s v u) :
    u.responses = s.responses ∧ u.cmdBuf = s.cmdBuf := by
  cases h <;> simp

/-- No command touches the instance, the words behind it, the host or the choice of agents. -/
theorem Performs.sameOutside {i : Instr} {s u : State} {v : Word} (h : Performs i s v u) : SameOutside s u := by
  cases h <;> simp [SameOutside]

/-- A fault records what R241 says, the bit as R240 numbers it. -/
theorem faulted_raiseFault (code : FaultCode) (w : Word) (s : State) : Faulted code w s (raiseFault code w s) := by
  cases code <;> rfl

/-- A lane's mark completes the quorum exactly if every other active lane had completed (rules R145, R181). -/
theorem markComplete_eq_activeMask_iff {s : State} {lane : LaneId} (hr : s.RegistryInv) (hl : s.laneActive lane = true) :
    (markComplete lane s).completeMask = s.activeMask ↔
      ∀ j < 16, s.activeMask.getLsbD j = true → j = lane.toNat ∨ s.completeMask.getLsbD j = true := by
  rw [markComplete_completeMask]
  constructor
  · intro h j hj ha
    rw [← h, getLsbD_or_laneBit] at ha
    simp only [Bool.or_eq_true, Bool.and_eq_true, decide_eq_true_eq] at ha
    exact ha.symm.imp_left And.right
  · intro h
    refine mask_ext fun j hj => ?_
    have hs := (subset_iff _ _).1 hr.1 j hj
    have ha := (laneActive_iff.1 hl).2
    rw [getLsbD_or_laneBit]
    rcases Decidable.em (j = lane.toNat) with rfl | hne
    · simp [hj, ha]
    · cases hc : s.completeMask.getLsbD j
      · cases hb : s.activeMask.getLsbD j
        · simp [hne]
        · rcases h j hj hb with e | e
          · exact absurd e hne
          · rw [hc] at e; cases e
      · simp [hs hc]

end Sys2Proof.Machine
end

