-- ==== Sys2Proof/Laws/Buffer.lean ====
section
/-! SUPPORT. The laws of the shared region (rules R61, R62, R75): its sizes, its accesses, ZeroCells (R164), a built buffer (R160), and
what is left alone when fields outside it change. -/

namespace Sys2Proof.Machine

/-! ### Sizes -/

/-- The region ends where the payload does (rules R61, R75). -/
theorem State.SizedBuffer.bufSize_eq {s : State} (h : s.SizedBuffer) : s.bufSize.toNat = s.payloadOff + s.payloadBytes.toNat := by
  obtain ⟨hp, hd, hb, -⟩ := h
  rw [hb, hp, State.payloadOff, hd]; rfl

theorem State.BufferInv.sized {s : State} (h : s.BufferInv) (ha : s.bufState = .allocated) : s.SizedBuffer := (h.2.1 ha).2

/-- The slots below an end within the capacity lie in the region. -/
theorem State.SizedBuffer.slotsInRegion {s : State} (h : s.SizedBuffer) (ha : s.bufState = .allocated) {e : Nat}
    (he : e ≤ s.capSlots.toNat) : s.slotsInRegion e = true := by
  have h1 := h.bufSize_eq
  have h2 := s.cfg.payloadSize_mono he
  rw [← h.1] at h2
  simp only [State.slotsInRegion, State.inRegion, ha, beq_self_eq_true, Bool.true_and, decide_eq_true_eq]
  omega

/-- Where a cell of the payload lies. -/
theorem State.SizedBuffer.cellOffset_bounds {s : State} (h : s.SizedBuffer) (hc : s.cfg.Admitted) {n : Nat} (hn : n < s.ncells) :
    s.payloadOff ≤ cellOffset s.cfg s.payloadOff n ∧
      cellOffset s.cfg s.payloadOff n + s.cfg.cellBytes ≤ s.payloadOff + s.payloadBytes.toNat := by
  have := cellOffset_in_payload hc s.payloadOff hn
  rwa [← h.1] at this

/-- A cell of the payload lies in the region. -/
theorem State.SizedBuffer.cellInRegion {s : State} (h : s.SizedBuffer) (hc : s.cfg.Admitted) (ha : s.bufState = .allocated) {n : Nat}
    (hn : n < s.ncells) : s.inRegion (cellOffset s.cfg s.payloadOff n) s.cfg.cellBytes = true := by
  have h1 := h.bufSize_eq
  have h2 := h.cellOffset_bounds hc hn
  simp only [State.inRegion, ha, beq_self_eq_true, Bool.true_and, decide_eq_true_eq]
  omega

/-- `xferPos` never reaches 2^32: the payload has fewer cells. -/
theorem State.ncells_lt (s : State) : s.ncells < 2 ^ 22 := by
  have := s.capSlots.isLt
  have h : s.cfg.cellsPerSlot ≤ 32 := by
    rw [Config.cellsPerSlot_eq]; rcases s.cfg.cellsPerBit_cases with k | k <;> omega
  calc s.ncells ≤ s.capSlots.toNat * 32 := Nat.mul_le_mul_left _ h
    _ < 2 ^ 22 := by omega

/-! ### A cell depends on the shape and the bytes -/

theorem payloadOff_congr {s t : State} (hc : t.cfg = s.cfg) (hd : t.descCount = s.descCount) : t.payloadOff = s.payloadOff := by
  simp only [State.payloadOff, hc, hd]

theorem ncells_congr {s t : State} (hc : t.cfg = s.cfg) (hs : t.capSlots = s.capSlots) : t.ncells = s.ncells := by
  simp only [State.ncells, hc, hs]

theorem inRegion_congr {s t : State} (hb : t.bufState = s.bufState) (hs : t.bufSize = s.bufSize) (off n : Nat) :
    t.inRegion off n = s.inRegion off n := by
  simp only [State.inRegion, hb, hs]

/-! ### ZeroCells -/

/-- ZeroCells: every payload byte reads 0 and every other as before (rule R164). -/
theorem read_zeroCells (s : State) (a : Nat) :
    Memory.read (zeroCells s).mem a =
      if s.payloadOff ≤ a ∧ a < s.payloadOff + s.payloadBytes.toNat then 0#8 else Memory.read s.mem a :=
  Memory.read_clear ..

/-- A cell whose bytes all read 0 is 0. -/
theorem cellRead_eq_zero {c : Config} {po : Nat} {m : Memory} {t : Nat}
    (h : ∀ a, cellOffset c po t ≤ a → a < cellOffset c po t + c.cellBytes → Memory.read m a = 0#8) : cellRead c po m t = 0#16 := by
  have hz : ∀ off n, memRead [] off n = 0 := fun off n => by
    induction n generalizing off with
    | zero => rfl
    | succ n ih => simp [memRead, ih]
  rw [cellRead_congr (n := []) fun a h1 h2 => by rw [h a h1 h2]; rfl, cellRead, hz]

/-- ZeroCells: every cell of the payload is 0 (rule R164). -/
theorem cell_zeroCells {s : State} (hc : s.cfg.Admitted) (hp : s.payloadBytes.toNat = s.cfg.payloadSize s.capSlots.toNat) {n : Nat}
    (hn : n < s.ncells) : (zeroCells s).cell n = 0#16 := by
  have hb := cellOffset_in_payload hc s.payloadOff hn
  rw [← hp] at hb
  exact cellRead_eq_zero fun a h1 h2 => by
    have h1 : cellOffset s.cfg s.payloadOff n ≤ a := h1
    have h2 : a < cellOffset s.cfg s.payloadOff n + s.cfg.cellBytes := h2
    rw [read_zeroCells, if_pos (by omega)]

/-- The cycle's clear, by cases (rules R163, R180). -/
theorem clearForCycle_eq (s : State) : clearForCycle s = if s.completeMask = 0#16 then zeroCells s else s := by
  unfold clearForCycle
  by_cases h : s.completeMask = 0#16
  · rw [if_pos (noLanesComplete_iff.2 h), if_pos h]
  · rw [if_neg (fun e => h (noLanesComplete_iff.1 e)), if_neg h]

/-! ### A built buffer -/

/-- Every register of a built buffer holds its size whole (rules R9, R75). -/
theorem buildBuffer_sizes {s : State} (hc : s.cfg.Admitted) (base : Nat) :
    (buildBuffer base s).payloadBytes.toNat = s.cfg.payloadSize s.maxLaneDataSize.toNat ∧
      (buildBuffer base s).descCount.toNat = s.cfg.descriptorCount s.maxLaneDataSize.toNat ∧
      (buildBuffer base s).bufSize.toNat = s.cfg.regionSize s.maxLaneDataSize.toNat := by
  have hm : s.maxLaneDataSize.toNat ≤ 65535 := by have := s.maxLaneDataSize.isLt; omega
  have h1 := s.cfg.payloadSize_lt hm
  have h2 := Config.descriptorCount_lt hc hm
  have h3 := hc.regionSize_lt hm
  refine ⟨?_, ?_, ?_⟩
  · simp only [buildBuffer_payloadBytes, BitVec.toNat_ofNat]; omega
  · simp only [buildBuffer_descCount, BitVec.toNat_ofNat]; omega
  · simp only [buildBuffer_bufSize, BitVec.toNat_ofNat]; omega

/-- A built buffer's payload offset (rule R61). -/
theorem payloadOff_buildBuffer {s : State} (hc : s.cfg.Admitted) (base : Nat) :
    (buildBuffer base s).payloadOff = s.cfg.descriptorCount s.maxLaneDataSize.toNat * s.cfg.descBytes := by
  rw [State.payloadOff, (buildBuffer_sizes hc base).2.1]; simp

/-- What a built buffer's memory reads (rules R160, R164). -/
theorem read_buildBuffer (s : State) (base a : Nat) :
    Memory.read (buildBuffer base s).mem a =
      if (buildBuffer base s).payloadOff ≤ a ∧ a < (buildBuffer base s).payloadOff + (buildBuffer base s).payloadBytes.toNat then 0#8
      else Memory.read s.mem a := by
  unfold buildBuffer
  exact read_zeroCells _ a

/-- A built buffer's cells are 0 (rules R160, R164). -/
theorem cell_buildBuffer {s : State} (hc : s.cfg.Admitted) (base : Nat) {n : Nat} (hn : n < (buildBuffer base s).ncells) :
    (buildBuffer base s).cell n = 0#16 := by
  have hp := (buildBuffer_sizes hc base).1
  exact cellRead_eq_zero fun a h1 h2 => by
    have hb := cellOffset_in_payload hc (buildBuffer base s).payloadOff (cap := s.maxLaneDataSize.toNat) hn
    have h1 : cellOffset s.cfg (buildBuffer base s).payloadOff n ≤ a := h1
    have h2 : a < cellOffset s.cfg (buildBuffer base s).payloadOff n + s.cfg.cellBytes := h2
    rw [read_buildBuffer, hp, if_pos (by omega)]

/-- The chain's length (rule R67). -/
theorem descriptorChain_length (c : Config) (cap : Nat) : (descriptorChain c cap).length = c.descriptorCount cap := by
  simp [descriptorChain]

/-- The chain, descriptor by descriptor (rule R67). -/
theorem descriptorChain_getElem? (c : Config) {cap k : Nat} (hk : k < c.descriptorCount cap) :
    (descriptorChain c cap)[k]? =
      some (descriptorAt c (c.descriptorCount cap * c.descBytes) (c.payloadSize cap) (c.descriptorCount cap) k) := by
  simp [descriptorChain, hk]

/-! ### ENCODE's effect -/

/-- The cells after ENCODE's stores (rules R124, R126). -/
theorem cell_storePayload (m : Memory) (s : State) (n : Nat) : (storePayload m s).cell n = cellRead s.cfg s.payloadOff m n := rfl

/-- A legal ENCODE is performed in every state that meets the invariant (rule R124). -/
theorem performs_encode {s : State} (hi : s.Inv) (hb : s.xferBusy = false) {lane : LaneId} (hl : s.laneActive lane = true)
    (ha : s.bufState = .allocated) {h : Word} {d : List Byte} (ho : h.toNat + d.length ≤ s.capSlots.toNat) :
    Performs (.encode lane h d) s (BitVec.ofNat 32 (h.toNat + d.length))
      (storePayload (encodePayload s.cfg s.payloadOff lane.toNat h.toNat d s.mem) s) :=
  .encode lane h d s hb hl ha ho ((hi.2.2.2.1.sized ha).slotsInRegion ha ho)

end Sys2Proof.Machine
end

