-- ==== Sys2Proof/Laws/Chain.lean ====
section
/-! SUPPORT. The walk along the descriptor chain (rules R67, R204): the storage words it meets. -/

namespace Sys2Proof.Machine

/-- A segment of whole words. -/
theorem segmentWords_eq (po a n : Nat) {d : Descriptor} (h : d.segOff = po + 4 * a) (hl : d.segLen = 4 * n) : segmentWords d =
    (List.range' a n).map fun q => po + 4 * q := by
  unfold segmentWords
  rw [h, hl, show 4 * n / 4 = n by omega, List.range'_eq_map_range, List.map_map]
  apply List.map_congr_left; intro q _; simp; omega

/-- The words from descriptor `k` to the terminator are the payload's words from that segment's first on. -/
theorem chainWords_eq {c : Config} (hc : c.Admitted) (cap : Nat) {B : Nat} (hB : c.payloadSize cap = 4 * B) (fuel : Nat) :
    ∀ k, k < c.descriptorCount cap → c.descriptorCount cap - k ≤ fuel →
    chainWords (descriptorChain c cap) fuel k = (List.range' (k * (c.mtu / 4)) (B - k * (c.mtu / 4))).map fun q => c.descriptorCount cap * c.descBytes + 4 * q := by
  have hM : c.mtu = 4 * (c.mtu / 4) := by have := hc.2.1; omega
  have hM1 : 1 ≤ c.mtu / 4 := by have := hc.2.2.1; omega
  set M := c.mtu / 4 with hMd
  have hcount : c.descriptorCount cap = max 1 ((B + M - 1) / M) := by
    unfold Config.descriptorCount
    rw [hB, hM, show 4 * B + 4 * M - 1 = 3 + 4 * (B + M - 1) by omega]
    congr 1
    rw [← Nat.div_div_eq_div_mul]
    congr 1; omega
  induction fuel with
  | zero => intro k hk hf; omega
  | succ fuel ih =>
    intro k hk hf
    rw [chainWords, descriptorChain_getElem? c hk]
    have hseg : ∀ n, min c.mtu (c.payloadSize cap - k * c.mtu) = 4 * n ↔ min M (B - k * M) = n := by
      intro n; rw [hB, hM, show k * (4 * M) = 4 * (k * M) by ring]; omega
    simp only [descriptorAt]
    rw [segmentWords_eq (c.descriptorCount cap * c.descBytes) (k * M) (min M (B - k * M)) (by simp only; rw [hM]; ring) ((hseg _).2 rfl)]
    by_cases he : k + 1 = c.descriptorCount cap
    · simp only [he, beq_self_eq_true, if_true, List.append_nil]
      congr 2
      have : B ≤ (k + 1) * M := by
        rw [he, hcount]
        have h1 : (B + M - 1) / M * M + M > B + M - 1 := by
          have := Nat.div_add_mod (B + M - 1) M
          have := Nat.mod_lt (B + M - 1) hM1
          rw [Nat.mul_comm]; omega
        calc B ≤ (B + M - 1) / M * M := by omega
          _ ≤ _ := Nat.mul_le_mul_right _ (le_max_right ..)
      rw [Nat.succ_mul] at this; omega
    · have hlt : k + 1 < c.descriptorCount cap := by omega
      simp only [beq_eq_false_iff_ne.2 he, hlt, if_true, Bool.false_eq_true, if_false]
      rw [ih (k + 1) hlt (by omega), ← List.map_append]
      congr 1
      have : (k + 1) * M < B := by
        rw [hcount] at hlt
        have h2 : k + 1 < (B + M - 1) / M := by omega
        have h3 : (k + 1 + 1) * M ≤ B + M - 1 := by
          calc (k + 1 + 1) * M ≤ (B + M - 1) / M * M := Nat.mul_le_mul_right _ h2
            _ ≤ _ := Nat.div_mul_le_self ..
        rw [Nat.succ_mul] at h3; omega
      rw [Nat.succ_mul] at this ⊢
      rw [Nat.min_eq_left (by omega)]
      rw [show B - k * M = M + (B - (k * M + M)) by omega, ← List.range'_append_1]

/-- Groups of `G`, one after the other. -/
theorem flatMap_words {α : Type} (G : Nat) (f : Nat → α) (B : Nat) : (List.range B).flatMap (fun q => (List.range G).map fun j => f
    (q * G + j)) = (List.range (B * G)).map f := by
  induction B with
  | zero => simp
  | succ B ih =>
    rw [List.range_succ, List.flatMap_append, ih, Nat.succ_mul, List.range_add, List.map_append]
    simp

end Sys2Proof.Machine
end

