-- ==== Sys2Proof/Laws/Decode.lean ====
section
/-! SUPPORT. The fields of word 0 (rule R91), the packing of data bytes (rule R95) and the decoder's cases (rules R97 to R99). -/

namespace Sys2Proof

/-! ### Word 0 and its fields -/

@[simp] theorem opField_f1 (op : Byte) (lane : LaneId) (arg : Half) : opField (f1 op lane arg) = op := by
  apply BitVec.eq_of_getLsbD_eq
  intro i hi
  simp only [opField, f1, BitVec.getLsbD_extractLsb', BitVec.getLsbD_append]
  simp [hi]

@[simp] theorem laneField_f1 (op : Byte) (lane : LaneId) (arg : Half) : laneField (f1 op lane arg) = lane := by
  apply BitVec.eq_of_getLsbD_eq
  intro i hi
  simp only [laneField, f1, BitVec.getLsbD_extractLsb', BitVec.getLsbD_append]
  simp [hi]

@[simp] theorem argField_f1 (op : Byte) (lane : LaneId) (arg : Half) : argField (f1 op lane arg) = arg := by
  apply BitVec.eq_of_getLsbD_eq
  intro i hi
  simp only [argField, f1, BitVec.getLsbD_extractLsb', BitVec.getLsbD_append]
  simp [hi, show ¬ (16 + i < 8) by omega, show ¬ (16 + i - 8 < 8) by omega, show 16 + i - 8 - 8 = i by omega]

/-- A word 0 is its three fields (rule R91). -/
theorem f1_fields (w : Word) : f1 (opField w) (laneField w) (argField w) = w := by
  apply BitVec.eq_of_getLsbD_eq
  intro i hi
  simp only [opField, laneField, argField, f1, BitVec.getLsbD_append, BitVec.getLsbD_extractLsb']
  by_cases h1 : i < 8
  · simp [h1]
  · by_cases h2 : i - 8 < 8
    · simp [h1, h2, show 8 + (i - 8) = i by omega]
    · simp [h1, h2, show i - 8 - 8 < 16 by omega, show 16 + (i - 8 - 8) = i by omega]

/-- Words 0 with the same fields are the same. -/
theorem word0_ext {v w : Word} (ho : opField v = opField w) (hl : laneField v = laneField w) (ha : argField v = argField w) :
    v = w := by
  rw [← f1_fields v, ← f1_fields w, ho, hl, ha]

theorem opField_and (v w : Word) : opField (v &&& w) = opField v &&& opField w := by
  apply BitVec.eq_of_getLsbD_eq; intro i hi
  simp [opField, hi]

theorem laneField_and (v w : Word) : laneField (v &&& w) = laneField v &&& laneField w := by
  apply BitVec.eq_of_getLsbD_eq; intro i hi
  simp [laneField, hi]

theorem argField_and (v w : Word) : argField (v &&& w) = argField v &&& argField w := by
  apply BitVec.eq_of_getLsbD_eq; intro i hi
  simp [argField, hi]

/-- A mask and pattern select a word 0 field by field. -/
theorem and_eq_iff_fields (w m p : Word) :
    w &&& m = p ↔ opField w &&& opField m = opField p ∧ laneField w &&& laneField m = laneField p ∧
      argField w &&& argField m = argField p := by
  rw [← opField_and, ← laneField_and, ← argField_and]
  exact ⟨fun h => by rw [h]; exact ⟨rfl, rfl, rfl⟩, fun ⟨h1, h2, h3⟩ => word0_ext h1 h2 h3⟩

/-- The length of a command of word 0's fields (rule R92). -/
theorem commandLength_f1 (op : Byte) (lane : LaneId) (arg : Half) :
    commandLength (f1 op lane arg) = if op = 0x04#8 then 2 + (arg.toNat + 3) / 4 else 1 := by
  simp [commandLength]

theorem commandLength_pos (w : Word) : 0 < commandLength w := by
  unfold commandLength; split <;> omega

/-! ### Lists of words -/

@[simp] theorem hasAtLeast_iff {α : Type} (n : Nat) (l : List α) : hasAtLeast n l = true ↔ n ≤ l.length := by
  induction n generalizing l with
  | zero => simp [hasAtLeast]
  | succ n ih => cases l <;> simp [hasAtLeast, ih]

@[simp] theorem wordBytes_packWord (b0 b1 b2 b3 : Byte) : wordBytes (packWord b0 b1 b2 b3) = [b0, b1, b2, b3] := by
  simp only [wordBytes, packWord, List.cons.injEq, and_true]
  refine ⟨?_, ?_, ?_, ?_⟩ <;>
  · apply BitVec.eq_of_getLsbD_eq
    intro i hi
    simp only [BitVec.getLsbD_extractLsb', BitVec.getLsbD_append]
    first
      | simp [hi]; done
      | simp [hi, show ¬ (16 + i < 8) by omega, show ¬ (16 + i - 8 < 8) by omega, show 16 + i - 8 - 8 = i by omega]; done
      | simp [hi, show ¬ (24 + i < 8) by omega, show ¬ (24 + i - 8 < 8) by omega, show ¬ (24 + i - 8 - 8 < 8) by omega,
          show 24 + i - 8 - 8 - 8 = i by omega]

/-- The data words hold the bytes, then zeros (rule R95). -/
theorem flatMap_wordBytes_packBytes (data : List Byte) :
    ∃ pad, (packBytes data).flatMap wordBytes = data ++ pad := by
  induction data using packBytes.induct with
  | case1 => exact ⟨[], rfl⟩
  | case2 b0 => exact ⟨[0#8, 0#8, 0#8], by simp [packBytes]⟩
  | case3 b0 b1 => exact ⟨[0#8, 0#8], by simp [packBytes]⟩
  | case4 b0 b1 b2 => exact ⟨[0#8], by simp [packBytes]⟩
  | case5 b0 b1 b2 b3 bs ih =>
    obtain ⟨pad, h⟩ := ih
    exact ⟨pad, by simp [packBytes, h]⟩

/-- Unpacking the packed bytes gives them back (rule R95). -/
theorem unpackBytes_packBytes (data : List Byte) : unpackBytes data.length (packBytes data) = data := by
  obtain ⟨pad, h⟩ := flatMap_wordBytes_packBytes data
  rw [unpackBytes, h, List.take_left]

/-- `ceil(COUNT / 4)` data words (rule R93). -/
theorem packBytes_length (data : List Byte) : (packBytes data).length = (data.length + 3) / 4 := by
  induction data using packBytes.induct with
  | case1 => rfl
  | case2 => simp [packBytes]
  | case3 => simp [packBytes]
  | case4 => simp [packBytes]
  | case5 b0 b1 b2 b3 bs ih => simp only [packBytes, List.length_cons, ih]; omega

/-- There are COUNT bytes to unpack. -/
theorem unpackBytes_length {n : Nat} {ws : List Word} (h : (n + 3) / 4 ≤ ws.length) : (unpackBytes n ws).length = n := by
  have : (ws.flatMap wordBytes).length = 4 * ws.length := by
    clear h
    induction ws with
    | nil => rfl
    | cons w ws ih => simp only [List.flatMap_cons, List.length_append, ih, List.length_cons, wordBytes, List.length_nil]; omega
  rw [unpackBytes, List.length_take, this]
  omega

/-! ### The decoder's cases -/

@[simp] theorem decode_nil : decode [] = .incomplete := rfl

/-- A list of words decodes as a complete command when it is long enough, and is incomplete otherwise (rule R92). -/
theorem decode_cons (w : Word) (rest : List Word) :
    decode (w :: rest) = if commandLength w ≤ rest.length + 1 then decodeComplete w rest else .incomplete := by
  unfold decode
  simp only [hasAtLeast_iff, List.length_cons]

theorem needLaneZero_instr {w : Word} {d : Decoded} {i : Instr} (h : needLaneZero w d = .instr i) :
    laneField w = 0#8 ∧ d = .instr i := by
  unfold needLaneZero at h
  split at h
  · exact ⟨‹_›, h⟩
  · cases h

theorem needArgZero_instr {w : Word} {d : Decoded} {i : Instr} (h : needArgZero w d = .instr i) :
    argField w = 0#16 ∧ d = .instr i := by
  unfold needArgZero at h
  split at h
  · exact ⟨‹_›, h⟩
  · cases h

theorem needLaneZero_ne_incomplete {w : Word} {d : Decoded} (h : d ≠ .incomplete) : needLaneZero w d ≠ .incomplete := by
  unfold needLaneZero; split
  · exact h
  · exact nofun

theorem needArgZero_ne_incomplete {w : Word} {d : Decoded} (h : d ≠ .incomplete) : needArgZero w d ≠ .incomplete := by
  unfold needArgZero; split
  · exact h
  · exact nofun

/-- A complete command is never incomplete. -/
theorem decodeComplete_ne_incomplete (w : Word) (rest : List Word) : decodeComplete w rest ≠ .incomplete := by
  unfold decodeComplete
  split <;> first
    | with_reducible apply needLaneZero_ne_incomplete
      first
        | with_reducible apply needArgZero_ne_incomplete
          exact Decoded.noConfusion
        | exact Decoded.noConfusion
    | with_reducible apply needArgZero_ne_incomplete
      exact Decoded.noConfusion
    | exact Decoded.noConfusion

theorem decode_cons_incomplete (w : Word) (rest : List Word) :
    decode (w :: rest) = .incomplete ↔ rest.length + 1 < commandLength w := by
  rw [decode_cons]
  split
  · exact ⟨fun h => absurd h (decodeComplete_ne_incomplete w rest), fun h => by omega⟩
  · exact ⟨fun _ => by omega, fun _ => rfl⟩

/-- What the decoder reads from a complete command whose opcode is known: the arm of that opcode (rule R97). -/
theorem decodeComplete_of_op {w : Word} (rest : List Word) {op : Byte} (h : opField w = op) :
    decodeComplete w rest = decodeComplete (f1 op (laneField w) (argField w)) rest := by
  rw [← h, f1_fields]

/-! ### The opcode map -/

/-- A row of the opcode map selects a word 0 by its OP, and by the fields the row reserves (rules R97, R98). -/
theorem opcodeMap_selects_iff (w : Word) : ∀ r ∈ opcodeMap, (w &&& r.mask = r.pattern ↔
    opField w = opField r.pattern ∧ (laneField r.mask = 0xFF#8 → laneField w = 0#8) ∧ (argField r.mask = 0xFFFF#16 → argField w = 0#16)) := by
  have h : ∀ r ∈ opcodeMap, opField r.mask = 0xFF#8 ∧ laneField r.pattern = 0#8 ∧ argField r.pattern = 0#16 ∧
    (laneField r.mask = 0xFF#8 ∨ laneField r.mask = 0#8) ∧ (argField r.mask = 0xFFFF#16 ∨ argField r.mask = 0#16) := by decide
  intro r hr
  obtain ⟨h1, h2, h3, h4, h5⟩ := h r hr
  rw [and_eq_iff_fields, h1, h2, h3, show (0xFF#8 : Byte) = BitVec.allOnes 8 from rfl, BitVec.and_allOnes,
    show (0xFFFF#16 : Half) = BitVec.allOnes 16 from rfl]
  rcases h4 with h4 | h4 <;> rcases h5 with h5 | h5 <;> rw [h4, h5]
  · rw [show (0xFF#8 : Byte) = BitVec.allOnes 8 from rfl, show (0xFFFF#16 : Half) = BitVec.allOnes 16 from rfl, BitVec.and_allOnes, BitVec.and_allOnes]; simp
  · rw [show (0xFF#8 : Byte) = BitVec.allOnes 8 from rfl, BitVec.and_allOnes, BitVec.and_zero]; simp
  · rw [show (0xFFFF#16 : Half) = BitVec.allOnes 16 from rfl, BitVec.and_allOnes, BitVec.and_zero]; simp
  · rw [BitVec.and_zero, BitVec.and_zero]; simp

/-- The opcode map as opcodes and reserved fields (rule R97): a LANE or ARG that is masked is reserved. -/
theorem opcodeMap_fields : opcodeMap.map (fun r => (opField r.pattern, laneField r.mask, argField r.mask)) =
  [(0x01#8, 0xFF#8, 0#16), (0x02#8, 0#8, 0xFFFF#16), (0x03#8, 0xFF#8, 0xFFFF#16), (0x04#8, 0#8, 0#16), (0x05#8, 0#8, 0xFFFF#16),
   (0x06#8, 0xFF#8, 0xFFFF#16), (0x07#8, 0#8, 0xFFFF#16), (0x08#8, 0xFF#8, 0xFFFF#16), (0x09#8, 0xFF#8, 0xFFFF#16),
   (0x0A#8, 0xFF#8, 0xFFFF#16), (0x0B#8, 0xFF#8, 0xFFFF#16), (0x0C#8, 0xFF#8, 0xFFFF#16), (0x0D#8, 0xFF#8, 0xFFFF#16), (0x0E#8, 0xFF#8, 0xFFFF#16),
   (0x0F#8, 0xFF#8, 0#16)] := by decide

/-- The encoding of a command starts with its word 0. -/
@[simp] theorem encode_head (i : Instr) : (encode i).headD 0#32 = i.word0 := rfl

end Sys2Proof
end

