-- ==== Sys2Proof/Laws/Inv.lean ====
section
/-! SUPPORT. The parts of the invariant (Safety.lean), operation by operation: what each named operation keeps. -/

namespace Sys2Proof.Machine

/-! ### The buffer -/

/-- The invariant of the buffer group depends on these fields alone. -/
theorem bufferInv_congr {s t : State} (h : s.BufferInv) (hc : t.cfg = s.cfg) (hs : SameShape s t) (hm : t.mem = s.mem)
    (hz : s.bufState = .allocated → t.activeMask ≠ 0#16) : t.BufferInv := by
  obtain ⟨h1, h2, h3, h4, h5, h6, h7⟩ := hs
  simp only [State.BufferInv, State.SizedBuffer, State.EmptyBuffer, State.payloadOff, hc, h1, h2, h3, h4, h5, h6, h7, hm] at h ⊢
  exact ⟨h.1, fun ha => ⟨hz ha, (h.2.1 ha).2⟩, h.2.2⟩

/-- The invariant of the Transfer Engine depends on these fields alone. -/
theorem transferInv_congr {s t : State} (h : s.TransferInv) (hc : t.cfg = s.cfg) (hs : SameShape s t) (hm : t.mem = s.mem)
    (hq : t.completeMask = s.completeMask) (ht : SameTransfer s t) : t.TransferInv := by
  obtain ⟨h1, h2, h3, h4, h5, h6, h7⟩ := hs
  obtain ⟨t1, t2, t3, t4, -⟩ := ht
  have := cell_congr (s := s) (t := t) hc h4 hm
  simp only [State.TransferInv, ncells_congr hc h2, this, h1, t1, t2, t3, t4, hq] at h ⊢
  exact h

/-- While no transfer runs, the invariant of the Transfer Engine does not depend on the buffer. -/
theorem transferInv_idle {s t : State} (h : s.TransferInv) (hb : s.xferBusy = false) (ht : SameTransfer s t) : t.TransferInv := by
  obtain ⟨t1, t2, t3, t4, -⟩ := ht
  refine ⟨fun h => (by rw [t1, hb] at h; cases h), fun _ => ?_⟩
  rw [t2, t3, t4]; exact h.2 hb

/-- New bytes in canonical form, inside the payload, keep the buffer's invariant. -/
theorem bufferInv_storePayload {s : State} (h : s.BufferInv) (ha : s.bufState = .allocated) {m : Memory} (hm : Memory.wf m)
   (hr : ∀ c ∈ m, s.payloadOff ≤ c.1 ∧ c.1 < s.payloadOff + s.payloadBytes.toNat) : (storePayload m s).BufferInv := by
  refine ⟨hm, fun _ => ⟨(h.2.1 ha).1, ?_⟩, fun hu => ?_⟩
  · obtain ⟨h1, h2, h3, h4, h5, -⟩ := (h.2.1 ha).2
    exact ⟨h1, h2, h3, h4, h5, hr⟩
  · have : s.bufState = .unallocated := hu
    rw [ha] at this; cases this

/-- ZeroCells keeps it (rule R164). -/
theorem bufferInv_zeroCells {s : State} (h : s.BufferInv) (ha : s.bufState = .allocated) : (zeroCells s).BufferInv :=
  bufferInv_storePayload h ha (Memory.wf_clear h.1 ..) fun c hc => ((h.2.1 ha).2.2.2.2.2.2) c (Memory.clear_subset hc)

/-- A cycle's clear keeps it (rules R163, R180). -/
theorem bufferInv_clearForCycle {s : State} (h : s.BufferInv) (ha : s.bufState = .allocated) : (clearForCycle s).BufferInv := by
  rw [clearForCycle_eq]; split
  · exact bufferInv_zeroCells h ha
  · exact h

/-- ENCODE's stores keep it (rule R124). -/
theorem bufferInv_encodePayload {s : State} (hc : s.cfg.Admitted) (h : s.BufferInv) (ha : s.bufState = .allocated) {lane hd :
    Nat} {d : List Byte} (ho : hd + d.length ≤ s.capSlots.toNat) :
   (storePayload (encodePayload s.cfg s.payloadOff lane hd d s.mem) s).BufferInv := by
  refine bufferInv_storePayload h ha (wf_encodePayload h.1 ..) fun c hm => ?_
  rcases mem_orCells hm with hm | ⟨n, h1, h2, h3, h4⟩
  · exact ((h.2.1 ha).2.2.2.2.2.2) c hm
  · have hn : n < s.ncells := by
      rw [encodeBytes_length, Config.slotStart, ← Nat.add_mul] at h2
      exact Nat.lt_of_lt_of_le h2 (Nat.mul_le_mul_right _ ho)
    have := (h.2.1 ha).2.cellOffset_bounds hc hn
    omega

/-- A built buffer meets it (rule R160). -/
theorem bufferInv_buildBuffer {s : State} (hc : s.cfg.Admitted) (h : s.BufferInv) (hu : s.bufState = .unallocated) (hz :
    s.activeMask ≠ 0#16) (q : Nat) :
   (buildBuffer (4 * q) s).BufferInv := by
  have he := h.2.2 hu
  have hm : (buildBuffer (4 * q) s).mem = [] := by
    show Memory.clear s.mem _ _ = []
    rw [he.2.2.2.2.2.1]; rfl
  refine ⟨by rw [hm]; exact Memory.wf_nil, fun _ => ⟨hz, ?_⟩, nofun⟩
  obtain ⟨h1, h2, h3⟩ := buildBuffer_sizes hc (4 * q)
  exact ⟨h1, h2, h3, rfl, by simp, by rw [hm]; simp⟩

/-- TeardownBuffer keeps it (rule R162). -/
theorem bufferInv_teardownBuffer {s : State} (h : s.BufferInv) : (teardownBuffer s).BufferInv := by
  unfold teardownBuffer
  split
  · next hu => exact h
  · exact ⟨Memory.wf_nil, nofun, fun _ => ⟨rfl,rfl,rfl,rfl,rfl,rfl,rfl⟩⟩

/-- The end of the construction cycle leaves an empty buffer (rules R141, R162). -/
theorem bufferInv_endConstructionCycle {s : State} (h : s.BufferInv) (lane : LaneId) :
    (endConstructionCycle (removeLane lane s)).BufferInv := by
  unfold endConstructionCycle teardownBuffer removeLane
  split
  · next hu =>
    have hu : s.bufState = .unallocated := hu
    exact ⟨h.1, fun hx => absurd (show s.bufState = .allocated from hx) (by rw [hu]; nofun), h.2.2⟩
  · exact ⟨Memory.wf_nil, nofun, fun _ => ⟨rfl,rfl,rfl,rfl,rfl,rfl,rfl⟩⟩

/-! ### Masks, FAULT and DIAG -/

theorem fits_or_laneBit {m : LaneMask} {w i : Nat} (h : m.toNat < 2 ^ w) (hi : i < w) : (m ||| laneBit i).toNat < 2 ^ w := by
  rw [BitVec.toNat_or]; exact Nat.or_lt_two_pow h (laneBit_lt hi)
theorem fits_and {m n : LaneMask} {w : Nat} (h : m.toNat < 2 ^ w) : (m &&& n).toNat < 2 ^ w := by
  rw [BitVec.toNat_and]; exact Nat.lt_of_le_of_lt Nat.and_le_left h

/-- Setting a defined bit sets no reserved one (rules R240, R244). -/
theorem setBit_lt {r : Word} {n k : Nat} (h : r.toNat < 2 ^ k) (hn : n < k) : (setBit r n).toNat < 2 ^ k := by
  unfold setBit
  rw [BitVec.toNat_or]
  refine Nat.or_lt_two_pow h ?_
  have : 2 ^ n < 2 ^ k := Nat.pow_lt_pow_right (by omega) hn
  simp only [BitVec.toNat_shiftLeft, BitVec.toNat_ofNat, Nat.shiftLeft_eq]
  exact Nat.lt_of_le_of_lt (Nat.mod_le ..) (by simpa using this)

/-- A register with a bit set is not 0. -/
theorem setBit_ne_zero (r : Word) {n : Nat} (hn : n < 32) : setBit r n ≠ 0#32 := by
  intro h
  have : (setBit r n).getLsbD n = true := by
    unfold setBit; rw [BitVec.getLsbD_or, BitVec.getLsbD_shiftLeft]; simp [hn]
  rw [h] at this; simp at this

/-! ### The registry -/

/-- A lane that joins (rule R140). -/
theorem registryInv_addLane {s : State} (hm : s.MasksFit) (h : s.RegistryInv) {id : Nat} (d : Half) (hid :
    lowestFree s.cfg.bits s.activeMask = some id) :
   (addLane id d s).MasksFit ∧ (addLane id d s).RegistryInv := by
  have ⟨h1, h2, _⟩ := lowestFree_some.1 hid
  have h16 : id < 16 := by have := s.cfg.bits_le; omega
  have hle := popcount_le (s.activeMask ||| laneBit id)
  have hp := popcount_or_laneBit h16 h2
  refine ⟨⟨fits_or_laneBit hm.1 h1, hm.2⟩, ?_, ?_, fun hz => ?_⟩
  · rw [subset_iff]; intro j hj hc
    have := (subset_iff _ _).1 h.1 j hj hc
    show (s.activeMask ||| laneBit id).getLsbD j = true
    rw [getLsbD_or_laneBit, this, Bool.true_or]
  · show (s.laneCount + 1#5).toNat = popcount (s.activeMask ||| laneBit id)
    have := h.2.1
    rw [BitVec.toNat_add, hp, this]; simp; omega
  · have hz : s.activeMask ||| laneBit id = 0#16 := hz
    rw [hz] at hp; simp at hp

/-- A lane that leaves (rule R141). -/
theorem registryInv_removeLane {s : State} (hm : s.MasksFit) (h : s.RegistryInv) {lane : LaneId} (hl : s.laneActive lane = true) :
   (removeLane lane s).MasksFit ∧ (removeLane lane s).completeMask &&& ~~~(removeLane lane s).activeMask = 0#16 ∧ (removeLane lane s).laneCount.toNat = popcount (removeLane lane s).activeMask := by
  have ⟨h1, h2⟩ := laneActive_iff.1 hl
  have h16 : lane.toNat < 16 := by have := s.cfg.bits_le; omega
  have hp := popcount_and_not_laneBit h16 h2
  refine ⟨⟨fits_and hm.1, fits_and hm.2⟩, ?_, ?_⟩
  · rw [subset_iff]; intro j hj hc
    simp only [removeLane_completeMask, removeLane_activeMask, getLsbD_and_not_laneBit, Bool.and_eq_true] at hc ⊢
    exact ⟨(subset_iff _ _).1 h.1 j hj hc.1, hc.2⟩
  · show (s.laneCount - 1#5).toNat = popcount (s.activeMask &&& ~~~laneBit lane.toNat)
    have := h.2.1
    have := s.laneCount.isLt
    rw [BitVec.toNat_sub]; simp; omega

/-- A lane that completes (rules R142, R181). -/
theorem registryInv_markComplete {s : State} (hm : s.MasksFit) (h : s.RegistryInv) {lane : LaneId} (hl : s.laneActive lane = true) :
   (markComplete lane s).MasksFit ∧ (markComplete lane s).RegistryInv := by
  have ⟨h1, h2⟩ := laneActive_iff.1 hl
  refine ⟨⟨hm.1, fits_or_laneBit hm.2 h1⟩, ?_, h.2.1, h.2.2⟩
  rw [subset_iff]; intro j hj hc
  simp only [markComplete_completeMask, markComplete_activeMask, getLsbD_or_laneBit, Bool.or_eq_true, Bool.and_eq_true, decide_eq_true_eq] at hc ⊢
  rcases hc with hc | ⟨-, rfl⟩
  · exact (subset_iff _ _).1 h.1 j hj hc
  · exact h2

theorem or_ne_zero {m n : LaneMask} (h : m ≠ 0#16) : m ||| n ≠ 0#16 := by
  intro e; apply h
  rw [mask_eq_zero_iff] at e ⊢
  intro j hj; have := e j hj; rw [BitVec.getLsbD_or] at this; simp at this; simpa [hj] using this.1

/-! ### The whole invariant -/

theorem portInv_nil (s : State) (h : s.cmdBuf = []) : s.PortInv := by
  simp [State.PortInv, h]

/-- The invariant of a state with the same instance, FAULT, DIAG and `cmdBuf`, from its parts. -/
theorem inv_of_parts {s t : State} (hi : s.Inv) (hc : t.cfg = s.cfg) (h1 : t.MasksFit) (h2 : t.RegistryInv) (h3 : t.BufferInv) (h4 :
    t.TransferInv) (h5 : SameLog s t) (h6 : t.cmdBuf = s.cmdBuf) : t.Inv := by
  refine ⟨by rw [hc]; exact hi.1, h1, h2, h3, h4, ?_, ?_⟩
  · obtain ⟨a, b, c⟩ := h5
    simp only [State.LogInv, a, b, c]; exact hi.2.2.2.2.2.1
  · simp only [State.PortInv, h6]; exact hi.2.2.2.2.2.2

/-- A legal ENCODE's stores keep the invariant (rule R124). -/
theorem inv_storePayload_encode {s : State} (hi : s.Inv) (hb : s.xferBusy = false) (ha : s.bufState = .allocated) {lane h : Nat}
    {d : List Byte} (ho : h + d.length ≤ s.capSlots.toNat) :
    (storePayload (encodePayload s.cfg s.payloadOff lane h d s.mem) s).Inv :=
  inv_of_parts hi rfl hi.2.1 hi.2.2.1 (bufferInv_encodePayload hi.1 hi.2.2.2.1 ha ho)
    (transferInv_idle hi.2.2.2.2.1 hb ⟨rfl, rfl, rfl, rfl, rfl⟩) ⟨rfl, rfl, rfl⟩ rfl

/-- A response keeps the invariant. -/
theorem inv_respond {s : State} (hi : s.Inv) (v : Word) : (respond v s).Inv :=
  ⟨hi.1, hi.2.1, hi.2.2.1, hi.2.2.2.1, hi.2.2.2.2.1, hi.2.2.2.2.2.1, portInv_nil _ rfl⟩

/-- A fault keeps the invariant (rule R241). -/
theorem inv_raiseFault {s : State} (hi : s.Inv) (code : FaultCode) (w : Word) : (raiseFault code w s).Inv := by
  obtain ⟨ha, hm, hr, hb, ht, hl, hp⟩ := id hi
  have hn : code.number < 6 := by cases code <;> decide
  exact ⟨ha, hm, hr, hb, ht, ⟨setBit_lt hl.1 hn, hl.2.1, fun h => absurd h (setBit_ne_zero _ (by omega))⟩, portInv_nil _ rfl⟩

/-- An emit step keeps it (rule R201). -/
theorem inv_emitCell {s : State} (hi : s.Inv) (hx : s.xferBusy = true) (h : s.xferPos.toNat < s.ncells) : (emitCell s).Inv := by
  obtain ⟨ha, hm, hr, hb, ht, hl, hp⟩ := id hi
  obtain ⟨h1, h2, h3, h4, h5⟩ := ht.1 hx
  have hadd : (s.xferPos + 1#32).toNat = s.xferPos.toNat + 1 := by
    have := s.ncells_lt; rw [BitVec.toNat_add]; simp; omega
  refine ⟨ha, hm, hr, hb, ⟨fun _ => ⟨h1, h2, ?_, ?_, ?_⟩, fun h => absurd (show s.xferBusy = false from h) (by simp [hx])⟩, hl, hp⟩
  · rw [emitCell_xferPos, hadd]; exact h
  · rw [emitCell_xferPos, hadd, emitCell_frame, h4, List.range_succ, List.map_append]; rfl
  · simp

/-- The completion step keeps it (rule R201). -/
theorem inv_completeTransfer {s : State} (hi : s.Inv) : (completeTransfer s).Inv := by
  obtain ⟨ha, hm, hr, hb, ht, hl, hp⟩ := id hi
  exact ⟨ha, hm, hr, hb, ⟨nofun, fun _ => ⟨rfl, rfl, rfl⟩⟩, hl, hp⟩

/-- A word taken from the port keeps it (rules R31, R92). -/
theorem inv_acceptWord {s : State} (hi : s.Inv) (hd : decode s.cmdBuf = .incomplete) : (acceptWord s).Inv := by
  obtain ⟨ha, hm, hr, hb, ht, hl, hp⟩ := id hi
  unfold acceptWord
  split
  · exact hi
  · next w rest hw =>
    refine ⟨ha, hm, hr, hb, ht, hl, ?_⟩
    cases hcb : s.cmdBuf with
    | nil => simp [State.PortInv]; exact commandLength_pos w
    | cons w0 l =>
      rw [hcb, decode_cons_incomplete] at hd
      simp [State.PortInv]; omega

end Sys2Proof.Machine
end

