-- ==== Sys2Proof/Laws/ChannelHost.lean ====
section
/-! SUPPORT. What a host program does when it is carried out (rules R5, R103), and what an UPDATE encodes (rules R223, R224). -/

namespace Sys2Proof.Machine

/-! ### Programs -/

@[simp] theorem perform_done {α : Type} (a : α) (s : State) : (HostProgram.done a).perform s = some (a, s) := rfl

/-- A command that is performed on a block in which no transfer runs: its response and its effect (rule R5). -/
theorem callResult_of_performs {i : Instr} {s u : State} {v : Word} (h : Performs i s v u) (hb : s.xferBusy = false) :
    callResult i s = some (v, respond v u) := by
  simp [callResult, hb, h.exec]

/-- A call of a command that is performed goes on with its response. -/
theorem perform_call {α : Type} {i : Instr} {s u : State} {v : Word} (h : Performs i s v u) (hb : s.xferBusy = false)
    (next : Word → HostProgram α) : (HostProgram.call i next).perform s = (next v).perform (respond v u) := by
  simp only [HostProgram.perform, callResult_of_performs h hb]

/-- WAIT_DONE on a block in which no transfer runs: one poll, answered 1 (rules R103, R185). -/
theorem perform_waitDone {α : Type} {s : State} (hb : s.xferBusy = false) (next : HostProgram α) :
    (HostProgram.waitDone next).perform s = next.perform (respond 1#32 s) := by
  have := callResult_of_performs (.isTransferDone s) hb
  simp only [HostProgram.perform, this, State.xferDone, hb]; rfl

/-! ### The actions of a program -/

@[simp] theorem actions_done {α : Type} (a : α) (rs : List Word) : (HostProgram.done a).actions rs = [] := rfl

@[simp] theorem actions_call {α : Type} (i : Instr) (next : Word → HostProgram α) (r : Word) (rs : List Word) :
    (HostProgram.call i next).actions (r :: rs) = syncCall i ++ (next r).actions rs := rfl

@[simp] theorem actions_waitDone {α : Type} (next : HostProgram α) (rs : List Word) :
    (HostProgram.waitDone next).actions rs = .waitDone :: next.actions rs := rfl

@[simp] theorem andThen_done {α β : Type} (a : α) (q : α → HostProgram β) : (HostProgram.done a).andThen q = q a := rfl

@[simp] theorem andThen_call {α β : Type} (i : Instr) (next : Word → HostProgram α) (q : α → HostProgram β) :
    (HostProgram.call i next).andThen q = .call i fun r => (next r).andThen q := rfl

theorem andThen_assoc {α β γ : Type} (p : HostProgram α) (q : α → HostProgram β) (k : β → HostProgram γ) :
    (p.andThen q).andThen k = p.andThen fun a => (q a).andThen k := by
  induction p with
  | done a => rfl
  | call i next ih => simp only [HostProgram.andThen, ih]
  | waitDone next ih => simp only [HostProgram.andThen, ih]

theorem andThen_done_right {α : Type} (p : HostProgram α) : p.andThen .done = p := by
  induction p with
  | done a => rfl
  | call i next ih => simp only [HostProgram.andThen, ih]
  | waitDone next ih => simp only [HostProgram.andThen, ih]

/-- Strips that each make one call: the calls in order, then what follows. -/
theorem actions_eachStrip {β : Type} {p : ChannelMethod → HostProgram ChannelMethod} {i : ChannelMethod → Instr}
    {g : ChannelMethod → Word → ChannelMethod} {cs : List ChannelMethod} (hp : ∀ c ∈ cs, p c = .call (i c) fun r => .done (g c r))
    (k : List ChannelMethod → HostProgram β) {rs : List Word} (hl : rs.length = cs.length) (qs : List Word) :
    ((eachStrip p cs).andThen k).actions (rs ++ qs) =
      cs.flatMap (fun c => syncCall (i c)) ++ (k (List.zipWith g cs rs)).actions qs := by
  induction cs generalizing rs k with
  | nil => rw [List.eq_nil_of_length_eq_zero hl]; rfl
  | cons c cs ih =>
    obtain ⟨r, rs, rfl⟩ := List.exists_cons_of_length_eq_add_one hl
    have := ih (fun c h => hp c (by simp [h])) (fun cs => k (g c r :: cs)) (rs := rs) (by simpa using hl)
    simp [eachStrip, hp c (by simp), andThen_assoc, this]

/-- The chained ENCODEs: each has the response before it as its handle (rule R223). -/
theorem actions_encodeEach {α : Type} {lane : LaneId} (k : Word → HostProgram α) {chunks : List (List Byte)} {h : Word} {hs qs : List Word}
    (hl : hs.length = chunks.length) :
    ∃ h', (encodeEach lane chunks h k).actions (hs ++ qs) =
      (List.zipWith (fun bytes h => syncCall (.encode lane h bytes)) chunks (h :: hs)).flatten ++ (k h').actions qs := by
  induction chunks generalizing h hs with
  | nil => exact ⟨h, by rw [List.eq_nil_of_length_eq_zero hl]; rfl⟩
  | cons d ds ih =>
    obtain ⟨r, hs, rfl⟩ := List.exists_cons_of_length_eq_add_one hl
    obtain ⟨h', e⟩ := ih (h := r) (hs := hs) (by simpa using hl)
    exact ⟨h', by simp [encodeEach, e]⟩

/-! ### Frame size and registration -/

/-- RESET_PAD rounds the quotient up (rule R222). -/
theorem resetPad_eq_ceil (c : ChannelMethod) (h : 0 < c.byteSendTimeUs) :
    c.resetPad = ⌈(c.resetTimeUs / c.byteSendTimeUs : ℚ)⌉₊ := by
  have hq : (0 : ℚ) < c.byteSendTimeUs := by exact_mod_cast h
  refine eq_of_forall_ge_iff fun n => ?_
  rw [Nat.ceil_le, div_le_iff₀ hq, ChannelMethod.resetPad, ← Nat.ceilDiv_eq_add_pred_div, ceilDiv_le_iff_le_mul h]
  exact_mod_cast Iff.of_eq (by rw [Nat.mul_comm])

/-- The frame size R222 gives is the one that is sent. -/
theorem dataSize_eq_some {c : ChannelMethod} {d : Half} (h : 0 < c.byteSendTimeUs)
    (hd : d.toNat = c.lead + c.pixelCount * c.pixelSize + c.trail + ⌈(c.resetTimeUs / c.byteSendTimeUs : ℚ)⌉₊) : c.dataSize = some d := by
  rw [← resetPad_eq_ceil c h] at hd
  have := d.isLt
  rw [ChannelMethod.dataSize, ChannelMethod.frameSize, ← hd, if_pos ⟨h, by omega⟩, BitVec.ofNat_toNat, BitVec.setWidth_eq]

/-- A larger one is refused (rule R222). -/
theorem dataSize_eq_none {c : ChannelMethod}
    (hd : 65535 < c.lead + c.pixelCount * c.pixelSize + c.trail + ⌈(c.resetTimeUs / c.byteSendTimeUs : ℚ)⌉₊) : c.dataSize = none := by
  rw [ChannelMethod.dataSize, if_neg]
  rintro ⟨h, h'⟩
  rw [ChannelMethod.frameSize, resetPad_eq_ceil c h] at h'
  omega

/-- A strip that was not registered before sends REGISTER_LANE (rule R221). -/
theorem register_eq {c : ChannelMethod} {d : Half} (hp : c.phase = .uninitialized) (hl : c.laneId = none) (hd : c.dataSize = some d) :
    c.register = .call (.registerLane d) fun r => .done (c.after (.registered r)) := by
  simp only [ChannelMethod.register, hp, hl, hd]

/-- What REGISTER_LANE's response makes of the strip (rule R221). -/
theorem after_registered {c : ChannelMethod} (hp : c.phase = .uninitialized) (hl : c.laneId = none) (r : Word) :
    c.after (.registered r) =
      if r = 0x000000FF#32 then { c with phase := .nonFunctional } else { c with laneId := some (r.setWidth 8) } := by
  simp only [ChannelMethod.after, hp, hl]; rfl

/-- A non-functional strip stays so (rule R221). -/
theorem after_nonFunctional {c : ChannelMethod} (hp : c.phase = .nonFunctional) (e : ChannelEvent) : c.after e = c := by
  simp only [ChannelMethod.after, hp]

/-- UPDATE of a strip that may send it (rule R223). -/
theorem update_eq {α : Type} {c : ChannelMethod} {lane : LaneId} {wait : Bool} {f : Frame α c} (hl : c.laneId = some lane)
    (hm : c.mayUpdate = true) (hp : f.pixels ≠ []) :
    c.update wait f =
      if wait then .waitDone ((c.after (.polled 1#32)).fillFrame lane f.chunks) else c.fillFrame lane f.chunks := by
  unfold ChannelMethod.update
  split
  · next h => rw [h] at hl; cases hl
  · next h => exact absurd h hp
  · next l _ _ h _ => rw [h] at hl; cases hl; rw [if_pos hm]

/-! ### What an UPDATE encodes -/

/-- A frame's pixels, where there is one to show (rule R224). -/
theorem framePixels_eq {α : Type} (count : Nat) {pixels : List α} (serialize : α → List Byte) (h : pixels ≠ []) :
    framePixels count pixels serialize =
      (List.range count).map fun p => ((pixels[p % pixels.length]?).map serialize).getD [] := by
  unfold framePixels pixelIndex
  have hp := List.length_pos_of_ne_nil h
  induction List.range count with
  | nil => rfl
  | cons p ps ih =>
    have : p % pixels.length < pixels.length := Nat.mod_lt _ hp
    simp [List.getElem?_eq_getElem this, ih]

/-- The bytes an UPDATE encodes, in order (rule R223). -/
theorem Frame.chunks_flatten {α : Type} {c : ChannelMethod} (f : Frame α c) (h : f.pixels ≠ []) :
    f.chunks.flatten = f.leading.toList ++
      (List.range c.pixelCount).flatMap (fun p =>
        ((f.pixels[p % f.pixels.length]?).map fun x => (f.serialize (f.shader x)).toList).getD []) ++ f.trailing.toList := by
  have cut (n : Nat) (v : Vector Byte n) : (if 0 < n then [v.toList] else []).flatten = v.toList := by
    split
    · simp
    · next h0 =>
      have : v.toList.length = 0 := by rw [Vector.length_toList]; omega
      rw [List.eq_nil_of_length_eq_zero this]; rfl
  simp only [Frame.chunks, List.flatten_append, cut, framePixels_eq _ _ h, List.flatMap]

/-- An UPDATE encodes LEAD + pixelCount * PixelSize + TRAIL bytes (rule R222). -/
theorem Frame.chunks_flatten_length {α : Type} {c : ChannelMethod} (f : Frame α c) (h : f.pixels ≠ []) :
    f.chunks.flatten.length = c.lead + c.pixelCount * c.pixelSize + c.trail := by
  have hp := List.length_pos_of_ne_nil h
  have pixels (ps : List Nat) : (ps.flatMap fun p =>
      ((f.pixels[p % f.pixels.length]?).map fun x => (f.serialize (f.shader x)).toList).getD []).length = ps.length * c.pixelSize := by
    induction ps with
    | nil => simp
    | cons p ps ih =>
      have : p % f.pixels.length < f.pixels.length := Nat.mod_lt _ hp
      rw [List.flatMap_cons, List.length_append, ih]
      simp [List.getElem?_eq_getElem this, Nat.add_mul, Nat.add_comm]
  rw [f.chunks_flatten h]
  simp only [List.length_append, pixels, Vector.length_toList, List.length_range]

/-! ### The chained ENCODEs -/

/-- `h = ENCODE lane, h, bytes` for each list of bytes has the effect of one ENCODE of all the bytes, and hands on the handle behind
them (rules R94, R223). -/
theorem perform_encodeEach {α : Type} {lane : LaneId} (k : Word → HostProgram α) (chunks : List (List Byte)) :
    ∀ {s : State} {h : Word}, s.Inv → s.xferBusy = false → s.laneActive lane = true → s.bufState = .allocated →
      h.toNat + chunks.flatten.length ≤ s.capSlots.toNat →
      ∃ rs cb, (encodeEach lane chunks h k).perform s =
        (k (BitVec.ofNat 32 (h.toNat + chunks.flatten.length))).perform
          { s with mem := encodePayload s.cfg s.payloadOff lane.toNat h.toNat chunks.flatten s.mem, responses := rs, cmdBuf := cb } := by
  induction chunks with
  | nil =>
    intro s h hi hb hl ha ho
    exact ⟨s.responses, s.cmdBuf, by simp [encodeEach, encodePayload, encodeBytes, orCells]⟩
  | cons d ds ih =>
    intro s h hi hb hl ha ho
    rw [List.flatten_cons, List.length_append] at ho
    have hcap := s.capSlots.isLt
    have hv : (BitVec.ofNat 32 (h.toNat + d.length)).toNat = h.toNat + d.length := by simp; omega
    have ho₁ : h.toNat + d.length ≤ s.capSlots.toNat := by omega
    have hi' := inv_respond (inv_storePayload_encode (lane := lane.toNat) hi hb ha ho₁) (BitVec.ofNat 32 (h.toNat + d.length))
    obtain ⟨rs, cb, e⟩ := ih (h := BitVec.ofNat 32 (h.toNat + d.length)) hi' hb hl ha (by rw [hv]; show _ ≤ s.capSlots.toNat; omega)
    refine ⟨rs, cb, ?_⟩
    rw [encodeEach, perform_call (performs_encode hi hb hl ha ho₁) hb, e, hv, List.flatten_cons, List.length_append, Nat.add_assoc,
      encodePayload_append]
    rfl

end Sys2Proof.Machine
end

