-- ==== Sys2Proof/Laws/PerInstr.lean ====
section
/-! SUPPORT. Facts about every command as syntax, one lemma per constructor. `WordCount`: the encoding of a command that can be encoded
has as many words as its word 0 says (rules R92, R93). -/

namespace Sys2Proof.Laws

/-- The command's words are as many as the decoder will wait for (rule R92). -/
def WordCount.Statement (i : Instr) : Prop :=
  i.wf = true → (Sys2Proof.encode i).length = commandLength i.word0

theorem WordCount.registerLane (dataSize : Half) : WordCount.Statement (.registerLane dataSize) := fun _ => by
  simp [Sys2Proof.encode, Instr.operandWords, Instr.word0, commandLength_f1]

theorem WordCount.deregisterLane (lane : LaneId) : WordCount.Statement (.deregisterLane lane) := fun _ => by
  simp [Sys2Proof.encode, Instr.operandWords, Instr.word0, commandLength_f1]

theorem WordCount.beginFill : WordCount.Statement .beginFill := fun _ => by
  simp [Sys2Proof.encode, Instr.operandWords, Instr.word0, commandLength_f1]

theorem WordCount.encode (lane : LaneId) (handle : Word) (data : List Byte) : WordCount.Statement (.encode lane handle data) :=
  fun h => by
    have hl : data.length ≤ 65535 := by simpa [Instr.wf] using h
    simp [Sys2Proof.encode, Instr.operandWords, Instr.word0, commandLength_f1, packBytes_length, Nat.mod_eq_of_lt (show data.length < 65536 by omega)]
    omega

theorem WordCount.endFill (lane : LaneId) : WordCount.Statement (.endFill lane) := fun _ => by
  simp [Sys2Proof.encode, Instr.operandWords, Instr.word0, commandLength_f1]

theorem WordCount.isTransferDone : WordCount.Statement .isTransferDone := fun _ => by
  simp [Sys2Proof.encode, Instr.operandWords, Instr.word0, commandLength_f1]

theorem WordCount.markLaneComplete (lane : LaneId) : WordCount.Statement (.markLaneComplete lane) := fun _ => by
  simp [Sys2Proof.encode, Instr.operandWords, Instr.word0, commandLength_f1]

theorem WordCount.allLanesComplete : WordCount.Statement .allLanesComplete := fun _ => by
  simp [Sys2Proof.encode, Instr.operandWords, Instr.word0, commandLength_f1]

theorem WordCount.noLanesComplete : WordCount.Statement .noLanesComplete := fun _ => by
  simp [Sys2Proof.encode, Instr.operandWords, Instr.word0, commandLength_f1]

theorem WordCount.resetCompletion : WordCount.Statement .resetCompletion := fun _ => by
  simp [Sys2Proof.encode, Instr.operandWords, Instr.word0, commandLength_f1]

theorem WordCount.construct : WordCount.Statement .construct := fun _ => by
  simp [Sys2Proof.encode, Instr.operandWords, Instr.word0, commandLength_f1]

theorem WordCount.destruct : WordCount.Statement .destruct := fun _ => by
  simp [Sys2Proof.encode, Instr.operandWords, Instr.word0, commandLength_f1]

theorem WordCount.resetBufferForCycle : WordCount.Statement .resetBufferForCycle := fun _ => by
  simp [Sys2Proof.encode, Instr.operandWords, Instr.word0, commandLength_f1]

theorem WordCount.triggerTransferIfReady : WordCount.Statement .triggerTransferIfReady := fun _ => by
  simp [Sys2Proof.encode, Instr.operandWords, Instr.word0, commandLength_f1]

theorem WordCount.readStatus (sel : Half) : WordCount.Statement (.readStatus sel) := fun _ => by
  simp [Sys2Proof.encode, Instr.operandWords, Instr.word0, commandLength_f1]

end Sys2Proof.Laws
end

