-- ==== Sys2Proof/Laws/Step.lean ====
section
/-! SUPPORT. What a step of the machine can do, said once (`step_next`): nothing, the host's action, the Command Unit's, the Transfer
Engine's, each only where that agent is enabled. -/

namespace Sys2Proof.Machine

/-! ### The choice of agent -/

/-- The chosen agent is enabled. -/
theorem resolveAgent_ready {c : Agent} {h cu te : Bool} (hany : h = true ∨ cu = true ∨ te = true) :
    (resolveAgent c h cu te = .host → h = true) ∧ (resolveAgent c h cu te = .commandUnit → cu = true) ∧
      (resolveAgent c h cu te = .transferEngine → te = true) := by
  cases c <;> cases h <;> cases cu <;> cases te <;> simp_all [resolveAgent]

/-- The agent a state chooses is enabled; none is chosen only where none is enabled, and then no draw is made (rules R200, R247, R253). -/
theorem chooseAgent_cases (s : State) :
    (s.chooseAgent = (none, s.sched) ∧ s.hostReady = false ∧ s.commandReady = false ∧ s.xferBusy = false) ∨
    ∃ a d, s.chooseAgent = (some a, d) ∧ (a = .host → s.hostReady = true) ∧ (a = .commandUnit → s.commandReady = true) ∧
      (a = .transferEngine → s.xferBusy = true) := by
  have several (h cu te : Bool) (hany : h = true ∨ cu = true ∨ te = true) (hh : s.hostReady = h) (hc : s.commandReady = cu)
      (ht : s.xferBusy = te)
      (he : s.chooseAgent = (some (resolveAgent (s.sched.value Config.agentChoice) h cu te), s.sched.pop)) :
      ∃ a d, s.chooseAgent = (some a, d) ∧ (a = .host → s.hostReady = true) ∧ (a = .commandUnit → s.commandReady = true) ∧
        (a = .transferEngine → s.xferBusy = true) :=
    ⟨_, _, he, fun h => hh.trans ((resolveAgent_ready hany).1 h), fun h => hc.trans ((resolveAgent_ready hany).2.1 h),
      fun h => ht.trans ((resolveAgent_ready hany).2.2 h)⟩
  cases hh : s.hostReady <;> cases hc : s.commandReady <;> cases ht : s.xferBusy
  · exact .inl ⟨by simp only [State.chooseAgent, hh, hc, ht], rfl, rfl, rfl⟩
  · exact .inr ⟨.transferEngine, s.sched, by simp only [State.chooseAgent, hh, hc, ht], nofun, nofun, fun _ => rfl⟩
  · exact .inr ⟨.commandUnit, s.sched, by simp only [State.chooseAgent, hh, hc, ht], nofun, fun _ => rfl, nofun⟩
  · exact .inr (by simpa only [hh, hc, ht] using several _ _ _ (by simp) hh hc ht (by simp only [State.chooseAgent, hh, hc, ht]))
  · exact .inr ⟨.host, s.sched, by simp only [State.chooseAgent, hh, hc, ht], fun _ => rfl, nofun, nofun⟩
  all_goals
    exact .inr (by simpa only [hh, hc, ht] using several _ _ _ (by simp) hh hc ht (by simp only [State.chooseAgent, hh, hc, ht]))

/-- The state an agent acts on: the same but for the draws of the schedule. -/
def withDraws (d : Draws Agent) (s : State) : State := { s with sched := d }

/-- Everything a step can do. -/
theorem step_cases (s : State) :
    (step s = .next s ∧ s.hostReady = false ∧ s.commandReady = false ∧ s.xferBusy = false) ∨
    ∃ d, (s.hostReady = true ∧ step s = .next (hostStep (withDraws d s))) ∨
      (s.commandReady = true ∧ step s = commandStep (withDraws d s)) ∨
      (s.xferBusy = true ∧ step s = transferStep (withDraws d s)) := by
  rcases chooseAgent_cases s with ⟨h, h1, h2, h3⟩ | ⟨a, d, h, h1, h2, h3⟩
  · exact .inl ⟨by simp only [step, h], h1, h2, h3⟩
  · refine .inr ⟨d, ?_⟩
    cases a with
    | host => exact .inl ⟨h1 rfl, by simp only [step, h]; rfl⟩
    | commandUnit => exact .inr (.inl ⟨h2 rfl, by simp only [step, h]; rfl⟩)
    | transferEngine => exact .inr (.inr ⟨h3 rfl, by simp only [step, h]; rfl⟩)

/-! ### Where one agent alone is enabled -/

theorem step_of_command {s : State} (hh : s.hostReady = false) (hc : s.commandReady = true) (ht : s.xferBusy = false) :
    step s = commandStep s := by
  have : s.chooseAgent = (some .commandUnit, s.sched) := by simp only [State.chooseAgent, hh, hc, ht]
  simp only [step, this]; rfl

theorem step_of_transfer {s : State} (hh : s.hostReady = false) (hc : s.commandReady = false) (ht : s.xferBusy = true) :
    step s = transferStep s := by
  have : s.chooseAgent = (some .transferEngine, s.sched) := by simp only [State.chooseAgent, hh, hc, ht]
  simp only [step, this]; rfl

theorem step_of_none {s : State} (hh : s.hostReady = false) (hc : s.commandReady = false) (ht : s.xferBusy = false) :
    step s = .next s := by
  have : s.chooseAgent = (none, s.sched) := by simp only [State.chooseAgent, hh, hc, ht]
  simp only [step, this]

/-- Where several agents are enabled and the draw is the Command Unit, the step is its step (log 4). -/
theorem step_of_command_chosen {s : State} (hc : s.commandReady = true) (ho : s.hostReady = true ∨ s.xferBusy = true)
    (hd : s.sched.value Config.agentChoice = .commandUnit) : step s = commandStep { s with sched := s.sched.pop } := by
  have : s.chooseAgent = (some .commandUnit, s.sched.pop) := by
    cases hh : s.hostReady <;> cases ht : s.xferBusy
    · simp [hh, ht] at ho
    all_goals simp only [State.chooseAgent, hh, hc, ht, hd, resolveAgent, if_true]
  simp only [step, this]; rfl

/-! ### The agents -/

/-- The Command Unit's step: a word, an illegal command, or a command (rules R31, R90, R242). -/
theorem commandStep_cases (s : State) :
    (decode s.cmdBuf = .incomplete ∧ commandStep s = .next (acceptWord s)) ∨
    (∃ why, decode s.cmdBuf = .illegal why ∧ commandStep s = .next (raiseFault .illegalCmd (s.cmdBuf.headD 0#32) s)) ∨
    ∃ i, decode s.cmdBuf = .instr i ∧ commandStep s = exec i s := by
  unfold commandStep
  cases h : decode s.cmdBuf with
  | incomplete => exact .inl ⟨rfl, rfl⟩
  | illegal why => exact .inr (.inl ⟨why, rfl, rfl⟩)
  | instr i => exact .inr (.inr ⟨i, rfl, rfl⟩)

/-- The Transfer Engine's step: an emit, the completion, or (in no reachable state) a cell outside the region. -/
theorem transferStep_next {s t : State} (h : transferStep s = .next t) :
    (s.xferPos.toNat < s.ncells ∧ t = emitCell s) ∨ (s.ncells ≤ s.xferPos.toNat ∧ t = completeTransfer s) := by
  unfold transferStep at h
  split at h
  · split at h
    · exact .inl ⟨‹_›, (Host.Outcome.next.inj h).symm⟩
    · cases h
  · exact .inr ⟨by omega, (Host.Outcome.next.inj h).symm⟩

/-- The host's step: a word sent, a response read, a poll begun or read, a reset; or it waits (rules R90, R103, R260). -/
theorem hostStep_cases (s : State) :
    hostStep s = s ∨
    (∃ w rest, s.host = .send w :: rest ∧ hostStep s = sendWord w { s with host := rest }) ∨
    (∃ rest, s.host = .waitDone :: rest ∧ hostStep s = sendWord Instr.isTransferDone.word0 { s with host := .awaitDone s.outstanding :: rest }) ∨
    (∃ r rs hs, s.responses = r :: rs ∧ hostStep s = readResponse r rs { s with host := hs }) ∨
    ∃ rest, s.host = .reset :: rest ∧ hostStep s = resetBlock { s with host := rest } := by
  unfold hostStep
  split
  · exact .inl rfl
  · next w rest h => exact .inr (.inl ⟨w, rest, h, rfl⟩)
  · next rest h =>
    split
    · exact .inl rfl
    · next r rs hr => exact .inr (.inr (.inr (.inl ⟨r, rs, rest, hr, rfl⟩)))
  · next rest h => exact .inr (.inr (.inl ⟨rest, h, rfl⟩))
  · next rest h =>
    split
    · exact .inl rfl
    · next r rs hr => exact .inr (.inr (.inr (.inl ⟨r, rs, _, hr, rfl⟩)))
  · next rest h => exact .inr (.inr (.inr (.inr ⟨rest, h, rfl⟩)))

/-! ### Runs -/

/-- A run's first step, for any machine. -/
theorem run_succ_of_step (M : Host.Core) {s t : M.State} {n : Nat} (h : M.step s = .next t) : M.run (n + 1) s = M.run n t := by
  simp only [Host.Core.run, h]

/-- A run's first step. -/
theorem run_succ {s t : State} {n : Nat} (h : step s = .next t) : Sys2Proof.core.run (n + 1) s = Sys2Proof.core.run n t :=
  run_succ_of_step Sys2Proof.core h

end Sys2Proof.Machine
end

