-- ==== Sys2Proof/Laws/Runs.lean ====
section
/-! SUPPORT. What runs rest on: whose step a step is, what each agent's step leaves alone, and the queue of whole commands on the port
(rules R90, R92, R202). -/

namespace Sys2Proof.Machine

/-! ### The chosen agent -/

/-- A step is that of the agent chosen. -/
theorem step_of_chosen {s : State} {a : Agent} (h : s.chooseAgent.1 = some a) :
    step s = agentStep a (withDraws s.chooseAgent.2 s) := by
  unfold step
  split
  · next h' => rw [h'] at h; cases h
  · next a' d h' => rw [h'] at h ⊢; cases h; rfl

/-- The agent chosen is enabled. -/
theorem ready_of_chosen {s : State} {a : Agent} (h : s.chooseAgent.1 = some a) :
    (a = .host → s.hostReady = true) ∧ (a = .commandUnit → s.commandReady = true) ∧ (a = .transferEngine → s.xferBusy = true) := by
  rcases chooseAgent_cases s with ⟨e, -⟩ | ⟨b, d, e, h1, h2, h3⟩
  · rw [e] at h; cases h
  · rw [e] at h; cases h; exact ⟨h1, h2, h3⟩

/-- Where an agent is enabled one is chosen. -/
theorem chosen_of_ready {s : State} (h : s.hostReady = true ∨ s.commandReady = true ∨ s.xferBusy = true) :
    ∃ a, s.chooseAgent.1 = some a := by
  rcases chooseAgent_cases s with ⟨e, h1, h2, h3⟩ | ⟨b, d, e, -⟩
  · simp [h1, h2, h3] at h
  · exact ⟨b, by rw [e]⟩

/-! ### The host's step -/

/-- A host's step that is no reset touches the port, the responses, its list of actions and what it has read, and nothing else. -/
theorem hostStep_frame (s : State) (h : s.host.head? ≠ some .reset) :
    ∃ p rs hs rc, hostStep s = { s with port := p, responses := rs, host := hs, received := rc } := by
  rcases hostStep_cases s with e | ⟨w, rest, e1, e⟩ | ⟨rest, e1, e⟩ | ⟨r, rs, hs, e1, e⟩ | ⟨rest, e1, e⟩
  · exact ⟨_, _, _, _, e⟩
  · exact ⟨_, _, _, _, e⟩
  · exact ⟨_, _, _, _, e⟩
  · exact ⟨_, _, _, _, e⟩
  · rw [e1] at h; simp at h

theorem head_ne_reset {s : State} (h : .reset ∉ s.host) : s.host.head? ≠ some .reset := fun e => h (List.mem_of_head? e)

theorem reset_notMem_afterPoll {older : Nat} {r : Word} {rest : List HostAction} (h : .reset ∉ rest) : .reset ∉ afterPoll older r rest := by
  cases older with
  | zero => simp only [afterPoll]; split <;> simp [h]
  | succ n => simp [afterPoll, h]

theorem reset_notMem_hostStep {s : State} (h : .reset ∉ s.host) : .reset ∉ (hostStep s).host := by
  unfold hostStep
  split
  · exact h
  · next w rest e => rw [e] at h; simpa [sendWord] using h
  · next rest e =>
    split
    · exact h
    · rw [e] at h; simpa [readResponse] using h
  · next rest e => rw [e] at h; simpa [sendWord] using h
  · next older rest e =>
    split
    · exact h
    · rw [e] at h; simpa [readResponse] using reset_notMem_afterPoll (by simpa using h)
  · next rest e => rw [e] at h; simp at h

/-! ### The other agents' steps -/

/-- The Command Unit never touches the host's list. -/
theorem commandStep_host {s t : State} (h : commandStep s = .next t) : t.host = s.host := by
  rcases commandStep_cases s with ⟨-, e⟩ | ⟨why, -, e⟩ | ⟨i, -, e⟩
  · rw [e] at h; cases h; unfold acceptWord; split <;> rfl
  · rw [e] at h; cases h; rfl
  · rw [e] at h
    rcases exec_next h with ⟨-, -, rfl⟩ | ⟨v, u, hp, rfl⟩ | ⟨c, -, rfl⟩
    · rfl
    · exact hp.sameOutside.2.2.1
    · rfl

/-- The Command Unit's step with a complete command that is not held answers it (rules R90, R241). -/
theorem commandStep_answered {s t : State} (hc : s.commandReady = true) (hd : decode s.cmdBuf ≠ .incomplete)
    (h : commandStep s = .next t) : (∃ v, Answered v s t) ∧ SameOutside s t := by
  rcases commandStep_cases s with ⟨e, -⟩ | ⟨why, -, e⟩ | ⟨i, hi, e⟩
  · exact absurd e hd
  · rw [e] at h; cases h; exact ⟨⟨_, rfl, rfl⟩, by simp [SameOutside]⟩
  · rw [e] at h
    simp [State.commandReady, hi] at hc
    rcases exec_next h with ⟨h1, h2, -⟩ | ⟨v, u, hp, e⟩ | ⟨c, -, e⟩
    · simp [h1, h2] at hc
    · subst e
      exact ⟨⟨v, by simp [Answered, hp.answered.1]⟩, by simpa [SameOutside] using hp.sameOutside⟩
    · subst e; exact ⟨⟨_, rfl, rfl⟩, by simp [SameOutside]⟩

/-- The Transfer Engine touches neither the port nor the host, and ends no idleness. -/
theorem transferStep_port {s t : State} (h : transferStep s = .next t) :
    t.cmdBuf = s.cmdBuf ∧ t.port = s.port ∧ t.responses = s.responses ∧ t.host = s.host ∧ (s.xferBusy = false → t.xferBusy = false) := by
  rcases transferStep_next h with ⟨-, rfl⟩ | ⟨-, rfl⟩ <;> simp

/-- A host that does not reset never comes to. -/
theorem reset_notMem_step {s t : State} (h : .reset ∉ s.host) (he : step s = .next t) : .reset ∉ t.host := by
  rcases step_cases s with ⟨e, -⟩ | ⟨d, ⟨-, e⟩ | ⟨-, e⟩ | ⟨-, e⟩⟩
  · rw [e] at he; cases he; exact h
  · rw [e] at he; cases he; exact reset_notMem_hostStep (s := withDraws d s) h
  · rw [e] at he; rw [commandStep_host he]; exact h
  · rw [e] at he; rw [(transferStep_port he).2.2.2.1]; exact h

/-! ### Whole commands on the port -/

theorem commandsBegun_skip (ws vs : List Word) : ∀ k, ws.length = k → commandsBegun k (ws ++ vs) = commandsBegun 0 vs := by
  induction ws with
  | nil => rintro _ rfl; rfl
  | cons w ws ih => rintro _ rfl; simp [commandsBegun, ih]

/-- A whole command in front is one command more (rule R92). -/
theorem commandsBegun_append {c : List Word} (h : WholeCommand c) (vs : List Word) :
    commandsBegun 0 (c ++ vs) = commandsBegun 0 vs + 1 := by
  obtain ⟨h1, h2⟩ := h
  cases c with
  | nil => exact absurd rfl h1
  | cons w ws =>
    simp at h2
    simp [commandsBegun, commandsBegun_skip ws vs _ (show ws.length = commandLength w - 1 by omega)]

theorem commandsBegun_flatten {cs : List (List Word)} (h : ∀ c ∈ cs, WholeCommand c) : commandsBegun 0 cs.flatten = cs.length := by
  induction cs with
  | nil => rfl
  | cons c cs ih => rw [List.flatten_cons, commandsBegun_append (h c (by simp)), ih fun c hc => h c (by simp [hc])]; rfl

theorem wholeCommand_isTransferDone : WholeCommand [Instr.isTransferDone.word0] := ⟨by simp, by decide⟩

/-- A complete command at the front of a queue of whole commands is the first of them. -/
theorem head_of_wholeCommands {b p : List Word} {cs : List (List Word)} (hcs : ∀ c ∈ cs, WholeCommand c) (h : b ++ p = cs.flatten)
    (hb : b ≠ []) (hl : b.length = commandLength (b.headD 0#32)) : ∃ cs', cs = b :: cs' ∧ p = cs'.flatten := by
  cases cs with
  | nil => simp at h; exact absurd h.1 hb
  | cons c cs =>
    obtain ⟨h1, h2⟩ := hcs c (by simp)
    rw [List.flatten_cons] at h
    have hh : b.headD 0#32 = c.headD 0#32 := by
      cases b with
      | nil => exact absurd rfl hb
      | cons w b =>
        cases c with
        | nil => exact absurd rfl h1
        | cons v c => simpa using (List.cons.inj h).1
    have := List.append_inj h (by rw [hl, h2, hh])
    exact ⟨cs, by rw [this.1], this.2⟩

/-- A complete command in `cmdBuf` has exactly its words (rules R30, R31). -/
theorem complete_of_portInv {s : State} (hp : s.PortInv) (hd : decode s.cmdBuf ≠ .incomplete) :
    s.cmdBuf ≠ [] ∧ s.cmdBuf.length = commandLength (s.cmdBuf.headD 0#32) := by
  cases hb : s.cmdBuf with
  | nil => rw [hb] at hd; exact absurd rfl hd
  | cons w l =>
    rw [hb, ne_eq, decode_cons_incomplete] at hd
    have := hp
    simp [State.PortInv, hb] at this
    simp; omega

/-! ### A running transfer -/

/-- A step of any agent but the Transfer Engine leaves a running transfer whole, unless the host resets the block (rules R71, R202). -/
theorem step_keeps_transfer {s t : State} (hi : s.Inv) (hb : s.xferBusy = true) (hn : .reset ∉ s.host)
    (hc : s.chooseAgent.1 ≠ some .transferEngine) (he : step s = .next t) :
    t.mem = s.mem ∧ SameShape s t ∧ SameTransfer s t ∧ t.cfg = s.cfg := by
  obtain ⟨a, ha⟩ := chosen_of_ready (s := s) (.inr (.inr hb))
  rw [step_of_chosen ha] at he
  cases a with
  | transferEngine => exact absurd ha hc
  | host =>
    obtain ⟨p, rs, hs, rc, e⟩ := hostStep_frame (withDraws s.chooseAgent.2 s) (head_ne_reset hn)
    simp only [agentStep, e] at he; cases he
    simp [SameShape, SameTransfer, withDraws]
  | commandUnit =>
    have ha := (hi.2.2.2.2.1.1 hb).1
    simp only [agentStep] at he
    generalize hw : withDraws s.chooseAgent.2 s = w at he
    have hbw : w.xferBusy = true := by rw [← hw]; exact hb
    have haw : w.bufState = .allocated := by rw [← hw]; exact ha
    have : t.mem = w.mem ∧ SameShape w t ∧ SameTransfer w t ∧ t.cfg = w.cfg := by
      rcases commandStep_cases w with ⟨-, e⟩ | ⟨why, -, e⟩ | ⟨i, -, e⟩
      · rw [e] at he; cases he; unfold acceptWord; split <;> simp [SameShape, SameTransfer]
      · rw [e] at he; cases he; simp [SameShape, SameTransfer]
      · rw [e] at he
        rcases exec_next he with ⟨_, -, rfl⟩ | ⟨v, u, hp, rfl⟩ | ⟨code, hf, rfl⟩
        · simp [SameShape, SameTransfer]
        · cases hp <;> simp_all [SameShape, SameTransfer]
        · simp [SameShape, SameTransfer]
    rw [← hw] at this; exact this

end Sys2Proof.Machine
end

