-- ==== Sys2Proof/Tests/Slice0.lean ====
section
/-! SUPPORT. The model's own tests: what WellFormed refuses, words written out from the spec's encodings, vectors of
spec/95_test_vectors.md, one-step tests, and for every obligation with hypotheses a state and operands that meet them. -/

namespace Sys2Proof.Tests

open Sys2Proof Sys2Proof.Machine

/-! ### Small states -/

/-- Lanes 0 and 1 registered, one byte each; no buffer. -/
def lanes2 : State := addLane 1 1#16 (addLane 0 1#16 State.reset)

/-- Lane 0 alone, one byte; no buffer. -/
def lane1 : State := addLane 0 1#16 State.reset

/-- Every id of the default instance taken. -/
def full : State := { State.reset with activeMask := 0xFF#16, laneCount := 8#5 }

/-- Lanes 0 and 1, and the buffer built at address 20. -/
def built : State := buildBuffer 20 lanes2

/-- Lane 0 has completed its frame. -/
def half : State := markComplete 0#8 built

/-- Both lanes have completed theirs. -/
def quorum : State := markComplete 1#8 half

/-- A transfer of 32 cells has just started. -/
def sending : State := startTransfer quorum

/-- The same transfer with all its cells emitted. -/
def sent32 : State := { sending with xferPos := 32#32, frame := List.replicate 32 0#16 }

/-- The Allocator's next answer is `a`. -/
def answer (a : AllocAnswer) (s : State) : State := { s with alloc := { script := [a], used := 0 } }

/-- The words of a command stand in `cmdBuf`. -/
def withCmd (ws : List Word) (s : State) : State := { s with cmdBuf := ws }

/-- A field of the next state. -/
def after {α : Type} (o : Out) (f : State → α) : Option α := (nextState o).map f

/-! ### WellFormed: its one check refuses 65536 bytes (rule R93) -/

/-- What the check asks. -/
theorem wf_encode (lane : LaneId) (handle : Word) (data : List Byte) :
    (Instr.encode lane handle data).wf = decide (data.length ≤ 65535) := rfl

theorem test_wf_refuses_65536_bytes : (Instr.encode 0#8 0#32 (List.replicate 65536 0#8)).wf = false := by
  rw [wf_encode, List.length_replicate]; decide

theorem test_wf_admits_65535_bytes : (Instr.encode 0#8 0#32 (List.replicate 65535 0#8)).wf = true := by
  rw [wf_encode, List.length_replicate]; decide

/-! ### Decode: each constructor's word, written out from R97 and R104 (spec/95, section 2.1) -/

theorem test_decode_registerLane : decode [0x00090001#32] = .instr (.registerLane 9#16) := by decide
theorem test_decode_deregisterLane : decode [0x00000302#32] = .instr (.deregisterLane 3#8) := by decide
theorem test_decode_beginFill : decode [0x00000003#32] = .instr .beginFill := by decide
theorem test_decode_encode :
    decode [0x00050204#32, 0x00000001#32, 0x78563412#32, 0x0000009A#32] =
      .instr (.encode 2#8 1#32 [0x12#8, 0x34#8, 0x56#8, 0x78#8, 0x9A#8]) := by decide
theorem test_decode_encode_no_bytes : decode [0x00000004#32, 0x00000000#32] = .instr (.encode 0#8 0#32 []) := by decide
/-- Bits of the last data word past COUNT are ignored (rule R95). -/
theorem test_decode_encode_ignores_padding :
    decode [0x00010004#32, 0x00000000#32, 0xFFFFFFA5#32] = .instr (.encode 0#8 0#32 [0xA5#8]) := by decide
theorem test_decode_endFill : decode [0x00000105#32] = .instr (.endFill 1#8) := by decide
theorem test_decode_isTransferDone : decode [0x00000006#32] = .instr .isTransferDone := by decide
theorem test_decode_markLaneComplete : decode [0x00000107#32] = .instr (.markLaneComplete 1#8) := by decide
theorem test_decode_allLanesComplete : decode [0x00000008#32] = .instr .allLanesComplete := by decide
theorem test_decode_noLanesComplete : decode [0x00000009#32] = .instr .noLanesComplete := by decide
theorem test_decode_resetCompletion : decode [0x0000000A#32] = .instr .resetCompletion := by decide
theorem test_decode_construct : decode [0x0000000B#32] = .instr .construct := by decide
theorem test_decode_destruct : decode [0x0000000C#32] = .instr .destruct := by decide
theorem test_decode_resetBufferForCycle : decode [0x0000000D#32] = .instr .resetBufferForCycle := by decide
theorem test_decode_triggerTransferIfReady : decode [0x0000000E#32] = .instr .triggerTransferIfReady := by decide
theorem test_decode_readStatus : decode [0x000D000F#32] = .instr (.readStatus 0xD#16) := by decide

theorem test_decode_illegal :
    decode [0x00000010#32] = .illegal .reservedOpcode ∧ decode [0x00000000#32] = .illegal .reservedOpcode ∧
    decode [0xFFFFFFFF#32] = .illegal .reservedOpcode ∧ decode [0x00010003#32] = .illegal .reservedArg ∧
    decode [0x00000101#32] = .illegal .reservedLane := by decide

/-- `ENCODE` with ARG = 5 has 4 words whatever its lane (rule R92). -/
theorem test_decode_incomplete : decode [0x00050104#32, 0#32, 0#32] = .incomplete ∧ decode [] = .incomplete := by decide

/-- No word 0 is selected by two rows of the opcode map (rule R97). -/
theorem test_opcodeMap_disjoint :
    opcodeMap.Pairwise (fun a b => (a.pattern ^^^ b.pattern) &&& (a.mask &&& b.mask) ≠ 0#32) := by decide

theorem test_decodeTableWord : decodeTableWord 32 0x00030105 = none ∧ decodeTableWord 32 0x00000105 = some (.endFill 1#8) ∧
    decodeTableWord 32 0x00000004 = some (.encode 0#8 0#32 []) := by decide

/-! ### The wire patterns (spec/95, section 2.2) -/

/-- ENC(0xA5) for K = 4 and K = 3. -/
theorem test_encodeByte_A5 :
    encodeByte .k4 0xA5#8 = [true, true, true, false, true, false, false, false] ++ [true, true, true, false, true, false, false, false] ++
      [true, false, false, false, true, true, true, false] ++ [true, false, false, false, true, true, true, false] ∧
    encodeByte .k3 0xA5#8 = [true, true, false, true, false, false, true, true, false, true, false, false] ++
      [true, false, false, true, true, false, true, false, false, true, true, false] := by decide

/-- Sizes at CONSTRUCT (spec/95, section 2.4): W = 8, K = 4 and 300 bytes; W = 16, K = 4 and 65535 bytes. -/
theorem test_sizes :
    (Config.default.payloadSize 300, Config.default.descriptorCount 300, Config.default.regionSize 300) = (9600, 3, 9636) ∧
    (({ Config.default with width := .w16 } : Config).payloadSize 65535, ({ Config.default with width := .w16 } : Config).regionSize 65535) =
      (4194240, 4206540) := by decide

/-- The chain for 300 bytes (spec/95, section 2.4). -/
theorem test_chain : descriptorChain Config.default 300 =
    [⟨36, 4092, some 1, false⟩, ⟨4128, 4092, some 2, false⟩, ⟨8220, 1416, none, true⟩] := by decide

/-! ### The commands, one step each (spec/95, sections 2.2 to 2.7) -/

theorem test_registerLane_first :
    after (exec (.registerLane 9#16) State.reset) (fun t => (t.activeMask, t.laneCount, t.maxLaneDataSize, t.responses)) =
      some (0x01#16, 1#5, 9#16, [0#32]) := by decide
theorem test_registerLane_full :
    after (exec (.registerLane 1#16) full) (fun t => (t.activeMask, t.diag, t.responses)) = some (0xFF#16, 1#32, [0xFF#32]) := by decide
theorem test_deregisterLane_last :
    after (exec (.deregisterLane 0#8) (buildBuffer 20 lane1)) (fun t => (t.bufState, t.bufSize, t.maxLaneDataSize, t.responses)) =
      some (.unallocated, 0#32, 0#16, [1#32]) := by decide
theorem test_deregisterLane_complete_lane :
    after (exec (.deregisterLane 0#8) half) (fun t => (t.activeMask, t.completeMask, t.responses)) =
      some (0x02#16, 0x00#16, [0#32]) := by decide
theorem test_markLaneComplete :
    after (exec (.markLaneComplete 1#8) lanes2) (fun t => (t.completeMask, t.responses)) = some (0x02#16, [0#32]) := by decide
theorem test_markLaneComplete_badLane :
    after (exec (.markLaneComplete 5#8) lanes2) (fun t => (t.completeMask, t.fault, t.faultInfo, t.responses)) =
      some (0x00#16, 0x02#32, 0x00000507#32, [0xFFFFFFFF#32]) := by decide
theorem test_allLanesComplete_vacuous : after (exec .allLanesComplete State.reset) (·.responses) = some [1#32] := by decide
theorem test_allLanesComplete_half : after (exec .allLanesComplete half) (·.responses) = some [0#32] := by decide
theorem test_noLanesComplete : after (exec .noLanesComplete half) (·.responses) = some [0#32] := by decide
theorem test_resetCompletion :
    after (exec .resetCompletion quorum) (fun t => (t.completeMask, t.responses)) = some (0#16, [0#32]) := by decide
theorem test_construct_fail :
    after (exec .construct (answer .fail lanes2)) (fun t => (t.bufState, t.diag, t.bufSize, t.responses)) =
      some (.unallocated, 0x02#32, 0#32, [0#32]) := by decide
theorem test_construct_sizes :
    after (exec .construct (answer (.ok 5) { lane1 with maxLaneDataSize := 9#16 }))
      (fun t => (t.bufBase, t.capSlots, t.payloadBytes, t.descCount, t.bufSize)) = some (some 20, 9#16, 288#32, 1#32, 300#32) := by decide
theorem test_construct_no_lanes :
    after (exec .construct State.reset) (fun t => (t.fault, t.faultInfo, t.bufState, t.responses)) =
      some (0x20#32, 0x0000000B#32, .unallocated, [0xFFFFFFFF#32]) := by decide
theorem test_destruct_premature :
    after (exec .destruct built) (fun t => (t.fault, t.bufState, t.responses)) = some (0x10#32, .allocated, [0xFFFFFFFF#32]) := by decide
theorem test_resetBufferForCycle_kept : after (exec .resetBufferForCycle half) (·.responses) = some [0#32] := by decide
theorem test_trigger_starts :
    after (exec .triggerTransferIfReady quorum) (fun t => (t.xferBusy, t.completeMask, t.responses)) =
      some (true, 0#16, [1#32]) := by decide
theorem test_trigger_no_lanes : after (exec .triggerTransferIfReady State.reset) (fun t => (t.xferBusy, t.responses)) =
    some (false, [0#32]) := by decide
theorem test_beginFill_unallocated : after (exec .beginFill lanes2) (fun t => (t.fault, t.faultInfo)) =
    some (0x04#32, 0x00000003#32) := by decide
theorem test_endFill_quorum :
    after (exec (.endFill 1#8) half) (fun t => (t.xferBusy, t.completeMask, t.responses)) = some (true, 0#16, [1#32]) := by decide
theorem test_isTransferDone : after (exec .isTransferDone sending) (·.responses) = some [0#32] := by decide
theorem test_readStatus_config : after (exec (.readStatus 0xD#16) State.reset) (·.responses) = some [0x03FF0408#32] := by decide
theorem test_readStatus_bufSize : after (exec (.readStatus 6#16) built) (·.responses) = some [44#32] := by decide

/-- The first storage words of `ENCODE 1, 0, [0xA5]` are those of lane 0 (spec/95, section 2.2) one bit higher. -/
theorem test_encode_storage :
    after (exec (.encode 1#8 0#32 [0xA5#8]) built) (fun t => (memRead t.mem 12 4, memRead t.mem 16 4, memRead t.mem 24 4, t.responses)) =
      some (0x00020202, 0x00000002, 0x00000002, [1#32]) := by decide +kernel
theorem test_encode_no_wrap :
    after (exec (.encode 0#8 0xFFFFFFFF#32 [0#8]) built) (fun t => (t.fault, t.responses)) = some (0x08#32, [0xFFFFFFFF#32]) := by
  decide

/-- W = 16, lane 15: `80008000 00008000` (spec/95, section 2.2). -/
theorem test_encode_wide :
    let m := encodePayload { Config.default with width := .w16, cellOrder := [0, 1] } 12 15 0 [0xA5#8] []
    (memRead m 12 4, memRead m 16 4) = (0x80008000, 0x00008000) := by decide +kernel

theorem test_transfer_emits : after (step sending) (fun t => (t.xferPos, t.lines, t.frame)) = some (1#32, 0#16, [0#16]) := by decide +kernel
theorem test_transfer_completes :
    after (step sent32) (fun t => (t.xferBusy, t.xferPos, t.sent)) =
      some (false, 0#32, [{ frame := List.replicate 32 0#16, completed := true }]) := by decide +kernel

/-- The step after `withFetchWord` runs the command (READ_STATUS XFER_STATUS; an illegal word). -/
theorem test_withFetchWord :
    after (step (State.reset.withFetchWord 32 0x0009000F)) (·.responses) = some [1#32] ∧
    after (step (State.reset.withFetchWord 32 0x00010003)) (fun t => (t.fault, t.faultInfo)) = some (0x01#32, 0x00010003#32) := by decide

/-- A host's word reaches the port (rule R90). -/
theorem test_host_sends : after (step { State.reset with host := [.send 6#32] }) (fun t => (t.host, t.port)) = some ([], [6#32]) := by decide

/-- Channel Method pixel indices (spec/95, S7). -/
theorem test_pixels : (List.range 3).map (pixelIndex · 5) = [0, 1, 2] ∧ (List.range 3).map (pixelIndex · 2) = [0, 1, 0] := by decide

/-! ### The host (rules R90, R103; spec/95, program P6) -/

/-- A host that sends END_FILL and waits, its commands on their way: one response comes before the poll's. -/
def polling : State := { half with host := [.waitDone, .read], port := [0x00000105#32] }

/-- END_FILL's response 1, read by the wait, does not end it: the poll's own does (rule R103). -/
theorem test_waitDone_counts_older_responses :
    (hostStep polling).host = [.awaitDone 1, .read] ∧ (hostStep polling).port = [0x00000105#32, 0x00000006#32] ∧
    (hostStep { hostStep polling with responses := [1#32] }).host = [.awaitDone 0, .read] := by decide
theorem test_waitDone_polls_again :
    (hostStep { built with host := [.awaitDone 0, .read], responses := [0#32] }).host = [.waitDone, .read] ∧
    (hostStep { built with host := [.awaitDone 0, .read], responses := [1#32] }).host = [.read] := by decide
/-- A command begun in `cmdBuf` counts once, whatever its words are (rule R92). -/
theorem test_commandsBegun :
    commandsBegun 0 [0x00050204#32, 1#32, 6#32, 6#32, 0x00000006#32] = 2 ∧ commandsBegun 0 [] = 0 := by decide

/-- The strip of program P6. -/
def strip : ChannelMethod :=
  { pin := 0, pixelCount := 3, byteSendTimeUs := 10, resetTimeUs := 50, pixelSize := 3, lead := 0, trail := 0, laneId := none,
    phase := .uninitialized }

/-- The same strip, its lane 0 registered and its buffer built. -/
def strip0 : ChannelMethod := { strip with laneId := some 0#8, phase := .ready }

/-- Its caller's buffer, of two pixels. -/
def frame2 : Frame (Vector Byte 3) strip0 :=
  { pixels := [#v[0x10#8, 0x20#8, 0x30#8], #v[0x40#8, 0x50#8, 0x60#8]], shader := id, serialize := id, leading := #v[], trailing := #v[] }

/-- Lane 0 with 14 bytes, and the buffer. -/
def built14 : State := buildBuffer 20 (addLane 0 14#16 State.reset)

theorem test_frameSize : strip.resetPad = 5 ∧ strip.dataSize = some 14#16 ∧ ({ strip with pixelCount := 21845 } : ChannelMethod).dataSize = none ∧
    ({ strip with byteSendTimeUs := 0 } : ChannelMethod).dataSize = none := by decide
theorem test_initLane :
    strip.initLane.actions [0#32, 1#32] = [.send 0x000E0001#32, .read, .send 0x0000000B#32, .read] ∧
    strip.initLane.actions [0xFF#32] = [.send 0x000E0001#32, .read] ∧
    (strip.after (.registered 0xFF#32)).initLane.actions [0#32, 1#32] = [] := by decide
/-- Both strips register before either CONSTRUCT (rule R221). -/
theorem test_initStrips :
    (initStrips [strip, { strip with trail := 1 }]).actions [0#32, 1#32, 1#32, 1#32] =
      [.send 0x000E0001#32, .read, .send 0x000F0001#32, .read, .send 0x0000000B#32, .read, .send 0x0000000B#32, .read] := by decide
theorem test_teardown : strip0.teardown.actions [1#32] = [.waitDone, .send 0x00000002#32, .read] := by decide
theorem test_update_words :
    (strip0.update false frame2).actions [0#32, 3#32, 6#32, 9#32, 1#32] =
      [.send 0x00000003#32, .read, .send 0x00030004#32, .send 0#32, .send 0x00302010#32, .read] ++
      [.send 0x00030004#32, .send 3#32, .send 0x00605040#32, .read, .send 0x00030004#32, .send 6#32, .send 0x00302010#32, .read] ++
      [.send 0x00000005#32, .read] := by decide
theorem test_update_slots :
    ((strip0.update false frame2).perform built14).map (fun r => (r.1.phase, r.2.xferBusy, (List.range 4).map (r.2.decodeSlot 0),
        (List.range 6).map fun s => r.2.decodeSlot 0 (s + 8))) =
      some (.sending true, true, [some 0x10#8, some 0x20#8, some 0x30#8, some 0x40#8], [some 0x30#8, none, none, none, none, none]) := by
  decide +kernel
/-- A BEGIN_FILL with no poll before it begins a fill; a strip that got no lane is non-functional (rules R103, R221, R228). -/
theorem test_channelMethod_states :
    ({ strip0 with phase := .sending true }.after .began).phase = .sending false ∧
    ((strip0.after .began).after (.ended 0#32)).phase = .ready ∧ ((strip0.after .began).after (.ended 1#32)).phase = .sending true ∧
    ((strip.after (.registered 0xFF#32)).after (.constructed 1#32)).phase = .nonFunctional ∧
    ((strip.after (.registered 0#32)).after (.constructed 0#32)).phase = .uninitialized ∧ (strip0.after .deregistered).phase = .tornDown := by
  decide

/-! ### The invariant's witnesses -/

theorem inv_reset : State.reset.Inv := ⟨by decide, by decide, by decide, by decide, by decide, by decide, by decide⟩
theorem inv_lanes2 : lanes2.Inv := ⟨by decide, by decide, by decide, by decide, by decide, by decide, by decide⟩
theorem inv_built : built.Inv := ⟨by decide, by decide, by decide, by decide, by decide, by decide, by decide⟩
theorem inv_half : half.Inv := ⟨by decide, by decide, by decide, by decide, by decide, by decide, by decide⟩
theorem inv_quorum : quorum.Inv := ⟨by decide, by decide, by decide, by decide, by decide, by decide, by decide⟩
theorem inv_sending : sending.Inv := ⟨by decide, by decide, by decide, by decide, by decide, by decide, by decide⟩
theorem inv_sent32 : sent32.Inv := ⟨by decide, by decide, by decide, by decide, by decide +kernel, by decide, by decide⟩

/-! ### Witnesses: states and operands that meet the hypotheses of the obligations, at the ends of their ranges -/

theorem witness_DecodeOfEncodeIsTheCommand : (Instr.encode 0xFF#8 0xFFFFFFFF#32 (List.replicate 65535 0xFF#8)).wf = true := by
  rw [wf_encode, List.length_replicate]; decide
theorem witness_DecodedCommandHasItsWordZero : decode [0x0000FF04#32, 7#32, 9#32] = .instr (.encode 0xFF#8 7#32 []) := by decide
theorem witness_OpcodeMapDecidesLegality :
    (decode [0x00000001#32] ≠ .incomplete ∧ ∃ r ∈ opcodeMap, 0x00000001#32 &&& r.mask = r.pattern) ∧
    (decode [0xFFFF000F#32] ≠ .incomplete ∧ ∃ r ∈ opcodeMap, 0xFFFF000F#32 &&& r.mask = r.pattern) ∧
    (decode [0x00000010#32] ≠ .incomplete ∧ ∀ r ∈ opcodeMap, 0x00000010#32 &&& r.mask ≠ r.pattern) ∧
    (decode [0x00000000#32] ≠ .incomplete ∧ ∀ r ∈ opcodeMap, 0x00000000#32 &&& r.mask ≠ r.pattern) := by decide
theorem witness_RegisterLaneTakesTheLowestFreeId :
    (0 < State.reset.cfg.bits ∧ State.reset.activeMask.getLsbD 0 = false) ∧
    (7 < State.reset.cfg.bits ∧ (0x7F#16 : LaneMask).getLsbD 7 = false ∧ ∀ j < 7, (0x7F#16 : LaneMask).getLsbD j = true) := by decide
theorem witness_RegisterLaneWhenFullOnlyLogs : ∀ j < full.cfg.bits, full.activeMask.getLsbD j = true := by decide
theorem witness_DeregisterLaneKeepsTheOthers :
    half.xferBusy = false ∧ half.laneActive 0#8 = true ∧ 1 < 16 ∧ 1 ≠ (0#8 : LaneId).toNat ∧ half.activeMask.getLsbD 1 = true := by decide
theorem witness_DeregisterLastLaneTearsDown :
    (lane1.xferBusy = false ∧ lane1.laneActive 0#8 = true ∧ lane1.bufState = .unallocated ∧
      ∀ j < 16, j ≠ (0#8 : LaneId).toNat → lane1.activeMask.getLsbD j = false) ∧
    ((buildBuffer 20 lane1).bufState = .allocated ∧ (buildBuffer 20 lane1).laneActive 0#8 = true ∧
      ∀ j < 16, j ≠ (0#8 : LaneId).toNat → (buildBuffer 20 lane1).activeMask.getLsbD j = false) := by decide
theorem witness_DeregisterInactiveLaneDoesNothing :
    lanes2.xferBusy = false ∧ lanes2.cfg.bits ≤ (0xFF#8 : LaneId).toNat ∧ lanes2.cfg.bits ≤ (8#8 : LaneId).toNat ∧
      lanes2.activeMask.getLsbD (7#8 : LaneId).toNat = false := by decide
theorem witness_MarkLaneCompleteSetsItsBit :
    lanes2.xferBusy = false ∧ (0#8 : LaneId).toNat < lanes2.cfg.bits ∧ lanes2.activeMask.getLsbD (0#8 : LaneId).toNat = true ∧
      (7#8 : LaneId).toNat < full.cfg.bits ∧ full.activeMask.getLsbD (7#8 : LaneId).toNat = true := by decide
theorem witness_QueriesAnswerTheirPredicate :
    (∀ j < 16, quorum.completeMask.getLsbD j = quorum.activeMask.getLsbD j) ∧ half.completeMask.getLsbD 1 ≠ half.activeMask.getLsbD 1 ∧
    (∀ j < 16, built.completeMask.getLsbD j = false) ∧ half.completeMask.getLsbD 0 = true ∧
    half.xferBusy = false ∧ sending.xferBusy = true := by decide
theorem witness_ResetCompletionEmptiesTheBitmap : quorum.xferBusy = false := by decide
theorem witness_LaneCountIsTheQuorumCounter :
    half.Inv ∧ (∃ t, exec (.registerLane 3#16) half = .next t) ∧ (∃ t, exec (.deregisterLane 0#8) half = .next t) ∧
      ∃ t, exec .beginFill half = .next t :=
  ⟨inv_half, ⟨_, rfl⟩, ⟨_, rfl⟩, ⟨_, rfl⟩⟩
theorem witness_LargestSizeOnlyGrowsWithinACycle :
    (∃ t, exec (.registerLane 3#16) lanes2 = .next t ∧ t.activeMask ≠ 0#16 ∧ t.maxLaneDataSize ≠ lanes2.maxLaneDataSize) ∧
    ∃ t, exec (.deregisterLane 0#8) lane1 = .next t ∧ t.maxLaneDataSize ≠ lane1.maxLaneDataSize :=
  ⟨⟨_, rfl, by decide, by decide⟩, ⟨_, rfl, by decide⟩⟩
theorem witness_ConstructBuildsTheRegion :
    lanes2.cfg.Admitted ∧ lanes2.bufState = .unallocated ∧ lanes2.activeMask ≠ 0#16 ∧
      (answer (.ok 5) lanes2).alloc.value Config.allocatorAnswer = .ok 5 :=
  ⟨by decide, by decide, by decide, rfl⟩
theorem witness_ConstructLogsAnAllocationFailure :
    lanes2.bufState = .unallocated ∧ lanes2.activeMask ≠ 0#16 ∧ (answer .fail lanes2).alloc.value Config.allocatorAnswer = .fail :=
  ⟨by decide, by decide, rfl⟩
theorem witness_ConstructIsIdempotentAndNeedsALane :
    built.bufState = .allocated ∧ State.reset.bufState = .unallocated ∧ State.reset.activeMask = 0#16 := by decide
theorem witness_DestructIsPrematureOrTearsDown :
    (built.xferBusy = false ∧ built.activeMask ≠ 0#16) ∧ (State.reset.Inv ∧ State.reset.xferBusy = false ∧ State.reset.activeMask = 0#16) ∧
    ({ built with activeMask := 0#16 } : State).xferBusy = false ∧ ({ built with activeMask := 0#16 } : State).bufState = .allocated :=
  ⟨by decide, ⟨inv_reset, by decide, by decide⟩, by decide, by decide⟩
theorem witness_CycleClearsOnlyWhenNoLaneCompleted :
    (built.Inv ∧ built.xferBusy = false ∧ built.bufState = .allocated ∧ built.completeMask = 0#16 ∧ 0 < built.ncells) ∧
    (half.Inv ∧ half.xferBusy = false ∧ half.bufState = .allocated ∧ half.completeMask ≠ 0#16) :=
  ⟨⟨inv_built, by decide, by decide, by decide, by decide⟩, inv_half, by decide, by decide, by decide⟩
theorem witness_TriggerStartsATransferAtTheBarrier :
    (quorum.xferBusy = false ∧ quorum.activeMask ≠ 0#16 ∧ quorum.completeMask = quorum.activeMask ∧ quorum.bufState = .allocated) ∧
    (State.reset.xferBusy = false ∧ State.reset.activeMask = 0#16) ∧ (half.xferBusy = false ∧ half.completeMask ≠ half.activeMask) := by
  decide
theorem witness_BufferStateMachine :
    (∃ t, exec .construct (answer (.ok 5) lanes2) = .next t ∧ lanes2.bufState = .unallocated ∧ t.bufState = .allocated) ∧
    ∃ t, exec (.deregisterLane 0#8) (buildBuffer 20 lane1) = .next t ∧ t.bufState = .unallocated :=
  ⟨⟨_, rfl, by decide, rfl⟩, ⟨_, rfl, by decide⟩⟩
theorem witness_TransferStartsOnlyAtTheBarrier :
    (∃ t, exec .triggerTransferIfReady quorum = .next t ∧ quorum.xferBusy = false ∧ t.xferBusy = true) ∧
    ∃ t, exec (.endFill 1#8) half = .next t ∧ half.xferBusy = false ∧ t.xferBusy = true :=
  ⟨⟨_, rfl, by decide, by decide⟩, ⟨_, rfl, by decide, by decide⟩⟩
theorem witness_EndFillOfTheLastLaneStartsTheTransfer :
    half.Inv ∧ half.xferBusy = false ∧ half.bufState = .allocated ∧ (1#8 : LaneId).toNat < half.cfg.bits ∧
      half.activeMask.getLsbD (1#8 : LaneId).toNat = true ∧
      ∀ j < 16, half.activeMask.getLsbD j = true → j = (1#8 : LaneId).toNat ∨ half.completeMask.getLsbD j = true :=
  ⟨inv_half, by decide, by decide, by decide, by decide, by decide⟩
theorem witness_EndFillBeforeTheQuorumOnlyMarks :
    built.xferBusy = false ∧ built.bufState = .allocated ∧ (0#8 : LaneId).toNat < built.cfg.bits ∧
      built.activeMask.getLsbD (0#8 : LaneId).toNat = true ∧ 1 ≠ (0#8 : LaneId).toNat ∧ built.activeMask.getLsbD 1 = true ∧
      built.completeMask.getLsbD 1 = false := by decide
theorem witness_FacadeIsTheComposition : half.xferBusy = false ∧ half.bufState = .allocated ∧ half.laneActive 1#8 = true := by decide
theorem witness_ReadStatusReadsTheRegister : State.reset.cfg.mtu / 4 < 65536 := by decide
theorem witness_ReservedStatusReadsZero : 0x000E ≤ (0x000E#16 : Half).toNat ∧ 0x000E ≤ (0xFFFF#16 : Half).toNat := by decide
/-- The hypotheses the statements about a legal ENCODE share, at the capacity (HANDLE + COUNT = capSlots), with 1 byte and with none. -/
theorem witness_legal_encode :
    built.Inv ∧ built.xferBusy = false ∧ (1#8 : LaneId).toNat < built.cfg.bits ∧ built.activeMask.getLsbD (1#8 : LaneId).toNat = true ∧
      built.laneActive 1#8 = true ∧ built.bufState = .allocated ∧ (0#32 : Word).toNat + [0xA5#8].length ≤ built.capSlots.toNat ∧
      (1#32 : Word).toNat + ([] : List Byte).length ≤ built.capSlots.toNat :=
  ⟨inv_built, by decide, by decide, by decide, by decide, by decide, by decide, by decide⟩
/-- The ranges of EncodeOrsThePatternsIntoItsLane at their ends, and a cell of another slot. -/
theorem witness_EncodeOrsThePatternsIntoItsLane :
    0 < [0xA5#8].length ∧ 7 < 8 ∧ 3 < built.cfg.cellsPerBit ∧ 31 < built.ncells ∧ 0 ≠ (1#8 : LaneId).toNat ∧
      0 < (1#32 : Word).toNat * built.cfg.cellsPerSlot ∧
      ((0#32 : Word).toNat + ([] : List Byte).length) * built.cfg.cellsPerSlot ≤ 0 := by decide
theorem witness_EncodeStoresOnlyToItsSlots :
    (∃ t, exec (.encode 1#8 0#32 [0xA5#8]) built = .next t) ∧
      ∀ n, (0#32 : Word).toNat * built.cfg.cellsPerSlot ≤ n → n < ((0#32 : Word).toNat + [0xA5#8].length) * built.cfg.cellsPerSlot →
        11 < cellOffset built.cfg built.payloadOff n ∨ cellOffset built.cfg built.payloadOff n + built.cfg.cellBytes ≤ 11 :=
  ⟨⟨_, rfl⟩, fun n _ _ => .inl (by
    have : built.payloadOff = 12 := by decide
    unfold cellOffset; omega)⟩
theorem witness_EncodePastTheEndFaults :
    built.xferBusy = false ∧ built.laneActive 0#8 = true ∧ built.bufState = .allocated ∧
      built.capSlots.toNat < (1#32 : Word).toNat + [0#8].length ∧ built.capSlots.toNat < (2#32 : Word).toNat + ([] : List Byte).length ∧
      built.capSlots.toNat < (0xFFFFFFFF#32 : Word).toNat + [0#8].length := by decide
theorem witness_DecodingTheSlotsGivesTheBytesBack :
    (∃ t, exec (.encode 1#8 0#32 [0xA5#8]) built = .next t) ∧
      ∀ n < built.cfg.cellsPerSlot, (built.cell (((0#32 : Word).toNat + 0) * built.cfg.cellsPerSlot + n)).getLsbD (1#8 : LaneId).toNat = false :=
  ⟨⟨_, rfl⟩, by decide +kernel⟩
/-- Lane 1's slot 0 of `built` after `ENCODE 1, 0, [0x81]`. -/
def encoded : State := storePayload (encodePayload built.cfg built.payloadOff 1 0 [0x81#8] built.mem) built
theorem inv_encoded : encoded.Inv :=
  ⟨by decide, by decide, by decide, bufferInv_encodePayload (s := built) (by decide) inv_built.2.2.2.1 (by decide) (by decide), by decide,
    by decide, by decide⟩
theorem witness_RepeatedEncodeOrsTheBytes :
    encoded.Inv ∧ encoded.xferBusy = false ∧ encoded.laneActive 1#8 = true ∧ encoded.bufState = .allocated ∧
      (0#32 : Word).toNat + [0x42#8].length ≤ encoded.capSlots.toNat ∧ (∃ t, exec (.encode 1#8 0#32 [0x42#8]) encoded = .next t) ∧
      encoded.decodeSlot 1 ((0#32 : Word).toNat + 0) = some 0x81#8 :=
  ⟨inv_encoded, by decide, by decide, by decide, by decide, ⟨_, rfl⟩, by decide +kernel⟩
theorem witness_EncodesOfDifferentLanesCommute :
    built.Inv ∧ built.xferBusy = false ∧ built.bufState = .allocated ∧ (0#8 : LaneId) ≠ 1#8 ∧ built.laneActive 0#8 = true ∧
      built.laneActive 1#8 = true ∧ (0#32 : Word).toNat + [0xFF#8].length ≤ built.capSlots.toNat :=
  ⟨inv_built, by decide, by decide, by decide, by decide, by decide, by decide⟩
theorem witness_ChainedEncodesAreOneEncode :
    built.Inv ∧ built.xferBusy = false ∧ built.bufState = .allocated ∧ built.laneActive 1#8 = true ∧
      (0#32 : Word).toNat + (([] : List Byte) ++ [0xA5#8]).length ≤ built.capSlots.toNat :=
  ⟨inv_built, by decide, by decide, by decide, by decide⟩
theorem witness_TransferEngineEmitsThenCompletes :
    (sending.Inv ∧ sending.xferBusy = true ∧ sending.xferPos.toNat < sending.capSlots.toNat * sending.cfg.cellsPerSlot) ∧
    (sent32.Inv ∧ sent32.xferBusy = true ∧ sent32.capSlots.toNat * sent32.cfg.cellsPerSlot ≤ sent32.xferPos.toNat) :=
  ⟨⟨inv_sending, by decide, by decide⟩, inv_sent32, by decide, by decide⟩
theorem witness_TransferSendsTheWholePayload :
    sending.Inv ∧ sending.xferBusy = true ∧ sending.host = [] ∧ sending.commandReady = false :=
  ⟨inv_sending, by decide, by decide, by decide⟩
/-- A BEGIN_FILL held during a transfer. -/
def holding : State := withCmd [0x00000003#32] sending
theorem inv_holding : holding.Inv :=
  ⟨by decide, by decide, by decide, by decide, by decide, by decide, by decide⟩
theorem witness_HeldCommandIsPerformedAfterTheTransfer :
    holding.Inv ∧ holding.xferBusy = true ∧ holding.host = [] ∧ decode holding.cmdBuf = .instr .beginFill ∧
      Instr.beginFill.holdClass = true :=
  ⟨inv_holding, by decide, by decide, by decide, by decide⟩
theorem witness_ChainTraversalIsWireOrder : built.Inv ∧ built.bufState = .allocated := ⟨inv_built, by decide⟩
theorem witness_HoldClassWaitsDuringATransfer : Instr.destruct.holdClass = true ∧ sending.xferBusy = true := by decide
theorem witness_NoCommandTouchesARunningTransfer :
    sending.Inv ∧ sending.xferBusy = true ∧ ∃ t, exec (.registerLane 9#16) sending = .next t :=
  ⟨inv_sending, by decide, ⟨_, rfl⟩⟩
theorem witness_IllegalCommandFaultsAndIsNeverHeld :
    (withCmd [0x00010003#32] sending).cmdBuf = [0x00010003#32] ∧
      decode (withCmd [0x00010003#32] sending).cmdBuf = .illegal .reservedArg := by decide
theorem witness_LaneNotActiveFaultsBadLane :
    lanes2.xferBusy = false ∧ lanes2.cfg.bits ≤ (8#8 : LaneId).toNat ∧ lanes2.cfg.bits ≤ (0xFF#8 : LaneId).toNat ∧
      lanes2.activeMask.getLsbD (2#8 : LaneId).toNat = false := by decide
theorem witness_MissingBufferFaultsNotAllocated :
    lanes2.xferBusy = false ∧ lanes2.bufState = .unallocated ∧ lanes2.laneActive 1#8 = true ∧ lanes2.activeMask ≠ 0#16 ∧
      (markComplete 1#8 (markComplete 0#8 lanes2)).completeMask = lanes2.activeMask ∧
      (markComplete 1#8 (markComplete 0#8 lanes2)).bufState = .unallocated := by decide
/-- Every FAULT and DIAG bit is set, a transfer runs, and an illegal command is at the head. -/
def faulted : State := withCmd [0x00010003#32] { sending with fault := 0x3F#32, diag := 3#32 }
theorem witness_FaultAndDiagBitsAreSticky :
    (∃ t, agentStep .commandUnit { faulted with host := [.reset] } = .next t) ∧
    (∃ t, agentStep .transferEngine { faulted with host := [.reset] } = .next t) ∧
    (∃ t, agentStep .host { faulted with host := [.waitDone] } = .next t ∧ [HostAction.waitDone].head? ≠ some .reset) ∧
    (∃ t, step (withCmd [0x00010003#32] { full with fault := 0x3F#32, diag := 3#32 }) = .next t ∧ full.host.head? ≠ some .reset) ∧
    faulted.fault.getLsbD 5 = true ∧ faulted.diag.getLsbD 1 = true ∧ faulted.fault ≠ 0#32 :=
  ⟨⟨_, rfl⟩, ⟨_, rfl⟩, ⟨_, rfl, by decide⟩, ⟨_, rfl, by decide⟩, by decide, by decide, by decide⟩
theorem witness_ResetMeetsTheInvariant : Config.default.Admitted ∧
    ({ Config.default with width := .w16, cells := .k3, cellOrder := [1, 0], mtu := 4, descBytes := 0 } : Config).Admitted := by decide
theorem witness_EveryStepKeepsTheInvariant : holding.Inv ∧ ∃ t, step holding = .next t := ⟨inv_holding, ⟨_, rfl⟩⟩
theorem witness_NoStepStopsTheMachine : sending.Inv := inv_sending
theorem witness_EveryCommandAnswersOnce :
    (∃ t, exec .beginFill holding = .next t) ∧ ∃ t, exec .beginFill built = .next t := ⟨⟨_, rfl⟩, ⟨_, rfl⟩⟩
theorem witness_StepRunsTheDecodedCommand :
    (decode (withCmd [0x00000003#32] built).cmdBuf = .instr .beginFill ∧ (withCmd [0x00000003#32] built).hostReady = false ∧
      (withCmd [0x00000003#32] built).xferBusy = false) ∧
    (decode (withCmd [0x00000006#32] sending).cmdBuf = .instr .isTransferDone ∧ Instr.isTransferDone.holdClass = false ∧
      sending.xferBusy = true ∧
      ({ withCmd [0x00000006#32] sending with sched := { script := [.commandUnit], used := 0 } } : State).sched.value Config.agentChoice =
        .commandUnit) :=
  ⟨by decide, by decide, by decide, by decide, rfl⟩
theorem witness_IdleBlockChangesNothing :
    built.xferBusy = false ∧ built.hostReady = false ∧ built.port = [] ∧ decode built.cmdBuf = .incomplete := by decide
theorem witness_ResetClearsTheBlock : ({ sending with host := [.reset, .read] } : State).host = .reset :: [.read] := by decide
theorem witness_StatusAfterResetReadsAsStated : (0x9#16 : Half) ≠ 0xD#16 ∧ (0xFFFF#16 : Half) ≠ 0xD#16 := by decide
theorem witness_FramePixelsWrapAround : ([7, 8] : List Nat) ≠ [] ∧ 2 < 3 := by decide
theorem strip_size : strip.lead + strip.pixelCount * strip.pixelSize + strip.trail + ⌈(strip.resetTimeUs / strip.byteSendTimeUs : ℚ)⌉₊ = 14 := by
  rw [← resetPad_eq_ceil strip (by decide)]; decide
/-- The largest frame: 21843 pixels of 3 bytes, 1 trailing byte and a RESET_PAD of ceil(41 / 10) = 5 bytes make 65535; one byte more is refused. -/
def longStrip : ChannelMethod := { strip with pixelCount := 21843, resetTimeUs := 41, trail := 1 }
theorem longStrip_size :
    longStrip.lead + longStrip.pixelCount * longStrip.pixelSize + longStrip.trail +
      ⌈(longStrip.resetTimeUs / longStrip.byteSendTimeUs : ℚ)⌉₊ = 65535 := by
  rw [← resetPad_eq_ceil longStrip (by decide)]; decide
theorem tooLong_size :
    let c := { longStrip with trail := 2 }
    65535 < c.lead + c.pixelCount * c.pixelSize + c.trail + ⌈(c.resetTimeUs / c.byteSendTimeUs : ℚ)⌉₊ := by
  intro c; rw [← resetPad_eq_ceil c (by decide)]; decide
theorem witness_ChannelMethodFollowsItsProtocol :
    (strip.laneId = none ∧ strip.phase = .uninitialized ∧ 0 < strip.byteSendTimeUs ∧
      (14#16 : Half).toNat = strip.lead + strip.pixelCount * strip.pixelSize + strip.trail + ⌈(strip.resetTimeUs / strip.byteSendTimeUs : ℚ)⌉₊) ∧
    (longStrip.laneId = none ∧ (0xFFFF#16 : Half).toNat = longStrip.lead + longStrip.pixelCount * longStrip.pixelSize + longStrip.trail +
      ⌈(longStrip.resetTimeUs / longStrip.byteSendTimeUs : ℚ)⌉₊) ∧
    ([0#32, 1#32].length = [strip, strip].length ∧ [1#32, 1#32].length = [strip, strip].length ∧ 0x000000FF#32 ∉ [0#32, 1#32]) ∧
    (strip0.laneId = some 0#8 ∧ (strip0.phase = .ready ∨ strip0.phase = .sending true) ∧ frame2.pixels ≠ [] ∧
      [3#32, 6#32, 9#32].length = frame2.chunks.length ∧
      frame2.chunks = [[0x10#8, 0x20#8, 0x30#8], [0x40#8, 0x50#8, 0x60#8], [0x10#8, 0x20#8, 0x30#8]]) ∧
    (let c := { strip with laneId := some 0#8 }; c.laneId = some 0#8 ∧ c.phase = .uninitialized ∧
      (c.after (.constructed 1#32)).phase = .ready ∧ (c.after (.constructed 0#32)).phase = .uninitialized) ∧
    (let c := { strip with phase := .ready }; c.laneId = none ∧ (c.after .began).phase = .ready) :=
  ⟨⟨rfl, rfl, by decide, strip_size.symm⟩, ⟨rfl, longStrip_size.symm⟩, by decide, by decide, by decide, by decide⟩
theorem inv_built14 : built14.Inv := ⟨by decide, by decide, by decide, by decide, by decide, by decide, by decide⟩
theorem witness_UpdateWritesTheFrame :
    built14.Inv ∧ built14.xferBusy = false ∧ built14.bufState = .allocated ∧ built14.laneActive 0#8 = true ∧
      strip0.laneId = some 0#8 ∧ strip0.mayUpdate = true ∧ frame2.pixels ≠ [] ∧
      strip0.lead + strip0.pixelCount * strip0.pixelSize + strip0.trail ≤ built14.capSlots.toNat ∧ built14.completeMask = 0#16 ∧
      0 < frame2.chunks.flatten.length ∧ frame2.chunks.flatten.length * built14.cfg.cellsPerSlot < built14.ncells ∧
      (∀ j < 16, built14.activeMask.getLsbD j = true → j = (0#8 : LaneId).toNat) ∧
      (built.activeMask.getLsbD 1 = true ∧ 1 ≠ (0#8 : LaneId).toNat ∧ built.completeMask.getLsbD 1 = false) :=
  ⟨inv_built14, by decide, by decide, by decide, by decide, by decide, by decide, by decide, by decide, by decide, by decide, by decide,
    by decide⟩
theorem witness_PortAndResponsesAreQueues :
    (decode (withCmd [0x00050204#32] built).cmdBuf = .incomplete ∧
      ({ withCmd [0x00050204#32] built with port := [1#32, 2#32] } : State).port = 1#32 :: [2#32]) ∧
    ({ built with host := [.send 6#32, .read] } : State).host = .send 6#32 :: [.read] ∧
    (let s : State := { built with host := [.read], responses := [5#32, 6#32] }; s.host = .read :: [] ∧ s.responses = 5#32 :: [6#32]) ∧
    (let s : State := { built with host := [.read] }; s.host = .read :: [] ∧ s.responses = []) := by decide
/-- One command is on its way before the poll; then the poll is on its way, and answered. -/
theorem witness_WaitDoneEndsOnlyAfterTheTransfer :
    (polling.host = .waitDone :: [.read] ∧ (∀ c ∈ [[0x00000105#32]], WholeCommand c) ∧
      polling.cmdBuf ++ polling.port = [[0x00000105#32]].flatten) ∧
    (let s := hostStep polling; s.Inv ∧ s.host = .awaitDone 1 :: [.read] ∧ s.Polls 1) ∧
    (let s : State := { built with host := [.awaitDone 0], responses := [1#32] }; s.Inv ∧ s.host = .awaitDone 0 :: [] ∧ s.Polls 0 ∧
      ∃ t, step s = .next t ∧ t.host = []) ∧
    (let s : State := { sending with host := [.awaitDone 0], responses := [0#32] }; s.Inv ∧ s.host = .awaitDone 0 :: [] ∧ s.Polls 0) :=
  ⟨⟨rfl, by decide, by decide⟩, ⟨inv_half, by decide, .inl ⟨[[0x00000105#32]], by decide, by decide, by decide⟩⟩,
    ⟨inv_built, rfl, .inr ⟨rfl, rfl, rfl, fun _ => rfl⟩, _, rfl, rfl⟩, inv_sending, rfl, .inr ⟨rfl, rfl, rfl, by decide⟩⟩

/-- The end of a transfer that holds a BEGIN_FILL, the command after it, and then nothing more: a fair run. -/
def fairRun : Nat → State
  | 0 => withCmd [0x00000003#32] sent32
  | 1 => completeTransfer (withCmd [0x00000003#32] sent32)
  | _ + 2 => respond 0#32 (clearForCycle (completeTransfer (withCmd [0x00000003#32] sent32)))

theorem fairRun_fair : FairRun fairRun := by
  constructor
  · intro n
    match n with
    | 0 => rfl
    | 1 => rfl
    | n + 2 => rfl
  · intro n h
    have := h (n + 1) (by omega)
    match n with
    | 0 => exact absurd this (by decide)
    | n + 1 => exact absurd this (show ¬ (false = true) by decide)

theorem inv_fairRun : (fairRun 0).Inv := ⟨by decide, by decide, by decide, by decide, inv_sent32.2.2.2.2.1, by decide, by decide⟩

theorem witness_FairRunsCompleteEveryTransfer :
    FairRun fairRun ∧ (fairRun 0).Inv ∧ .reset ∉ (fairRun 0).host ∧ (fairRun 0).xferBusy = true :=
  ⟨fairRun_fair, inv_fairRun, by decide, by decide⟩
theorem witness_FairRunsPerformEveryCommand :
    FairRun fairRun ∧ (fairRun 0).Inv ∧ .reset ∉ (fairRun 0).host ∧ decode (fairRun 0).cmdBuf = .instr .beginFill :=
  ⟨fairRun_fair, inv_fairRun, by decide, by decide⟩

end Sys2Proof.Tests
end

section
/-! The proofs of the family of spec/10_state.md: the invariant of rule R32 along every step, the sticky registers FAULT, FAULT_INFO and
DIAG, the one answer of every command, and what the status registers read. -/

namespace Sys2Proof.Machine

/-! ### What each effect keeps of the invariant (rule R32) -/

/-- A lane that joins keeps the invariant, also while a transfer runs (rule R140). -/
theorem inv_addLane {s : State} (hi : s.Inv) {k : Nat} (d : Half) (hk : lowestFree s.cfg.bits s.activeMask = some k) :
    (addLane k d s).Inv := by
  obtain ⟨-, hm, hr, hb, ht, -, -⟩ := id hi
  obtain ⟨hm', hr'⟩ := registryInv_addLane hm hr d hk
  exact inv_of_parts hi rfl hm' hr'
    (bufferInv_congr hb rfl ⟨rfl, rfl, rfl, rfl, rfl, rfl, rfl⟩ rfl fun ha => or_ne_zero (hb.2.1 ha).1)
    (transferInv_congr ht rfl ⟨rfl, rfl, rfl, rfl, rfl, rfl, rfl⟩ rfl rfl ⟨rfl, rfl, rfl, rfl, rfl⟩) ⟨rfl, rfl, rfl⟩ rfl

/-- A logged condition keeps it: each has a defined bit of DIAG (rule R244). -/
theorem inv_logDiag {s : State} (hi : s.Inv) (d : DiagBit) : (logDiag d s).Inv := by
  obtain ⟨hc, hm, hr, hb, ht, ⟨hf, hd, hfi⟩, hp⟩ := hi
  have hn : d.number < 2 := by cases d <;> decide
  exact ⟨hc, hm, hr, hb, ht, ⟨hf, setBit_lt hd hn, hfi⟩, hp⟩

/-- A departure that leaves a lane registered keeps it (rule R141). -/
theorem inv_removeLane {s : State} (hi : s.Inv) (hx : s.xferBusy = false) {lane : LaneId} (hl : s.laneActive lane = true)
    (hz : (removeLane lane s).activeMask ≠ 0#16) : (removeLane lane s).Inv := by
  obtain ⟨-, hm, hr, hb, ht, -, -⟩ := id hi
  obtain ⟨hm', hsub, hcount⟩ := registryInv_removeLane hm hr hl
  exact inv_of_parts hi rfl hm' ⟨hsub, hcount, fun h0 => absurd h0 hz⟩
    (bufferInv_congr hb rfl ⟨rfl, rfl, rfl, rfl, rfl, rfl, rfl⟩ rfl fun _ => hz)
    (transferInv_idle ht hx ⟨rfl, rfl, rfl, rfl, rfl⟩) ⟨rfl, rfl, rfl⟩ rfl

/-- The last lane's departure keeps it: the buffer goes with the lane (rules R141, R162). -/
theorem inv_endConstructionCycle {s : State} (hi : s.Inv) (hx : s.xferBusy = false) {lane : LaneId} (hl : s.laneActive lane = true) :
    (endConstructionCycle (removeLane lane s)).Inv := by
  obtain ⟨-, hm, hr, hb, ht, -, -⟩ := id hi
  obtain ⟨hm', hsub, hcount⟩ := registryInv_removeLane hm hr hl
  refine inv_of_parts hi (by simp) ?_ ?_ (bufferInv_endConstructionCycle hb lane)
    (transferInv_idle ht hx (by simp [SameTransfer])) (by simp [SameLog]) (by simp)
  · simpa [State.MasksFit] using hm'
  · exact ⟨by simpa using hsub, by simpa using hcount, fun _ => rfl⟩

/-- A cycle's clear of an Allocated buffer keeps it (rules R163, R180). -/
theorem inv_clearForCycle {s : State} (hi : s.Inv) (hx : s.xferBusy = false) (ha : s.bufState = .allocated) :
    (clearForCycle s).Inv := by
  obtain ⟨-, hm, hr, hb, ht, -, -⟩ := id hi
  exact inv_of_parts hi (by simp) (by simpa [State.MasksFit] using hm) (by simpa [State.RegistryInv] using hr)
    (bufferInv_clearForCycle hb ha) (transferInv_idle ht hx (by simp [SameTransfer])) (by simp [SameLog]) (by simp)

/-- An active lane's completion keeps it (rules R142, R181). -/
theorem inv_markComplete {s : State} (hi : s.Inv) (hx : s.xferBusy = false) {lane : LaneId} (hl : s.laneActive lane = true) :
    (markComplete lane s).Inv := by
  obtain ⟨-, hm, hr, hb, ht, -, -⟩ := id hi
  obtain ⟨hm', hr'⟩ := registryInv_markComplete hm hr hl
  exact inv_of_parts hi rfl hm' hr' hb (transferInv_idle ht hx ⟨rfl, rfl, rfl, rfl, rfl⟩) ⟨rfl, rfl, rfl⟩ rfl

/-- The emptied completion bitmap keeps it (rule R147). -/
theorem inv_emptyCompletion {s : State} (hi : s.Inv) (hx : s.xferBusy = false) : (emptyCompletion s).Inv := by
  obtain ⟨-, ⟨hfit, -⟩, ⟨-, hcount, hmax⟩, hb, ht, -, -⟩ := id hi
  exact inv_of_parts hi rfl ⟨hfit, Nat.two_pow_pos _⟩ ⟨BitVec.zero_and, hcount, hmax⟩ hb
    (transferInv_idle ht hx ⟨rfl, rfl, rfl, rfl, rfl⟩) ⟨rfl, rfl, rfl⟩ rfl

/-- The start of a transfer of an Allocated buffer keeps it: no cell is emitted yet, and the idle lines are low (rules R166, R205). -/
theorem inv_startTransfer {s : State} (hi : s.Inv) (hx : s.xferBusy = false) (ha : s.bufState = .allocated) :
    (startTransfer s).Inv := by
  obtain ⟨-, ⟨hfit, -⟩, ⟨-, hcount, hmax⟩, hb, ht, -, -⟩ := id hi
  obtain ⟨-, hlines, -⟩ := ht.2 hx
  exact inv_of_parts hi rfl ⟨hfit, Nat.two_pow_pos _⟩ ⟨BitVec.zero_and, hcount, hmax⟩ hb
    ⟨fun _ => ⟨ha, rfl, Nat.zero_le _, rfl, hlines⟩, nofun⟩ ⟨rfl, rfl, rfl⟩ rfl

/-- No transfer runs while the buffer is Unallocated (rule R32, I5). -/
theorem State.Inv.idle_of_unallocated {s : State} (hi : s.Inv) (hu : s.bufState = .unallocated) : s.xferBusy = false := by
  obtain ⟨-, -, -, -, ht, -, -⟩ := hi
  rw [← Bool.not_eq_true]
  intro hx
  exact absurd ((ht.1 hx).1.symm.trans hu) nofun

/-- A built buffer keeps it (rule R160). -/
theorem inv_buildBuffer {s : State} (hi : s.Inv) (hu : s.bufState = .unallocated) (hz : s.activeMask ≠ 0#16) (q : Nat) :
    (buildBuffer (4 * q) s).Inv := by
  obtain ⟨hc, hm, hr, hb, ht, -, -⟩ := id hi
  exact inv_of_parts hi rfl hm hr (bufferInv_buildBuffer hc hb hu hz q)
    (transferInv_idle ht (hi.idle_of_unallocated hu) ⟨rfl, rfl, rfl, rfl, rfl⟩) ⟨rfl, rfl, rfl⟩ rfl

/-- TeardownBuffer keeps it (rule R162). -/
theorem inv_teardownBuffer {s : State} (hi : s.Inv) (hx : s.xferBusy = false) : (teardownBuffer s).Inv := by
  obtain ⟨-, hm, hr, hb, ht, -, -⟩ := id hi
  exact inv_of_parts hi (by simp) (by simpa [State.MasksFit] using hm) (by simpa [State.RegistryInv] using hr)
    (bufferInv_teardownBuffer hb) (transferInv_idle ht hx (by simp [SameTransfer])) (by simp [SameLog]) (by simp)

/-! ### What each agent keeps of it -/

/-- Every way of performing a command keeps the invariant. -/
theorem Performs.inv {i : Instr} {s u : State} {v : Word} (h : Performs i s v u) (hi : s.Inv) : u.Inv := by
  cases h with
  | registerFull d _ _ => exact inv_logDiag hi _
  | register d _ id hid => exact inv_addLane hi d hid
  | deregisterInactive lane _ _ _ => exact hi
  | deregister lane _ hx hl hz => exact inv_removeLane hi hx hl hz
  | deregisterLast lane _ hx hl _ => exact inv_endConstructionCycle hi hx hl
  | beginFill _ hx ha => exact inv_clearForCycle hi hx ha
  | encode lane h d _ hx _ ha ho _ => exact inv_storePayload_encode hi hx ha ho
  | endFill lane _ hx hl _ _ => exact inv_markComplete hi hx hl
  | endFillStart lane _ hx hl ha _ => exact inv_startTransfer (inv_markComplete hi hx hl) hx ha
  | isTransferDone => exact hi
  | markLaneComplete lane _ hx hl => exact inv_markComplete hi hx hl
  | allLanesComplete => exact hi
  | noLanesComplete => exact hi
  | resetCompletion _ hx => exact inv_emptyCompletion hi hx
  | constructAgain => exact hi
  | constructFail _ _ _ _ => exact inv_logDiag (s := askAllocator s) hi _
  | construct _ q hu hz _ => exact inv_buildBuffer (s := askAllocator s) hi hu hz q
  | destruct _ hx _ => exact inv_teardownBuffer hi hx
  | resetBufferForCycle _ hx ha => exact inv_clearForCycle hi hx ha
  | trigger _ hx _ _ ha => exact inv_startTransfer hi hx ha
  | triggerNotReady => exact hi
  | readStatus => exact hi

/-- A command keeps it, whether it waits, is performed or faults (rules R241, R270). -/
theorem inv_exec {i : Instr} {s t : State} (hi : s.Inv) (h : exec i s = .next t) : t.Inv := by
  rcases exec_next h with ⟨-, -, rfl⟩ | ⟨v, u, hp, rfl⟩ | ⟨code, -, rfl⟩
  · exact hi
  · exact inv_respond (hp.inv hi) v
  · exact inv_raiseFault hi code _

/-- The Command Unit's step keeps it (rules R31, R90, R242). -/
theorem inv_commandStep {s t : State} (hi : s.Inv) (h : commandStep s = .next t) : t.Inv := by
  rcases commandStep_cases s with ⟨hd, e⟩ | ⟨why, -, e⟩ | ⟨i, -, e⟩ <;> rw [e] at h
  · cases h; exact inv_acceptWord hi hd
  · cases h; exact inv_raiseFault hi _ _
  · exact inv_exec hi h

/-- The Transfer Engine's step keeps it (rule R201). -/
theorem inv_transferStep {s t : State} (hi : s.Inv) (hx : s.xferBusy = true) (h : transferStep s = .next t) : t.Inv := by
  rcases transferStep_next h with ⟨hlt, rfl⟩ | ⟨-, rfl⟩
  · exact inv_emitCell hi hx hlt
  · exact inv_completeTransfer hi

/-- The state after reset meets it (rules R7, R260, R261). -/
theorem inv_resetOf {c : Config} (hc : c.Admitted) : (State.resetOf c).Inv :=
  ⟨hc, ⟨Nat.two_pow_pos _, Nat.two_pow_pos _⟩, ⟨BitVec.zero_and, popcount_zero.symm, fun _ => rfl⟩,
    ⟨Memory.wf_nil, nofun, fun _ => ⟨rfl, rfl, rfl, rfl, rfl, rfl, rfl⟩⟩, ⟨nofun, fun _ => ⟨rfl, rfl, rfl⟩⟩,
    ⟨Nat.two_pow_pos _, Nat.two_pow_pos _, fun _ => rfl⟩, portInv_nil _ rfl⟩

/-- The host's step keeps it, a reset too: the host's own lists are outside the block (rules R90, R260). -/
theorem inv_hostStep {s : State} (hi : s.Inv) : (hostStep s).Inv := by
  rcases hostStep_cases s with e | ⟨w, rest, -, e⟩ | ⟨rest, -, e⟩ | ⟨r, rs, hs, -, e⟩ | ⟨rest, -, e⟩ <;> rw [e]
  · exact hi
  · exact hi
  · exact hi
  · exact hi
  · exact inv_resetOf hi.1

/-- Settles O47: each of the three agents keeps the invariant, and the draw of the schedule is no part of it. -/
theorem everyStepKeepsTheInvariant : Obligations.EveryStepKeepsTheInvariant := by
  intro s t hi h
  rcases step_cases s with ⟨e, -⟩ | ⟨d, ⟨-, e⟩ | ⟨-, e⟩ | ⟨hx, e⟩⟩ <;> rw [e] at h
  · cases h; exact hi
  · cases h; exact inv_hostStep (s := withDraws d s) hi
  · exact inv_commandStep (s := withDraws d s) hi h
  · exact inv_transferStep (s := withDraws d s) hi hx h

/-- Settles O46, part by part in `inv_resetOf`. -/
theorem resetMeetsTheInvariant : Obligations.ResetMeetsTheInvariant := fun _ => inv_resetOf

/-! ### The sticky registers (rule R32, I7) -/

/-- From `s` to `t` FAULT and DIAG lose no bit, and FAULT_INFO stays once there is a fault (rules R44 to R46). -/
def KeepsLog (s t : State) : Prop :=
  (∀ b, s.fault.getLsbD b = true → t.fault.getLsbD b = true) ∧ (∀ b, s.diag.getLsbD b = true → t.diag.getLsbD b = true) ∧
    (s.fault ≠ 0#32 → t.faultInfo = s.faultInfo)

theorem getLsbD_setBit_of_getLsbD {r : Word} {b : Nat} (n : Nat) (h : r.getLsbD b = true) : (setBit r n).getLsbD b = true := by
  simp [setBit, h]

theorem keepsLog_of_sameLog {s t : State} (h : SameLog s t) : KeepsLog s t := by
  obtain ⟨hf, hinfo, hd⟩ := h
  exact ⟨fun b hb => by rwa [hf], fun b hb => by rwa [hd], fun _ => hinfo⟩

/-- A fault sets its bit, and FAULT_INFO only if it is the first (rule R241). -/
theorem keepsLog_raiseFault (code : FaultCode) (w : Word) (s : State) : KeepsLog s (raiseFault code w s) :=
  ⟨fun _ => getLsbD_setBit_of_getLsbD _, fun _ => id, fun hf => if_neg hf⟩

/-- A performed command touches FAULT and FAULT_INFO never, and DIAG only to log a condition (rules R244, R245). -/
theorem Performs.log {i : Instr} {s u : State} {v : Word} (h : Performs i s v u) :
    SameLog s u ∨ u.fault = s.fault ∧ u.faultInfo = s.faultInfo ∧ ∃ d : DiagBit, u.diag = setBit s.diag d.number := by
  cases h with
  | registerFull _ _ _ => exact .inr ⟨rfl, rfl, .lanesFull, rfl⟩
  | constructFail _ _ _ _ => exact .inr ⟨rfl, rfl, .allocFail, rfl⟩
  | _ => exact .inl (by simp [SameLog])

theorem Performs.keepsLog {i : Instr} {s u : State} {v : Word} (h : Performs i s v u) : KeepsLog s u := by
  rcases h.log with hs | ⟨hf, hinfo, d, hd⟩
  · exact keepsLog_of_sameLog hs
  · exact ⟨fun b hb => by rwa [hf], fun b hb => by rw [hd]; exact getLsbD_setBit_of_getLsbD _ hb, fun _ => hinfo⟩

theorem keepsLog_commandStep {s t : State} (h : commandStep s = .next t) : KeepsLog s t := by
  rcases commandStep_cases s with ⟨-, e⟩ | ⟨why, -, e⟩ | ⟨i, -, e⟩ <;> rw [e] at h
  · cases h; exact keepsLog_of_sameLog (by simp [SameLog])
  · cases h; exact keepsLog_raiseFault _ _ _
  · rcases exec_next h with ⟨-, -, rfl⟩ | ⟨v, u, hp, rfl⟩ | ⟨code, -, rfl⟩
    · exact keepsLog_of_sameLog ⟨rfl, rfl, rfl⟩
    · exact hp.keepsLog
    · exact keepsLog_raiseFault _ _ _

theorem keepsLog_transferStep {s t : State} (h : transferStep s = .next t) : KeepsLog s t := by
  rcases transferStep_next h with ⟨-, rfl⟩ | ⟨-, rfl⟩ <;> exact keepsLog_of_sameLog ⟨rfl, rfl, rfl⟩

theorem keepsLog_hostStep {s : State} (h : s.host.head? ≠ some .reset) : KeepsLog s (hostStep s) := by
  obtain ⟨p, rs, hs, rc, e⟩ := hostStep_frame s h
  rw [e]; exact keepsLog_of_sameLog ⟨rfl, rfl, rfl⟩

theorem keepsLog_step {s t : State} (hr : s.host.head? ≠ some .reset) (h : step s = .next t) : KeepsLog s t := by
  rcases step_cases s with ⟨e, -⟩ | ⟨d, ⟨-, e⟩ | ⟨-, e⟩ | ⟨-, e⟩⟩ <;> rw [e] at h
  · cases h; exact keepsLog_of_sameLog ⟨rfl, rfl, rfl⟩
  · cases h; exact keepsLog_hostStep (s := withDraws d s) hr
  · exact keepsLog_commandStep (s := withDraws d s) h
  · exact keepsLog_transferStep (s := withDraws d s) h

/-- Settles O45, agent by agent. -/
theorem faultAndDiagBitsAreSticky : Obligations.FaultAndDiagBitsAreSticky := by
  rintro s t (h | h | ⟨hr, h | h⟩)
  · exact keepsLog_commandStep h
  · exact keepsLog_transferStep h
  · cases h; exact keepsLog_hostStep hr
  · exact keepsLog_step hr h

/-! ### The answer of a command (rules R31, R90) -/

/-- Settles O49, by the three things a command can do. -/
theorem everyCommandAnswersOnce : Obligations.EveryCommandAnswersOnce := by
  intro i s t h
  rcases exec_next h with ⟨hc, hx, rfl⟩ | ⟨v, u, hp, rfl⟩ | ⟨code, -, rfl⟩
  · exact ⟨⟨rfl, rfl, rfl, rfl, rfl⟩, .inl ⟨hc, hx, rfl⟩⟩
  · exact ⟨hp.sameOutside, .inr ⟨v, by simp [Answered, hp.answered.1]⟩⟩
  · exact ⟨⟨rfl, rfl, rfl, rfl, rfl⟩, .inr ⟨errResp, rfl, rfl⟩⟩

/-- A command at the head that is not held enables the Command Unit. -/
theorem commandReady_of_instr {s : State} {i : Instr} (hd : decode s.cmdBuf = .instr i)
    (hh : ¬(s.xferBusy = true ∧ i.holdClass = true)) : s.commandReady = true := by
  simpa only [State.commandReady, hd, Bool.not_eq_true', ← Bool.not_eq_true, Bool.and_eq_true] using hh

theorem commandStep_of_instr {s : State} {i : Instr} (hd : decode s.cmdBuf = .instr i) : commandStep s = exec i s := by
  simp only [commandStep, hd]

/-- Settles O50: the Command Unit is enabled, and steps where it is alone or is drawn. -/
theorem stepRunsTheDecodedCommand : Obligations.StepRunsTheDecodedCommand := by
  intro s i hd hh
  have hready := commandReady_of_instr hd hh
  constructor
  · intro hhost hx
    rw [step_of_command hhost hready hx, commandStep_of_instr hd]
  · intro hother hdraw
    rw [step_of_command_chosen hready hother hdraw]
    exact commandStep_of_instr hd

/-! ### What the status registers read (rules R34 to R48) -/

/-- A reserved `sel` reads 0 (rule R48). -/
theorem statusReg_reserved (s : State) {sel : Half} (h : 0x000E ≤ sel.toNat) : s.statusReg sel = 0#32 := by
  obtain ⟨n, hn⟩ : ∃ n, sel.toNat = n + 0xE := ⟨_, (Nat.sub_add_cancel h).symm⟩
  simp only [State.statusReg, hn]

/-- Settles O28: READ_STATUS answers the register's value and does no more. -/
theorem reservedStatusReadsZero : Obligations.ReservedStatusReadsZero := by
  intro s sel h
  show Host.Outcome.next (respond (s.statusReg sel) s) = _
  rw [statusReg_reserved s h]
  rfl

/-- Settles O53: the thirteen registers one by one, and the reserved rest. -/
theorem statusAfterResetReadsAsStated : Obligations.StatusAfterResetReadsAsStated := by
  intro c sel hsel
  have hne : sel.toNat ≠ 0xD := fun h => hsel (BitVec.eq_of_toNat_eq h)
  have h9 : sel = 0x9#16 ↔ sel.toNat = 0x9 := BitVec.toNat_eq
  simp only [h9]
  rcases (by omega : sel.toNat < 0xD ∨ 0xE ≤ sel.toNat) with hlt | hge
  · simp only [State.statusReg]
    generalize sel.toNat = n at *
    interval_cases n <;> rfl
  · rw [statusReg_reserved _ hge, if_neg (by omega)]

end Sys2Proof.Machine
end

section
/-! The proofs of the family of spec/20_memory.md: no step stops the machine at an access outside the region (rule R64), ENCODE stores to
its own slots only (rule R124), and no command touches a running transfer (rule R71). -/

namespace Sys2Proof.Machine

/-! ### Progress (rules R64, R202, R241) -/

/-- The converse of `exec_next`: in a state that meets the invariant, a command that does not wait is performed or has a cause of a fault. -/
theorem performs_or_faults {i : Instr} {s : State} (hi : s.Inv) (hx : i.holdClass = true → s.xferBusy = false) :
    (∃ v u, Performs i s v u) ∨ ∃ code, Faults code i s := by
  cases i with
  | registerLane d =>
    cases hf : lowestFree s.cfg.bits s.activeMask with
    | none => exact .inl ⟨_, _, .registerFull d s hf⟩
    | some id => exact .inl ⟨_, _, .register d s id hf⟩
  | deregisterLane lane =>
    cases hl : s.laneActive lane with
    | false => exact .inl ⟨_, _, .deregisterInactive lane s (hx rfl) hl⟩
    | true =>
      by_cases hz : (removeLane lane s).activeMask = 0#16
      · exact .inl ⟨_, _, .deregisterLast lane s (hx rfl) hl hz⟩
      · exact .inl ⟨_, _, .deregister lane s (hx rfl) hl hz⟩
  | beginFill =>
    cases hs : s.bufState with
    | unallocated => exact .inr ⟨.notAllocated, hs, .inl rfl⟩
    | allocated => exact .inl ⟨_, _, .beginFill s (hx rfl) hs⟩
  | encode lane h d =>
    cases hl : s.laneActive lane with
    | false => exact .inr ⟨.badLane, lane, hl, .inl ⟨h, d, rfl⟩⟩
    | true =>
      cases hs : s.bufState with
      | unallocated => exact .inr ⟨.notAllocated, hs, .inr (.inr (.inl ⟨lane, hl, .inl ⟨h, d, rfl⟩⟩))⟩
      | allocated =>
        rcases Nat.lt_or_ge s.capSlots.toNat (h.toNat + d.length) with ho | ho
        · exact .inr ⟨.outOfBounds, lane, h, d, rfl, hl, hs, ho⟩
        · exact .inl ⟨_, _, performs_encode hi (hx rfl) hl hs ho⟩
  | endFill lane =>
    cases hl : s.laneActive lane with
    | false => exact .inr ⟨.badLane, lane, hl, .inr (.inl rfl)⟩
    | true =>
      cases hs : s.bufState with
      | unallocated => exact .inr ⟨.notAllocated, hs, .inr (.inr (.inl ⟨lane, hl, .inr rfl⟩))⟩
      | allocated =>
        by_cases hq : (markComplete lane s).completeMask = s.activeMask
        · exact .inl ⟨_, _, .endFillStart lane s (hx rfl) hl hs hq⟩
        · exact .inl ⟨_, _, .endFill lane s (hx rfl) hl hs hq⟩
  | isTransferDone => exact .inl ⟨_, _, .isTransferDone s⟩
  | markLaneComplete lane =>
    cases hl : s.laneActive lane with
    | false => exact .inr ⟨.badLane, lane, hl, .inr (.inr rfl)⟩
    | true => exact .inl ⟨_, _, .markLaneComplete lane s (hx rfl) hl⟩
  | allLanesComplete => exact .inl ⟨_, _, .allLanesComplete s⟩
  | noLanesComplete => exact .inl ⟨_, _, .noLanesComplete s⟩
  | resetCompletion => exact .inl ⟨_, _, .resetCompletion s (hx rfl)⟩
  | construct =>
    cases hs : s.bufState with
    | allocated => exact .inl ⟨_, _, .constructAgain s hs⟩
    | unallocated =>
      by_cases hz : s.activeMask = 0#16
      · exact .inr ⟨.constructNoLanes, rfl, hs, hz⟩
      · cases ha : s.alloc.value Config.allocatorAnswer with
        | fail => exact .inl ⟨_, _, .constructFail s hs hz ha⟩
        | ok q => exact .inl ⟨_, _, .construct s q hs hz ha⟩
  | destruct =>
    by_cases hz : s.activeMask = 0#16
    · exact .inl ⟨_, _, .destruct s (hx rfl) hz⟩
    · exact .inr ⟨.prematureDestruct, rfl, hz⟩
  | resetBufferForCycle =>
    cases hs : s.bufState with
    | unallocated => exact .inr ⟨.notAllocated, hs, .inr (.inl rfl)⟩
    | allocated => exact .inl ⟨_, _, .resetBufferForCycle s (hx rfl) hs⟩
  | triggerTransferIfReady =>
    by_cases hr : s.completeMask = s.activeMask ∧ s.activeMask ≠ 0#16
    · cases hs : s.bufState with
      | unallocated => exact .inr ⟨.notAllocated, hs, .inr (.inr (.inr ⟨rfl, hr⟩))⟩
      | allocated => exact .inl ⟨_, _, .trigger s (hx rfl) hr.1 hr.2 hs⟩
    · exact .inl ⟨_, _, .triggerNotReady s (hx rfl) (by tauto)⟩
  | readStatus sel => exact .inl ⟨_, _, .readStatus sel s⟩

/-- No command stops the machine: ENCODE's access lies in the region (rules R64, R124). -/
theorem exec_progress {s : State} (hi : s.Inv) (i : Instr) : ∃ t, exec i s = .next t := by
  by_cases hw : i.holdClass = true ∧ s.xferBusy = true
  · exact ⟨s, exec_held hw.1 hw.2⟩
  · have hx : i.holdClass = true → s.xferBusy = false := fun hc => by simpa [hc] using hw
    rcases performs_or_faults hi hx with ⟨v, u, hp⟩ | ⟨code, hf⟩
    · exact ⟨_, hp.exec⟩
    · exact ⟨_, hf.exec hx⟩

/-- The Command Unit takes a word, refuses an illegal command or performs one; none of the three stops (rules R31, R241). -/
theorem commandStep_progress {s : State} (hi : s.Inv) : ∃ t, commandStep s = .next t := by
  rcases commandStep_cases s with ⟨-, e⟩ | ⟨-, -, e⟩ | ⟨i, -, e⟩
  · exact ⟨_, e⟩
  · exact ⟨_, e⟩
  · rw [e]; exact exec_progress hi i

/-- A running transfer's next step: the next cell lies in the region, so it is emitted; after the last the transfer ends (rule R201). -/
theorem transferStep_of_inv {s : State} (hi : s.Inv) (hx : s.xferBusy = true) :
    transferStep s = .next (if s.xferPos.toNat < s.ncells then emitCell s else completeTransfer s) := by
  obtain ⟨hc, -, -, hb, ⟨hbusy, -⟩, -, -⟩ := hi
  have ha : s.bufState = .allocated := (hbusy hx).1
  unfold transferStep
  split
  · next hn => rw [if_pos ((hb.sized ha).cellInRegion hc ha hn)]
  · rfl

/-- Settles O48, agent by agent; the draw of the schedule is no part of the invariant. -/
theorem noStepStopsTheMachine : Obligations.NoStepStopsTheMachine := by
  intro s hi
  rcases step_cases s with ⟨e, -⟩ | ⟨d, ⟨-, e⟩ | ⟨-, e⟩ | ⟨hx, e⟩⟩ <;> rw [e]
  · exact ⟨_, rfl⟩
  · exact ⟨_, rfl⟩
  · exact commandStep_progress (s := withDraws d s) hi
  · exact ⟨_, transferStep_of_inv (s := withDraws d s) hi hx⟩

/-! ### The bytes an ENCODE stores to (rules R63, R124) -/

/-- Settles O30: only a performed ENCODE stores, and `encodePayload` stores to the cells of its slots alone. -/
theorem encodeStoresOnlyToItsSlots : Obligations.EncodeStoresOnlyToItsSlots := by
  intro s t lane handle data a h hout
  rcases exec_next h with ⟨-, -, rfl⟩ | ⟨v, u, hp, rfl⟩ | ⟨code, -, rfl⟩
  · rfl
  · cases hp
    exact encodePayload_read_outside hout
  · rfl

/-! ### While a transfer runs (rules R71, R145, R270) -/

/-- A command of the hold class is performed only while no transfer runs: a held command answers nothing (rule R270). -/
theorem Performs.idle_of_holdClass {i : Instr} {s u : State} {v : Word} (h : Performs i s v u) (hc : i.holdClass = true) :
    s.xferBusy = false := by
  rw [← Bool.not_eq_true]
  intro hx
  have hs : respond v u = s := Host.Outcome.next.inj (h.exec.symm.trans (exec_held hc hx))
  have hr : s.responses ++ [v] = s.responses := by rw [← h.answered.1, ← respond_responses, hs, h.answered.1]
  simp at hr

/-- What is performed while a transfer runs reads the block, registers a lane or finds the buffer constructed (rule R71). -/
theorem Performs.keeps_running_transfer {i : Instr} {s u : State} {v : Word} (h : Performs i s v u) (hi : s.Inv)
    (hx : s.xferBusy = true) : u.mem = s.mem ∧ SameShape s u ∧ u.completeMask = s.completeMask ∧ SameTransfer s u := by
  have hc : i.holdClass ≠ true := fun hc => absurd (h.idle_of_holdClass hc) (by simp [hx])
  cases h with
  | registerFull | register | isTransferDone | allLanesComplete | noLanesComplete | constructAgain | constructFail | readStatus =>
    simp [SameShape, SameTransfer]
  | construct _ q hu _ _ => exact absurd (hi.idle_of_unallocated hu) (by simp [hx])
  | _ => exact absurd rfl hc

/-- Settles O41: a command waits, is performed without touching the transfer, or faults. -/
theorem noCommandTouchesARunningTransfer : Obligations.NoCommandTouchesARunningTransfer := by
  intro i s t hi hx h
  rcases exec_next h with ⟨-, -, rfl⟩ | ⟨v, u, hp, rfl⟩ | ⟨code, -, rfl⟩
  · exact ⟨rfl, ⟨rfl, rfl, rfl, rfl, rfl, rfl, rfl⟩, rfl, ⟨rfl, rfl, rfl, rfl, rfl⟩⟩
  · exact hp.keeps_running_transfer hi hx
  · exact ⟨rfl, ⟨rfl, rfl, rfl, rfl, rfl, rfl, rfl⟩, rfl, ⟨rfl, rfl, rfl, rfl, rfl⟩⟩

end Sys2Proof.Machine
end

section
/-! The proofs of the family of spec/30_encoding.md: decoding and encoding are inverse and the opcode map decides legality (rules R91 to
R99), the faults of ENCODE and of the decoder, the command port and its polls (rules R90, R103), runs (rule R270), and what a Channel
Method sends (rules R221 to R228). -/

namespace Sys2Proof

/-! ### Encoding and decoding (rules R91 to R99) -/

/-- Every command that can be encoded has as many words as its word 0 says (rules R92, R93). -/
theorem wordCount : ∀ i, Laws.WordCount.Statement i
  | .registerLane d => Laws.WordCount.registerLane d
  | .deregisterLane lane => Laws.WordCount.deregisterLane lane
  | .beginFill => Laws.WordCount.beginFill
  | .encode lane handle data => Laws.WordCount.encode lane handle data
  | .endFill lane => Laws.WordCount.endFill lane
  | .isTransferDone => Laws.WordCount.isTransferDone
  | .markLaneComplete lane => Laws.WordCount.markLaneComplete lane
  | .allLanesComplete => Laws.WordCount.allLanesComplete
  | .noLanesComplete => Laws.WordCount.noLanesComplete
  | .resetCompletion => Laws.WordCount.resetCompletion
  | .construct => Laws.WordCount.construct
  | .destruct => Laws.WordCount.destruct
  | .resetBufferForCycle => Laws.WordCount.resetBufferForCycle
  | .triggerTransferIfReady => Laws.WordCount.triggerTransferIfReady
  | .readStatus sel => Laws.WordCount.readStatus sel

/-- The arm that word 0's opcode selects reads the operands back (rules R91, R95, R97). -/
theorem decodeComplete_word0 {i : Instr} (h : i.wf = true) : decodeComplete i.word0 i.operandWords = .instr i := by
  cases i with
  | encode lane handle data =>
    have hlen : data.length ≤ 65535 := by simpa [Instr.wf] using h
    have hcount : (BitVec.ofNat 16 data.length).toNat = data.length := by rw [BitVec.toNat_ofNat]; omega
    simp only [decodeComplete, Instr.word0, Instr.operandWords, opField_f1, laneField_f1, argField_f1, List.headD_cons, List.tail_cons,
      hcount, unpackBytes_packBytes]
    rfl
  | _ => simp [decodeComplete, Instr.word0, needLaneZero, needArgZero]

/-- Settles O1: the words are as many as word 0 asks for, and the arm of its opcode reads them back. -/
theorem decodeOfEncodeIsTheCommand : Obligations.DecodeOfEncodeIsTheCommand := by
  intro i h
  have hlen : i.operandWords.length + 1 = commandLength i.word0 := wordCount i h
  rw [encode, decode_cons, if_pos hlen.ge, decodeComplete_word0 h]

/-- A word 0 from its opcode's number and its other fields (rule R91). -/
theorem f1_eq_of_fields {w : Word} {op : Nat} {lane : LaneId} {arg : Half} (ho : (opField w).toNat = op) (hl : laneField w = lane)
    (ha : argField w = arg) : f1 (BitVec.ofNat 8 op) lane arg = w := by
  rw [← ho, BitVec.ofNat_toNat, BitVec.setWidth_eq, ← hl, ← ha, f1_fields]

/-- The bytes an ENCODE decodes to are as many as its ARG says (rules R92, R93). -/
theorem unpackBytes_length_of_complete {w : Word} {rest : List Word} (ho : (opField w).toNat = 4)
    (hlen : commandLength w ≤ rest.length + 1) : (unpackBytes (argField w).toNat rest.tail).length = (argField w).toNat := by
  have hop : opField w = 0x04#8 := BitVec.eq_of_toNat_eq ho
  rw [commandLength, if_pos hop] at hlen
  exact unpackBytes_length (by rw [List.length_tail]; omega)

/-- A legal complete command is well formed and encodes its word 0: a field it does not keep is reserved, so 0 (rules R91, R93, R98). -/
theorem word0_of_decodeComplete {w : Word} {rest : List Word} {i : Instr} (hlen : commandLength w ≤ rest.length + 1)
    (h : decodeComplete w rest = .instr i) : i.word0 = w ∧ i.wf = true := by
  have keepsArg {op : Nat} {j : Instr} (ho : (opField w).toNat = op)
      (hj : j.word0 = f1 (BitVec.ofNat 8 op) 0#8 (argField w) ∧ j.wf = true) (h : needLaneZero w (.instr j) = .instr i) :
      i.word0 = w ∧ i.wf = true := by
    obtain ⟨hl, ⟨⟩⟩ := needLaneZero_instr h
    exact ⟨hj.1.trans (f1_eq_of_fields ho hl rfl), hj.2⟩
  have keepsLane {op : Nat} {j : Instr} (ho : (opField w).toNat = op)
      (hj : j.word0 = f1 (BitVec.ofNat 8 op) (laneField w) 0#16 ∧ j.wf = true) (h : needArgZero w (.instr j) = .instr i) :
      i.word0 = w ∧ i.wf = true := by
    obtain ⟨ha, ⟨⟩⟩ := needArgZero_instr h
    exact ⟨hj.1.trans (f1_eq_of_fields ho rfl ha), hj.2⟩
  have keepsNone {op : Nat} {j : Instr} (ho : (opField w).toNat = op)
      (hj : j.word0 = f1 (BitVec.ofNat 8 op) 0#8 0#16 ∧ j.wf = true) (h : needLaneZero w (needArgZero w (.instr j)) = .instr i) :
      i.word0 = w ∧ i.wf = true := by
    obtain ⟨hl, h⟩ := needLaneZero_instr h
    obtain ⟨ha, ⟨⟩⟩ := needArgZero_instr h
    exact ⟨hj.1.trans (f1_eq_of_fields ho hl ha), hj.2⟩
  unfold decodeComplete at h
  split at h
  case h_1 ho | h_15 ho => exact keepsArg ho ⟨rfl, rfl⟩ h
  case h_2 ho | h_5 ho | h_7 ho => exact keepsLane ho ⟨rfl, rfl⟩ h
  case h_4 ho =>
    cases h
    have hcount := unpackBytes_length_of_complete ho hlen
    have harg := (argField w).isLt
    refine ⟨f1_eq_of_fields ho rfl ?_, decide_eq_true (by omega)⟩
    rw [hcount, BitVec.ofNat_toNat, BitVec.setWidth_eq]
  case h_16 => cases h
  all_goals exact keepsNone ‹_› ⟨rfl, rfl⟩ h

/-- A command that `decode` reads, from the arm that read it (rules R92, R100). -/
theorem decodeComplete_of_decode {w : Word} {rest : List Word} (h : decode (w :: rest) ≠ .incomplete) :
    commandLength w ≤ rest.length + 1 ∧ decode (w :: rest) = decodeComplete w rest := by
  rw [ne_eq, decode_cons_incomplete, Nat.not_lt] at h
  exact ⟨h, by rw [decode_cons, if_pos h]⟩

/-- Settles O2, arm by arm in `word0_of_decodeComplete`. -/
theorem decodedCommandHasItsWordZero : Obligations.DecodedCommandHasItsWordZero := by
  intro w rest i h
  obtain ⟨hlen, e⟩ := decodeComplete_of_decode (w := w) (rest := rest) (by rw [h]; exact nofun)
  exact word0_of_decodeComplete hlen (e.symm.trans h)

/-- The row of the opcode map that is the command's own (rule R97). -/
def IsRowOf (r : OpcodeRow) (i : Instr) : Prop :=
  r ∈ opcodeMap ∧ i.word0 &&& r.mask = r.pattern ∧ r.mnemonic = i.mnemonic ∧ r.hold = i.holdClass

/-- The `k`-th row of the opcode map is the command's own, if the fields it masks are 0 in the command's word 0 (rules R97, R98). -/
theorem exists_isRowOf_of_index {i : Instr} (k : Fin opcodeMap.length) {lane : LaneId} {arg : Half}
    (hw : i.word0 = f1 (opField opcodeMap[k].pattern) lane arg) (hl : laneField opcodeMap[k].mask = 0#8 ∨ lane = 0#8)
    (ha : argField opcodeMap[k].mask = 0#16 ∨ arg = 0#16)
    (hi : opcodeMap[k].mnemonic = i.mnemonic ∧ opcodeMap[k].hold = i.holdClass) : ∃ r, IsRowOf r i := by
  have hmem : opcodeMap[k] ∈ opcodeMap := List.getElem_mem _
  refine ⟨_, hmem, (opcodeMap_selects_iff _ _ hmem).2 ?_, hi⟩
  rw [hw, opField_f1, laneField_f1, argField_f1]
  exact ⟨rfl, fun h => hl.resolve_left (by rw [h]; decide), fun h => ha.resolve_left (by rw [h]; decide)⟩

/-- Every command has a row of its own (rules R97, R270). -/
theorem exists_isRowOf : ∀ i : Instr, ∃ r, IsRowOf r i
  | .registerLane _ => exists_isRowOf_of_index ⟨0, by decide⟩ rfl (.inr rfl) (.inl rfl) ⟨rfl, rfl⟩
  | .deregisterLane _ => exists_isRowOf_of_index ⟨1, by decide⟩ rfl (.inl rfl) (.inr rfl) ⟨rfl, rfl⟩
  | .beginFill => exists_isRowOf_of_index ⟨2, by decide⟩ rfl (.inr rfl) (.inr rfl) ⟨rfl, rfl⟩
  | .encode _ _ _ => exists_isRowOf_of_index ⟨3, by decide⟩ rfl (.inl rfl) (.inl rfl) ⟨rfl, rfl⟩
  | .endFill _ => exists_isRowOf_of_index ⟨4, by decide⟩ rfl (.inl rfl) (.inr rfl) ⟨rfl, rfl⟩
  | .isTransferDone => exists_isRowOf_of_index ⟨5, by decide⟩ rfl (.inr rfl) (.inr rfl) ⟨rfl, rfl⟩
  | .markLaneComplete _ => exists_isRowOf_of_index ⟨6, by decide⟩ rfl (.inl rfl) (.inr rfl) ⟨rfl, rfl⟩
  | .allLanesComplete => exists_isRowOf_of_index ⟨7, by decide⟩ rfl (.inr rfl) (.inr rfl) ⟨rfl, rfl⟩
  | .noLanesComplete => exists_isRowOf_of_index ⟨8, by decide⟩ rfl (.inr rfl) (.inr rfl) ⟨rfl, rfl⟩
  | .resetCompletion => exists_isRowOf_of_index ⟨9, by decide⟩ rfl (.inr rfl) (.inr rfl) ⟨rfl, rfl⟩
  | .construct => exists_isRowOf_of_index ⟨10, by decide⟩ rfl (.inr rfl) (.inr rfl) ⟨rfl, rfl⟩
  | .destruct => exists_isRowOf_of_index ⟨11, by decide⟩ rfl (.inr rfl) (.inr rfl) ⟨rfl, rfl⟩
  | .resetBufferForCycle => exists_isRowOf_of_index ⟨12, by decide⟩ rfl (.inr rfl) (.inr rfl) ⟨rfl, rfl⟩
  | .triggerTransferIfReady => exists_isRowOf_of_index ⟨13, by decide⟩ rfl (.inr rfl) (.inr rfl) ⟨rfl, rfl⟩
  | .readStatus _ => exists_isRowOf_of_index ⟨14, by decide⟩ rfl (.inr rfl) (.inl rfl) ⟨rfl, rfl⟩

/-- A complete command whose word 0 a row selects is legal: the fields that its opcode's arm requires to be 0 are those the row masks
(rules R97, R98). -/
theorem legal_of_selects {w : Word} (rest : List Word) {r : OpcodeRow} (hr : r ∈ opcodeMap) (hs : w &&& r.mask = r.pattern) :
    ∃ i, decodeComplete w rest = .instr i := by
  obtain ⟨ho, hl, ha⟩ := (opcodeMap_selects_iff w r hr).1 hs
  have hf := List.mem_map_of_mem (f := fun r : OpcodeRow => (opField r.pattern, laneField r.mask, argField r.mask)) hr
  rw [opcodeMap_fields] at hf
  generalize opField r.pattern = op, laneField r.mask = lane, argField r.mask = arg at ho hl ha hf
  simp only [List.mem_cons, List.not_mem_nil, or_false, Prod.mk.injEq] at hf
  rcases hf with ⟨rfl, rfl, rfl⟩ | ⟨rfl, rfl, rfl⟩ | ⟨rfl, rfl, rfl⟩ | ⟨rfl, rfl, rfl⟩ | ⟨rfl, rfl, rfl⟩ | ⟨rfl, rfl, rfl⟩ |
    ⟨rfl, rfl, rfl⟩ | ⟨rfl, rfl, rfl⟩ | ⟨rfl, rfl, rfl⟩ | ⟨rfl, rfl, rfl⟩ | ⟨rfl, rfl, rfl⟩ | ⟨rfl, rfl, rfl⟩ |
    ⟨rfl, rfl, rfl⟩ | ⟨rfl, rfl, rfl⟩ | ⟨rfl, rfl, rfl⟩
  all_goals simp [decodeComplete, ho, needLaneZero, needArgZero, hl, ha]

/-- Settles O3: a selected word 0 is legal, and a legal one has its command's row. -/
theorem opcodeMapDecidesLegality : Obligations.OpcodeMapDecidesLegality := by
  intro w rest hd
  obtain ⟨hlen, e⟩ := decodeComplete_of_decode hd
  constructor
  · rintro ⟨r, hr, hs⟩
    obtain ⟨i, hi⟩ := legal_of_selects rest hr hs
    obtain ⟨rfl, -⟩ := word0_of_decodeComplete hlen hi
    obtain ⟨r', hrow⟩ := exists_isRowOf i
    exact ⟨i, e.trans hi, r', hrow⟩
  · intro hnone
    cases hw : decode (w :: rest) with
    | incomplete => exact absurd hw hd
    | illegal why => exact ⟨why, rfl⟩
    | instr i =>
      obtain ⟨rfl, -⟩ := word0_of_decodeComplete hlen (e.symm.trans hw)
      obtain ⟨r, hr, hs, -⟩ := exists_isRowOf i
      exact absurd hs (hnone r hr)

/-- OP is the byte that the mask 0xFF leaves (rule R91). -/
theorem opField_eq_iff (w : Word) (op : Byte) : opField w = op ↔ w &&& 0xFF#32 = op.setWidth 32 := by
  have hmask : w.toNat &&& 0xFF = w.toNat % 256 := Nat.and_two_pow_sub_one_eq_mod w.toNat 8
  have hop : op.toNat < 2 ^ 32 := op.isLt.trans (by decide)
  rw [BitVec.toNat_eq, BitVec.toNat_eq, opField, BitVec.extractLsb'_toNat, BitVec.toNat_and, BitVec.toNat_ofNat, BitVec.toNat_setWidth,
    Nat.mod_eq_of_lt hop, hmask, Nat.shiftRight_zero]

/-- ARG is the upper half (rule R91). -/
theorem toNat_argField (w : Word) : (argField w).toNat = (w >>> 16).toNat := by
  have h : w.toNat >>> 16 < 2 ^ 16 := by have := w.isLt; omega
  rw [argField, BitVec.extractLsb'_toNat, BitVec.toNat_ushiftRight, Nat.mod_eq_of_lt h]

/-- Settles O4: it is `decode_cons_incomplete`, with R92's length written out. -/
theorem completeLengthComesFromWordZero : Obligations.CompleteLengthComesFromWordZero := by
  intro w rest
  simp only [decode_cons_incomplete, commandLength, opField_eq_iff, toNat_argField]
  rfl

/-- Settles O5. -/
theorem workedEncodingsDecode : Obligations.WorkedEncodingsDecode := by
  unfold Obligations.WorkedEncodingsDecode
  decide

end Sys2Proof

namespace Sys2Proof.Machine

/-! ### Faults (rules R94, R96, R98, R241, R242) -/

/-- A command that does not wait and has a cause of a fault is refused with R241's effect. -/
theorem Faults.faulted {code : FaultCode} {i : Instr} {s : State} (h : Faults code i s) (hx : s.xferBusy = false) :
    ∃ t, Machine.exec i s = .next t ∧ Faulted code i.word0 s t :=
  ⟨_, h.exec fun _ => hx, faulted_raiseFault code i.word0 s⟩

/-- Settles O31: R124's bounds check is a cause of OUT_OF_BOUNDS, on unbounded naturals. -/
theorem encodePastTheEndFaults : Obligations.EncodePastTheEndFaults := by
  intro s lane handle data hx hl ha ho
  have hf : Faults .outOfBounds (.encode lane handle data) s := ⟨lane, handle, data, rfl, hl, ha, ho⟩
  exact hf.faulted hx

/-- Settles O43: in each of the three commands the lane is the first check. -/
theorem laneNotActiveFaultsBadLane : Obligations.LaneNotActiveFaultsBadLane := by
  intro s lane handle data hx hl i hi
  have hcmd : (∃ h d, i = .encode lane h d) ∨ i = .endFill lane ∨ i = .markLaneComplete lane := by
    simp only [List.mem_cons, List.not_mem_nil, or_false] at hi
    exact hi.imp_left fun e => ⟨handle, data, e⟩
  have hf : Faults .badLane i s := ⟨lane, laneActive_eq_false_iff.2 hl, hcmd⟩
  exact hf.faulted hx

/-- Settles O42: the Command Unit refuses an illegal command at decode, before any hold. -/
theorem illegalCommandFaultsAndIsNeverHeld : Obligations.IllegalCommandFaultsAndIsNeverHeld := by
  intro s w rest why hw hd
  have hready : s.commandReady = true := by simp only [State.commandReady, hd]
  have hstep : commandStep s = .next (raiseFault .illegalCmd w s) := by
    simp only [commandStep, hd]
    rw [refuseIllegal, hw, List.headD_cons]
  exact ⟨hready, _, hstep, faulted_raiseFault _ _ _⟩

/-! ### The queues of the port (rule R90) -/

/-- Settles O57, action by action. -/
theorem portAndResponsesAreQueues : Obligations.PortAndResponsesAreQueues := by
  refine ⟨fun s w rest hd hp => ⟨?_, ?_⟩, fun s w rest hh => ⟨?_, ?_⟩, fun s r rs rest hh hr => ⟨?_, ?_⟩, fun s rest hh hr => ?_⟩
  · simp [State.commandReady, hd, hp]
  · simp [agentStep, commandStep, hd, acceptWord, hp]
  · simp [State.hostReady, hh]
  · simp [agentStep, hostStep, hh, sendWord]
  · simp [State.hostReady, hh, hr]
  · simp [agentStep, hostStep, hh, hr, readResponse]
  · simp [State.hostReady, hh, hr]

/-! ### Chained ENCODEs (rules R94, R223) -/

/-- Settles O35: each ENCODE is performed, and the effects compose by `encodePayload_append`. -/
theorem chainedEncodesAreOneEncode : Obligations.ChainedEncodesAreOneEncode := by
  intro s lane handle d₁ d₂ hi hx ha hl ho
  rw [List.length_append] at ho
  have hcap := s.capSlots.isLt
  have hv : (BitVec.ofNat 32 (handle.toNat + d₁.length)).toNat = handle.toNat + d₁.length := by rw [BitVec.toNat_ofNat]; omega
  have ho₁ : handle.toNat + d₁.length ≤ s.capSlots.toNat := by omega
  have h₁ := performs_encode hi hx hl ha ho₁
  have hia := inv_respond (h₁.inv hi) (BitVec.ofNat 32 (handle.toNat + d₁.length))
  have h₂ := performs_encode (lane := lane) (h := BitVec.ofNat 32 (handle.toNat + d₁.length)) (d := d₂) hia hx hl ha
    (by rw [hv]; show _ ≤ s.capSlots.toNat; omega)
  have h := performs_encode (d := d₁ ++ d₂) hi hx hl ha (by rw [List.length_append]; exact ho)
  refine ⟨_, _, _, _, h₁.exec, rfl, h₂.exec, h.exec, ?_, _, rfl, ?_⟩
  · simp only [hv, encodePayload_append]; rfl
  · simp only [hv, List.length_append, Nat.add_assoc]; rfl

/-! ### Polls (rules R90, R103, R185) -/

/-- Where WAIT_DONE stands after a step: the poll is on its way or answered, it was answered 0 and the host polls again, or the wait is
over (rule R103). -/
def State.Waits (t : State) (rest : List HostAction) : Prop :=
  (∃ m, t.host = .awaitDone m :: rest ∧ t.Polls m) ∨ (t.host = .waitDone :: rest ∧ t.cmdBuf = [] ∧ t.port = []) ∨
    (t.host = rest ∧ t.xferBusy = false)

theorem decode_isTransferDone : decode [Instr.isTransferDone.word0] = .instr .isTransferDone := by decide

/-- The responses that come before a poll sent behind whole commands (rules R90, R92). -/
theorem outstanding_of_flatten {s : State} {cs : List (List Word)} (hcs : ∀ c ∈ cs, WholeCommand c)
    (h : s.cmdBuf ++ s.port = cs.flatten) : s.outstanding = s.responses.length + cs.length := by
  rw [State.outstanding, h, commandsBegun_flatten hcs]

/-- An older response was read: the poll's own is one nearer (rule R90). -/
theorem polls_readResponse {s : State} {k : Nat} {r : Word} {rs : List Word} (hr : s.responses = r :: rs) (h : s.Polls (k + 1))
    (hs : List HostAction) : (readResponse r rs { s with host := hs }).Polls k := by
  refine h.imp ?_ ?_
  · rintro ⟨cs, hcs, hq, hn⟩
    rw [hr, List.length_cons] at hn
    exact ⟨cs, hcs, hq, show rs.length + cs.length = k by omega⟩
  · rintro ⟨hc, hp, hn, hlast⟩
    rw [hr, List.length_cons] at hn
    refine ⟨hc, hp, show rs.length = k + 1 by omega, fun hl => hlast ?_⟩
    have hl : rs.getLast? = some 1#32 := hl
    rw [hr, List.getLast?_cons, hl]; rfl

/-- A response that no older one precedes is the poll's own, and the last (rules R90, R103). -/
theorem pollAnswered_of_response {s : State} {r : Word} {rs : List Word} (hr : s.responses = r :: rs) (h : s.Polls 0) :
    s.cmdBuf = [] ∧ s.port = [] ∧ (r = 1#32 → s.xferBusy = false) := by
  rcases h with ⟨cs, -, -, hn⟩ | ⟨hc, hp, hn, hlast⟩ <;> rw [hr, List.length_cons] at hn
  · omega
  · have hrs : rs = [] := List.eq_nil_of_length_eq_zero (by omega)
    exact ⟨hc, hp, fun hone => hlast (by rw [hr, hrs, hone]; rfl)⟩

/-- While older responses are to come the host reads on; the poll's own response ends the wait if it is 1 (rule R103). -/
theorem waits_hostStep {s : State} {older : Nat} {rest : List HostAction} (hh : s.host = .awaitDone older :: rest) (h : s.Polls older) :
    (hostStep s).Waits rest := by
  cases hr : s.responses with
  | nil =>
    have e : hostStep s = s := by simp only [hostStep, hh, hr]
    rw [e]; exact .inl ⟨older, hh, h⟩
  | cons r rs =>
    have e : hostStep s = readResponse r rs { s with host := afterPoll older r rest } := by simp only [hostStep, hh, hr]
    rw [e]
    cases older with
    | succ k => exact .inl ⟨k, rfl, polls_readResponse hr h _⟩
    | zero =>
      obtain ⟨hc, hp, hdone⟩ := pollAnswered_of_response hr h
      by_cases hone : r = 1#32
      · exact .inr (.inr ⟨by simp [readResponse, afterPoll, hone], hdone hone⟩)
      · exact .inr (.inl ⟨by simp [readResponse, afterPoll, hone], hc, hp⟩)

/-- A word taken joins `cmdBuf`: the words on their way are the same (rules R31, R90). -/
theorem acceptWord_queue (s : State) : (acceptWord s).cmdBuf ++ (acceptWord s).port = s.cmdBuf ++ s.port := by
  unfold acceptWord
  split
  · rfl
  · next w rest hp => rw [hp]; exact List.append_assoc ..

theorem polls_acceptWord {s : State} {older : Nat} (h : s.Polls older) : (acceptWord s).Polls older := by
  rcases h with ⟨cs, hcs, hq, hn⟩ | ⟨hc, hp, hn, hlast⟩
  · exact .inl ⟨cs, hcs, by rw [acceptWord_queue, hq], by rw [acceptWord_responses, hn]⟩
  · have e : acceptWord s = s := by simp only [acceptWord, hp]
    rw [e]; exact .inr ⟨hc, hp, hn, hlast⟩

/-- The complete command in front of a poll, or the poll itself, is answered (rules R90, R185, R241). -/
theorem polls_of_command_answered {s t : State} {older : Nat} (hport : s.PortInv) (hready : s.commandReady = true)
    (hd : decode s.cmdBuf ≠ .incomplete) (h : s.PollOnItsWay older) (he : commandStep s = .next t) : t.Polls older := by
  obtain ⟨cs, hcs, hq, hn⟩ := h
  obtain ⟨hne, hlen⟩ := complete_of_portInv hport hd
  obtain ⟨⟨v, hr, hbuf⟩, -, hp, -⟩ := commandStep_answered hready hd he
  have hall : ∀ c ∈ cs ++ [[Instr.isTransferDone.word0]], WholeCommand c :=
    List.forall_mem_append.2 ⟨hcs, List.forall_mem_singleton.2 wholeCommand_isTransferDone⟩
  obtain ⟨cs', hcs', hrest⟩ := head_of_wholeCommands hall (by simpa using hq) hne hlen
  cases cs with
  | nil =>
    obtain ⟨hhead, rfl⟩ := List.cons.inj hcs'
    rw [List.length_nil] at hn
    have e : t = respond (flagWord s.xferDone) s := by
      simp only [commandStep, ← hhead, decode_isTransferDone] at he
      exact (Host.Outcome.next.inj he).symm
    refine .inr ⟨hbuf, hp.trans hrest, by rw [hr, List.length_append, ← hn]; rfl, ?_⟩
    rw [e, respond_responses, respond_xferBusy, List.getLast?_concat]
    cases hx : s.xferBusy <;> simp [State.xferDone, flagWord, hx]
  | cons c cs =>
    obtain ⟨-, rfl⟩ := List.cons.inj hcs'
    rw [List.length_cons] at hn
    refine .inl ⟨cs, (List.forall_mem_cons.1 hcs).2, ?_, ?_⟩
    · rw [hbuf, hp, hrest]; simp
    · rw [hr, List.length_append, List.length_singleton]; omega

/-- The Command Unit takes a word, or answers the command at the head (rules R31, R90). -/
theorem polls_commandStep {s t : State} {older : Nat} (hport : s.PortInv) (hready : s.commandReady = true) (h : s.Polls older)
    (he : commandStep s = .next t) : t.Polls older := by
  by_cases hd : decode s.cmdBuf = .incomplete
  · simp only [commandStep, hd] at he
    cases he
    exact polls_acceptWord h
  · rcases h with h | ⟨hc, -⟩
    · exact polls_of_command_answered hport hready hd h he
    · exact absurd (by rw [hc, decode_nil]) hd

/-- The Transfer Engine touches no queue, and ends the transfer or leaves it (rule R201). -/
theorem polls_transferStep {s t : State} {older : Nat} (h : s.Polls older) (he : transferStep s = .next t) : t.Polls older := by
  obtain ⟨hc, hp, hr, -, hidle⟩ := transferStep_port he
  refine h.imp ?_ ?_
  · rintro ⟨cs, hcs, hq, hn⟩
    exact ⟨cs, hcs, by rw [hc, hp, hq], by rw [hr, hn]⟩
  · rintro ⟨h1, h2, hn, hlast⟩
    exact ⟨hc.trans h1, hp.trans h2, by rw [hr, hn], fun hl => hidle (hlast (by rwa [hr] at hl))⟩

/-- Settles O58: the poll is sent behind the commands before it; then agent by agent. -/
theorem waitDoneEndsOnlyAfterTheTransfer : Obligations.WaitDoneEndsOnlyAfterTheTransfer := by
  refine ⟨fun s rest cs hh hcs hq => ?_, fun s t older rest hi hh hpoll he => ?_⟩
  · have hout := outstanding_of_flatten hcs hq
    have e : hostStep s = sendWord Instr.isTransferDone.word0 { s with host := .awaitDone s.outstanding :: rest } := by
      simp only [hostStep, hh]
    refine ⟨hostStep s, s.outstanding, rfl, by rw [e]; rfl, .inl ⟨cs, hcs, ?_, ?_⟩, by rw [e]; rfl, hout⟩
    · rw [e, ← hq, List.append_assoc]; rfl
    · rw [e]; exact hout.symm
  · show t.Waits rest
    obtain ⟨-, -, -, -, -, -, hport⟩ := hi
    rcases step_cases s with ⟨e, -⟩ | ⟨d, ⟨-, e⟩ | ⟨hready, e⟩ | ⟨-, e⟩⟩ <;> rw [e] at he
    · cases he; exact .inl ⟨older, hh, hpoll⟩
    · cases he; exact waits_hostStep (s := withDraws d s) hh hpoll
    · exact .inl ⟨older, (commandStep_host he).trans hh, polls_commandStep (s := withDraws d s) hport hready hpoll he⟩
    · exact .inl ⟨older, (transferStep_port he).2.2.2.1.trans hh, polls_transferStep (s := withDraws d s) hpoll he⟩

/-! ### Every command at the head is performed (rules R90, R202, R270) -/

/-- The steps an action costs the host: one, and two for WAIT_DONE, which sends its poll and reads a response (rule R103). -/
def HostAction.work : HostAction → Nat
  | .send _ => 1
  | .read => 1
  | .waitDone => 2
  | .awaitDone _ => 1
  | .reset => 1

/-- Bounds the host's steps until the next response: a poll that is read may be sent again, so each unread response counts for two. -/
def State.hostWork (s : State) : Nat := 2 * s.responses.length + (s.host.map HostAction.work).sum

/-- The Transfer Engine's steps until no transfer runs (rule R201). -/
def State.transferWork (s : State) : Nat := if s.xferBusy = true then s.ncells - s.xferPos.toNat + 1 else 0

/-- What is left of a poll when a response was read costs no more than a new WAIT_DONE (rule R103). -/
theorem work_afterPoll_le (older : Nat) (r : Word) (rest : List HostAction) :
    ((afterPoll older r rest).map HostAction.work).sum ≤ 2 + (rest.map HostAction.work).sum := by
  cases older with
  | zero => simp only [afterPoll]; split <;> simp [HostAction.work]
  | succ k => simp [afterPoll, HostAction.work]

/-- The host's every action but a reset uses up work of its own. -/
theorem hostWork_hostStep_lt {s : State} (hready : s.hostReady = true) (hn : s.host.head? ≠ some .reset) :
    (hostStep s).hostWork < s.hostWork := by
  cases hh : s.host with
  | nil => simp [State.hostReady, hh] at hready
  | cons a rest =>
    cases a with
    | send w => simp [State.hostWork, hostStep, hh, sendWord, HostAction.work]
    | waitDone => simp [State.hostWork, hostStep, hh, sendWord, HostAction.work]
    | reset => simp [hh] at hn
    | read =>
      cases hr : s.responses with
      | nil => simp [State.hostReady, hh, hr] at hready
      | cons r rs => simp [State.hostWork, hostStep, hh, hr, readResponse, HostAction.work]; omega
    | awaitDone older =>
      cases hr : s.responses with
      | nil => simp [State.hostReady, hh, hr] at hready
      | cons r rs =>
        have := work_afterPoll_le older r rest
        simp [State.hostWork, hostStep, hh, hr, readResponse, HostAction.work]; omega

/-- The host leaves the Transfer Engine its work (rule R202). -/
theorem transferWork_hostStep {s : State} (hn : s.host.head? ≠ some .reset) : (hostStep s).transferWork = s.transferWork := by
  obtain ⟨p, rs, hs, rc, e⟩ := hostStep_frame s hn
  rw [e]; rfl

/-- Each emit step and the completion step use up the Transfer Engine's work (rule R201). -/
theorem transferWork_transferStep_lt {s t : State} (hx : s.xferBusy = true) (h : transferStep s = .next t) :
    t.transferWork < s.transferWork := by
  have hn := s.ncells_lt
  rcases transferStep_next h with ⟨hlt, rfl⟩ | ⟨-, rfl⟩
  · have hpos : (s.xferPos + 1#32).toNat = s.xferPos.toNat + 1 := by rw [BitVec.toNat_add, BitVec.toNat_ofNat]; omega
    have hc : (emitCell s).ncells = s.ncells := rfl
    simp only [State.transferWork, emitCell_xferBusy, hx, if_true, emitCell_xferPos, hpos, hc]
    omega
  · simp [State.transferWork, hx]

/-- The Transfer Engine leaves the host its work. -/
theorem hostWork_transferStep {s t : State} (h : transferStep s = .next t) : t.hostWork = s.hostWork := by
  obtain ⟨-, -, hr, hh, -⟩ := transferStep_port h
  simp only [State.hostWork, hr, hh]

/-- The steps that the host and the Transfer Engine can take before the Command Unit's next one. -/
def State.otherWork (s : State) : Nat := s.hostWork + s.transferWork

/-- With a legal command at the head a step performs it, or leaves it there and uses up work of another agent: where the command is held
a transfer runs, so no step is idle (rules R202, R270). -/
theorem step_performs_or_works {s t : State} {i : Instr} (hn : s.host.head? ≠ some .reset) (hd : decode s.cmdBuf = .instr i)
    (he : step s = .next t) :
    (exec i (withDraws s.chooseAgent.2 s) = .next t ∧ ∃ v, Answered v s t) ∨ (t.cmdBuf = s.cmdBuf ∧ t.otherWork < s.otherWork) := by
  have hready : s.hostReady = true ∨ s.commandReady = true ∨ s.xferBusy = true := by
    cases hx : s.xferBusy with
    | true => exact .inr (.inr rfl)
    | false => exact .inr (.inl (commandReady_of_instr hd (by simp [hx])))
  obtain ⟨a, ha⟩ := chosen_of_ready hready
  obtain ⟨hhost, hcommand, htransfer⟩ := ready_of_chosen ha
  rw [step_of_chosen ha] at he
  generalize s.chooseAgent.2 = d at he ⊢
  cases a with
  | host =>
    obtain rfl : hostStep (withDraws d s) = t := Host.Outcome.next.inj he
    obtain ⟨p, rs, hs, rc, e⟩ := hostStep_frame (withDraws d s) hn
    have hw : (hostStep (withDraws d s)).hostWork < s.hostWork := hostWork_hostStep_lt (s := withDraws d s) (hhost rfl) hn
    have ht : (hostStep (withDraws d s)).transferWork = s.transferWork := transferWork_hostStep (s := withDraws d s) hn
    exact .inr ⟨by rw [e]; rfl, by simp only [State.otherWork, ht]; omega⟩
  | commandUnit =>
    have he : commandStep (withDraws d s) = .next t := he
    have hcomplete : decode s.cmdBuf ≠ .incomplete := by rw [hd]; exact nofun
    obtain ⟨hans, -⟩ := commandStep_answered (s := withDraws d s) (hcommand rfl) hcomplete he
    exact .inl ⟨(commandStep_of_instr (s := withDraws d s) hd).symm.trans he, hans⟩
  | transferEngine =>
    have he : transferStep (withDraws d s) = .next t := he
    have hw : t.hostWork = s.hostWork := hostWork_transferStep (s := withDraws d s) he
    have ht : t.transferWork < s.transferWork := transferWork_transferStep_lt (s := withDraws d s) (htransfer rfl) he
    exact .inr ⟨(transferStep_port he).1, by simp only [State.otherWork, hw]; omega⟩

/-- A host that does not reset in a run's first state never comes to. -/
theorem reset_notMem_of_isRun {r : Nat → State} (hr : IsRun r) (h : .reset ∉ (r 0).host) (n : Nat) : .reset ∉ (r n).host := by
  induction n with
  | zero => exact h
  | succ n ih => exact reset_notMem_step ih (hr n)

/-- In a run without resets a legal command at the head is performed once the other agents have used up their work, or before. -/
theorem performed_of_isRun {r : Nat → State} (hr : IsRun r) (hn : .reset ∉ (r 0).host) {i : Instr} (w : Nat) :
    ∀ n, (r n).otherWork = w → decode (r n).cmdBuf = .instr i →
      ∃ m, n ≤ m ∧ (∀ k, n ≤ k → k ≤ m → (r k).cmdBuf = (r n).cmdBuf) ∧
        exec i (withDraws (r m).chooseAgent.2 (r m)) = .next (r (m + 1)) ∧ ∃ v, Answered v (r m) (r (m + 1)) := by
  induction w using Nat.strong_induction_on with
  | _ w ih =>
    intro n hw hd
    rcases step_performs_or_works (head_ne_reset (reset_notMem_of_isRun hr hn n)) hd (hr n) with ⟨hexec, hans⟩ | ⟨hbuf, hlt⟩
    · exact ⟨n, le_rfl, fun k h1 h2 => by rw [Nat.le_antisymm h2 h1], hexec, hans⟩
    · obtain ⟨m, hm, hsame, hexec, hans⟩ := ih _ (hw ▸ hlt) (n + 1) rfl (hbuf ▸ hd)
      refine ⟨m, by omega, fun k h1 h2 => ?_, hexec, hans⟩
      rcases h1.eq_or_lt with rfl | h1
      · rfl
      · rw [hsame k h1 h2, hbuf]

/-- Settles O60: the other agents can take only so many steps while the command stays at the head (`State.otherWork`), so it is performed
whatever the choice of agents is. -/
theorem fairRunsPerformEveryCommand : Obligations.FairRunsPerformEveryCommand :=
  fun _ hr _ hn n _ hd => performed_of_isRun hr.1 hn _ n rfl hd

/-! ### What a Channel Method sends (rules R103, R221 to R228) -/

/-- A program that ends after one call sends that call, whatever is answered. -/
theorem actions_call_done {α : Type} (i : Instr) (g : Word → α) (rs : List Word) :
    (HostProgram.call i fun r => .done (g r)).actions rs = syncCall i := by
  cases rs <;> simp [HostProgram.actions]

/-- The second half of INIT_LANE: CONSTRUCT, for a strip that has a lane (rule R221). -/
def ChannelMethod.constructCall (c : ChannelMethod) : HostProgram ChannelMethod :=
  match c.laneId with
  | none => .done c
  | some _ => .call .construct fun r => .done (c.after (.constructed r))

theorem initLane_eq (c : ChannelMethod) : c.initLane = c.register.andThen ChannelMethod.constructCall := rfl

theorem initStrips_eq (cs : List ChannelMethod) :
    initStrips cs = (eachStrip ChannelMethod.register cs).andThen (eachStrip ChannelMethod.constructCall) := rfl

theorem constructCall_of_lane {c : ChannelMethod} {lane : LaneId} (hl : c.laneId = some lane) :
    c.constructCall = .call .construct fun r => .done (c.after (.constructed r)) := by
  simp only [ChannelMethod.constructCall, hl]

theorem constructCall_of_no_lane {c : ChannelMethod} (hl : c.laneId = none) : c.constructCall = .done c := by
  simp only [ChannelMethod.constructCall, hl]

/-- REGISTER_LANE's response, unless it is 0xFF, is the strip's lane (rule R221). -/
theorem after_registered_laneId {c : ChannelMethod} (hp : c.phase = .uninitialized) (hl : c.laneId = none) (r : Word) :
    (c.after (.registered r)).laneId = if r = 0x000000FF#32 then none else some (r.setWidth 8) := by
  rw [after_registered hp hl]
  split
  · exact hl
  · rfl

theorem actions_constructCall (c : ChannelMethod) (rs : List Word) :
    c.constructCall.actions rs = if c.laneId = none then [] else syncCall .construct := by
  cases hl : c.laneId with
  | none => rw [constructCall_of_no_lane hl]; rfl
  | some lane => rw [constructCall_of_lane hl, actions_call_done]; rfl

/-- A strip that may not register, and has no lane, sends nothing in INIT_LANE (rules R221, R222). -/
theorem initLane_of_register_done {c : ChannelMethod} (hr : c.register = .done c) (hl : c.laneId = none) : c.initLane = .done c := by
  rw [initLane_eq, hr, andThen_done, constructCall_of_no_lane hl]

theorem register_of_no_dataSize {c : ChannelMethod} (hd : c.dataSize = none) : c.register = .done c := by
  unfold ChannelMethod.register
  split
  · next h => rw [hd] at h; cases h
  · rfl

theorem register_of_nonFunctional {c : ChannelMethod} (hp : c.phase = .nonFunctional) : c.register = .done c := by
  simp only [ChannelMethod.register, hp]

/-- INIT_LANE of a strip that has a frame size (rules R221, R222). -/
theorem actions_register_initLane {c : ChannelMethod} {d : Half} (hl : c.laneId = none) (hp : c.phase = .uninitialized)
    (hd : c.dataSize = some d) (r : Word) (rs : List Word) :
    c.register.actions (r :: rs) = syncCall (.registerLane d) ∧
      c.initLane.actions (r :: rs) = syncCall (.registerLane d) ++ (if r = 0x000000FF#32 then [] else syncCall .construct) := by
  have hr := register_eq hp hl hd
  refine ⟨by rw [hr, actions_call_done], ?_⟩
  rw [initLane_eq, hr, andThen_call, actions_call, andThen_done, actions_constructCall, after_registered_laneId hp hl]
  by_cases hf : r = 0x000000FF#32 <;> simp [hf]

/-- Each strip of a block has a lane, where no REGISTER_LANE is refused (rule R221). -/
theorem laneId_of_mem_registered {cs : List ChannelMethod} {rs : List Word} (hc : ∀ c ∈ cs, c.laneId = none ∧ c.phase = .uninitialized)
    (hff : 0x000000FF#32 ∉ rs) :
    ∀ c' ∈ List.zipWith (fun c r => c.after (.registered r)) cs rs, ∃ lane, c'.laneId = some lane := by
  intro c' hmem
  rw [← List.map_uncurry_zip_eq_zipWith] at hmem
  obtain ⟨⟨c, r⟩, hcr, rfl⟩ := List.mem_map.1 hmem
  obtain ⟨hmc, hmr⟩ := List.of_mem_zip hcr
  obtain ⟨hl, hp⟩ := hc c hmc
  exact ⟨_, (after_registered_laneId hp hl r).trans (if_neg fun e : r = 0x000000FF#32 => hff (e ▸ hmr))⟩

/-- The strips of a block, where no REGISTER_LANE is refused: all are registered before the first CONSTRUCT (rule R221). -/
theorem actions_initStrips {cs : List ChannelMethod} {d : ChannelMethod → Half} {rs qs : List Word}
    (hc : ∀ c ∈ cs, c.laneId = none ∧ c.phase = .uninitialized) (hd : ∀ c ∈ cs, c.dataSize = some (d c)) (hrs : rs.length = cs.length)
    (hqs : qs.length = cs.length) (hff : 0x000000FF#32 ∉ rs) :
    (initStrips cs).actions (rs ++ qs) =
      cs.flatMap (fun c => syncCall (.registerLane (d c))) ++ cs.flatMap fun _ => syncCall .construct := by
  have hlanes := laneId_of_mem_registered hc hff
  have hlen : (List.zipWith (fun c r => ChannelMethod.after c (.registered r)) cs rs).length = cs.length := by simp [hrs]
  rw [initStrips_eq, actions_eachStrip (fun c h => register_eq (hc c h).2 (hc c h).1 (hd c h)) _ hrs]
  generalize List.zipWith (fun c r => ChannelMethod.after c (.registered r)) cs rs = cs' at hlanes hlen ⊢
  have hconstruct := actions_eachStrip (i := fun _ => .construct)
    (fun c' h => constructCall_of_lane (hlanes c' h).choose_spec) .done (hqs.trans hlen.symm) []
  rw [andThen_done_right, List.append_nil, actions_done, List.append_nil] at hconstruct
  rw [hconstruct]
  simp [List.flatMap, hlen]

/-- UPDATE's calls in order, each ENCODE with the response before it as its handle (rule R223). -/
theorem actions_fillFrame (c : ChannelMethod) (lane : LaneId) {chunks : List (List Byte)} {hs : List Word}
    (hlen : hs.length = chunks.length) (h r : Word) :
    (c.fillFrame lane chunks).actions (h :: hs ++ [r]) =
      syncCall .beginFill ++ (List.zipWith (fun bytes h => syncCall (.encode lane h bytes)) chunks (h :: hs)).flatten ++
        syncCall (.endFill lane) := by
  obtain ⟨h', e⟩ := actions_encodeEach (lane := lane) (h := h) (qs := [r])
    (fun _ => HostProgram.call (.endFill lane) fun r => .done ((c.after .began).after (.ended r))) hlen
  rw [ChannelMethod.fillFrame, List.cons_append, actions_call, e, actions_call_done, ← List.append_assoc]

theorem update_of_no_lane {α : Type} {c : ChannelMethod} (wait : Bool) (f : Frame α c) (hl : c.laneId = none) :
    c.update wait f = .done c := by
  unfold ChannelMethod.update
  split
  · rfl
  · rfl
  · next h _ => rw [hl] at h; cases h

theorem update_of_no_pixels {α : Type} {c : ChannelMethod} (wait : Bool) (f : Frame α c) (hp : f.pixels = []) :
    c.update wait f = .done c := by
  unfold ChannelMethod.update
  split
  · rfl
  · rfl
  · next h => rw [hp] at h; cases h

theorem update_of_not_mayUpdate {α : Type} {c : ChannelMethod} (wait : Bool) (f : Frame α c) (hm : c.mayUpdate = false) :
    c.update wait f = .done c := by
  unfold ChannelMethod.update
  split
  · rfl
  · rfl
  · rw [hm]; rfl

/-- A strip is ready from its CONSTRUCT's answer 1 (rules R221, R228). -/
theorem after_constructed_ready_iff {c : ChannelMethod} {lane : LaneId} (hl : c.laneId = some lane) (hp : c.phase = .uninitialized)
    (r : Word) : (c.after (.constructed r)).phase = .ready ↔ r = 1#32 := by
  have e : c.after (.constructed r) = if r = 1#32 then { c with phase := .ready } else c := by simp only [ChannelMethod.after, hp, hl]
  rw [e]
  split <;> simp [*]

/-- No event makes a strip without a lane ready (rule R228). -/
theorem ready_of_after_ready {c : ChannelMethod} {e : ChannelEvent} (hl : c.laneId = none) (h : (c.after e).phase = .ready) :
    c.phase = .ready := by
  unfold ChannelMethod.after at h
  split at h
  case h_1 | h_2 | h_11 => exact h
  case h_3 => cases h
  case h_4 =>
    split at h
    · cases h
    · exact h
  all_goals exact absurd (hl.symm.trans ‹c.laneId = some _›) nofun

/-- The byte lists of an UPDATE, with R224's wrap written out (rules R223, R224). -/
theorem Frame.chunks_eq {α : Type} {c : ChannelMethod} (f : Frame α c) (hp : f.pixels ≠ []) :
    f.chunks = (if 0 < c.lead then [f.leading.toList] else []) ++
      (List.range c.pixelCount).map (fun p =>
        ((f.pixels[p % f.pixels.length]?).map fun x => (f.serialize (f.shader x)).toList).getD []) ++
      (if 0 < c.trail then [f.trailing.toList] else []) := by
  rw [Frame.chunks, framePixels_eq _ _ hp]

/-- UPDATE of a strip that may send it, with or without its WAIT_DONE (rules R103, R223). -/
theorem actions_update {α : Type} {c : ChannelMethod} {lane : LaneId} {wait : Bool} {f : Frame α c} (hl : c.laneId = some lane)
    (hm : c.mayUpdate = true) (hp : f.pixels ≠ []) {hs : List Word} (hlen : hs.length = f.chunks.length) (h r : Word) :
    (c.update wait f).actions (h :: hs ++ [r]) =
      (if wait = true then [.waitDone] else []) ++ syncCall .beginFill ++
        (List.zipWith (fun bytes h => syncCall (.encode lane h bytes)) f.chunks (h :: hs)).flatten ++ syncCall (.endFill lane) := by
  rw [update_eq hl hm hp]
  cases wait with
  | true => rw [if_pos rfl, if_pos rfl, actions_waitDone, actions_fillFrame _ _ hlen]; rfl
  | false => simp only [Bool.false_eq_true, if_false, List.nil_append]; exact actions_fillFrame _ _ hlen h r

theorem teardown_of_lane {c : ChannelMethod} {lane : LaneId} (hl : c.laneId = some lane) :
    c.teardown =
      .waitDone (.call (.deregisterLane lane) fun _ => .done ((c.after (.polled 1#32)).after .deregistered)) := by
  simp only [ChannelMethod.teardown, hl]

theorem teardown_of_no_lane {c : ChannelMethod} (hl : c.laneId = none) : c.teardown = .done c := by
  simp only [ChannelMethod.teardown, hl]

/-- A strip that REGISTER_LANE refused sends nothing any more, and stays as it is (rule R221). -/
theorem refused_strip_is_silent {c : ChannelMethod} (hl : c.laneId = none) (hp : c.phase = .nonFunctional) :
    (∀ e, c.after e = c) ∧ ∀ (wait : Bool) (f : Frame Nat c) (rs : List Word),
      c.register.actions rs = [] ∧ c.initLane.actions rs = [] ∧ (c.update wait f).actions rs = [] ∧ c.teardown.actions rs = [] := by
  have hr := register_of_nonFunctional hp
  refine ⟨after_nonFunctional hp, fun wait f rs => ?_⟩
  rw [hr, initLane_of_register_done hr hl, update_of_no_lane wait f hl, teardown_of_no_lane hl]
  exact ⟨rfl, rfl, rfl, rfl⟩

/-- Settles O55, clause by clause. -/
theorem channelMethodFollowsItsProtocol : Obligations.ChannelMethodFollowsItsProtocol := by
  refine ⟨?_, ?_, ?_, ?_, ?_, ?_, ?_, ?_, ?_, ?_⟩
  · intro c r rs hl hp hb d hd
    exact actions_register_initLane hl hp (dataSize_eq_some hb hd) r rs
  · intro c rs hl hbig
    rw [initLane_of_register_done (register_of_no_dataSize (dataSize_eq_none hbig)) hl]; rfl
  · intro c hl hp
    refine refused_strip_is_silent ?_ ?_
    · rw [after_registered_laneId hp hl, if_pos rfl]
    · rw [after_registered hp hl, if_pos rfl]
  · intro cs d rs qs hc hrs hqs hff
    refine actions_initStrips (fun c h => ?_) (fun c h => ?_) hrs hqs hff <;> obtain ⟨hl, hp, hb, hd⟩ := hc c h
    · exact ⟨hl, hp⟩
    · exact dataSize_eq_some hb hd
  · intro c lane wait f h r hs hl hphase hp chunks hchunks hlen
    obtain rfl : chunks = f.chunks := hchunks.trans (f.chunks_eq hp).symm
    have hm : c.mayUpdate = true := by rcases hphase with e | e <;> rw [ChannelMethod.mayUpdate, e]
    exact actions_update hl hm hp hlen h r
  · rintro c wait f rs (hl | hphase | hp)
    · rw [update_of_no_lane wait f hl]; rfl
    · rw [update_of_not_mayUpdate wait f (by rw [ChannelMethod.mayUpdate, hphase])]; rfl
    · rw [update_of_no_pixels wait f hp]; rfl
  · intro c lane r rs hl
    rw [teardown_of_lane hl, actions_waitDone, actions_call_done]
  · intro c rs hl
    rw [teardown_of_no_lane hl]; rfl
  · intro c lane r hl hp
    exact after_constructed_ready_iff hl hp r
  · intro c e hl h
    exact ready_of_after_ready hl h

end Sys2Proof.Machine
end

section
/-! The proofs of the family of spec/40_bit_encoder.md: what an ENCODE does to the cells, bit by bit (rules R120 to R124, R126), what DEC
finds after it (rules R125, R127), that ENCODEs commute, and the commands that need the buffer (rule R240). -/

namespace Sys2Proof.Machine

/-! ### The cells after an ENCODE (rules R120 to R124, R126) -/

/-- The answer of a legal ENCODE comes from its performance: there is no other outcome (rule R124). -/
theorem encode_performed {s t : State} {lane : LaneId} {handle : Word} {data : List Byte} (hi : s.Inv) (hx : s.xferBusy = false)
    (hl : s.laneActive lane = true) (ha : s.bufState = .allocated) (ho : handle.toNat + data.length ≤ s.capSlots.toNat)
    (h : exec (.encode lane handle data) s = .next t) : ∃ v u, Performs (.encode lane handle data) s v u ∧ t = respond v u := by
  have hp := performs_encode hi hx hl ha ho
  exact ⟨_, _, hp, Host.Outcome.next.inj (h.symm.trans hp.exec)⟩

/-- The lane's bit of the cells that an ENCODE covers: the pattern's level is OR-ed in (rule R124). -/
theorem Performs.getLsbD_cell_encode {s u : State} {v : Word} {lane : LaneId} {handle : Word} {data : List Byte}
    (h : Performs (.encode lane handle data) s v u) (hi : s.Inv) {j p k : Nat} (hj : j < data.length) (hp : p < 8)
    (hk : k < s.cfg.cellsPerBit) :
    (u.cell ((handle.toNat + j) * s.cfg.cellsPerSlot + p * s.cfg.cellsPerBit + k)).getLsbD lane.toNat =
      ((s.cell ((handle.toNat + j) * s.cfg.cellsPerSlot + p * s.cfg.cellsPerBit + k)).getLsbD lane.toNat ||
        (pattern s.cfg.cells (data[j].getLsbD (7 - p))).getD k false) := by
  obtain ⟨hc, -, -, ⟨hm, -⟩, -⟩ := hi
  cases h with
  | encode _ _ _ _ _ hl =>
    rw [cell_storePayload]
    exact getLsbD_encodePayload_lane hc _ hm (laneActive_iff.1 hl).1 _ _ hj hp hk

/-- An ENCODE leaves the other lanes' bits, and every bit of a cell outside its slots (rule R126). -/
theorem Performs.getLsbD_cell_encode_other {s u : State} {v : Word} {lane : LaneId} {handle : Word} {data : List Byte}
    (h : Performs (.encode lane handle data) s v u) (hi : s.Inv) {n b : Nat}
    (hn : b ≠ lane.toNat ∨ n < handle.toNat * s.cfg.cellsPerSlot ∨ (handle.toNat + data.length) * s.cfg.cellsPerSlot ≤ n) :
    (u.cell n).getLsbD b = (s.cell n).getLsbD b := by
  obtain ⟨hc, -, -, ⟨hm, -⟩, -⟩ := hi
  cases h with
  | encode _ _ _ _ _ hl =>
    rw [cell_storePayload, getLsbD_encodePayload hc _ hm (laneActive_iff.1 hl).1]
    change ((s.cell n).getLsbD b || _) = _
    rcases hn with hb | hlow | hpast
    · simp [hb]
    · simp [Nat.not_le.2 hlow]
    · have hd : data.length * s.cfg.cellsPerSlot ≤ n - handle.toNat * s.cfg.cellsPerSlot := by
        rw [Nat.add_mul] at hpast; omega
      rw [getD_encodeBytes_past _ _ hd, Bool.and_false, Bool.or_false]

/-- An ENCODE changes the payload's bytes and nothing else of the block (rule R124). -/
theorem Performs.encode_frame {s u : State} {v : Word} {lane : LaneId} {handle : Word} {data : List Byte}
    (h : Performs (.encode lane handle data) s v u) :
    SameRegistry s u ∧ SameShape s u ∧ SameTransfer s u ∧ SameLog s u ∧ SameOutside s u ∧ SameAlloc s u := by
  cases h
  simp [SameRegistry, SameShape, SameTransfer, SameLog, SameOutside, SameAlloc]

/-- Settles O29: the level that `getLsbD_cell_encode` names is R120's by `getD_pattern`. -/
theorem encodeOrsThePatternsIntoItsLane : Obligations.EncodeOrsThePatternsIntoItsLane := by
  intro s lane handle data hi hx hlt hact ha ho
  have hp := performs_encode hi hx (laneActive_iff.2 ⟨hlt, hact⟩) ha ho
  refine ⟨_, hp.exec, ⟨rfl, rfl⟩, fun j p k hj h8 hk => ?_, fun n b _ hn => hp.getLsbD_cell_encode_other hi hn, hp.encode_frame⟩
  rw [Bool.or_assoc, ← getD_pattern s.cfg _ hk]
  exact hp.getLsbD_cell_encode hi hj h8 hk

/-! ### DEC after an ENCODE (rules R125, R127) -/

/-- Cell `p * K + k` is one of its slot's (rule R62). -/
theorem cell_lt_cellsPerSlot {c : Config} {p k : Nat} (hp : p < 8) (hk : k < c.cellsPerBit) :
    p * c.cellsPerBit + k < c.cellsPerSlot :=
  calc p * c.cellsPerBit + k < (p + 1) * c.cellsPerBit := by rw [Nat.succ_mul]; omega
    _ ≤ 8 * c.cellsPerBit := Nat.mul_le_mul_right _ hp

/-- Settles O32: on cells whose lane bits are 0 the levels OR-ed in are the byte's encoding. -/
theorem decodingTheSlotsGivesTheBytesBack : Obligations.DecodingTheSlotsGivesTheBytesBack := by
  intro s t lane handle data hi hx hl ha ho h j hj hzero
  obtain ⟨v, u, hp, rfl⟩ := encode_performed hi hx hl ha ho h
  change u.decodeSlot _ _ = _
  rw [decodeSlot_eq_some, hp.sameOutside.1]
  intro p h8 k hk
  rw [hp.getLsbD_cell_encode hi hj h8 hk, Nat.add_assoc, hzero _ (cell_lt_cellsPerSlot h8 hk), Bool.false_or]

/-- The patterns of two source bits, one over the other, are the pattern of the bits' OR: P0 lies below P1 (rules R120, R127). -/
theorem getD_pattern_or (c : Config) (a b : Bool) {k : Nat} (hk : k < c.cellsPerBit) :
    ((pattern c.cells a).getD k false || (pattern c.cells b).getD k false) = (pattern c.cells (a || b)).getD k false := by
  simp only [getD_pattern c _ hk, Bool.and_or_distrib_right]
  cases k == 0 <;> simp

/-- Settles O33: each cell holds the OR of two patterns, the pattern of the OR of their bits. -/
theorem repeatedEncodeOrsTheBytes : Obligations.RepeatedEncodeOrsTheBytes := by
  intro s t lane handle data hi hx hl ha ho h j hj old hold
  obtain ⟨v, u, hp, rfl⟩ := encode_performed hi hx hl ha ho h
  change u.decodeSlot _ _ = _
  rw [decodeSlot_eq_some] at hold
  rw [decodeSlot_eq_some, hp.sameOutside.1]
  intro p h8 k hk
  rw [hp.getLsbD_cell_encode hi hj h8 hk, hold p h8 k hk, getD_pattern_or _ _ _ hk, BitVec.getLsbD_or]

/-! ### ENCODEs of different lanes (rule R126) -/

/-- A performed and answered command keeps the invariant. -/
theorem Performs.inv_respond {i : Instr} {s u : State} {v : Word} (h : Performs i s v u) (hi : s.Inv) : (respond v u).Inv :=
  Machine.inv_respond (h.inv hi) v

/-- Two legal ENCODEs in a row: both responses, and the second's bits OR-ed over the first's (rules R124, R126). -/
theorem exec_encode_encode {s : State} (hi : s.Inv) (hx : s.xferBusy = false) (ha : s.bufState = .allocated) {l₁ l₂ : LaneId}
    {h₁ h₂ : Word} {d₁ d₂ : List Byte} (hl₁ : s.laneActive l₁ = true) (hl₂ : s.laneActive l₂ = true)
    (ho₁ : h₁.toNat + d₁.length ≤ s.capSlots.toNat) (ho₂ : h₂.toNat + d₂.length ≤ s.capSlots.toNat) :
    ∃ a, exec (.encode l₁ h₁ d₁) s = .next a ∧ exec (.encode l₂ h₂ d₂) a =
      .next (respond (BitVec.ofNat 32 (h₂.toNat + d₂.length)) (respond (BitVec.ofNat 32 (h₁.toNat + d₁.length)) (storePayload
        (encodePayload s.cfg s.payloadOff l₂.toNat h₂.toNat d₂ (encodePayload s.cfg s.payloadOff l₁.toNat h₁.toNat d₁ s.mem)) s))) := by
  have p₁ := performs_encode hi hx hl₁ ha ho₁
  have p₂ := performs_encode (p₁.inv_respond hi) hx hl₂ ha ho₂
  exact ⟨_, p₁.exec, p₂.exec⟩

/-- Settles O34: each order stores both payloads, one over the other, and that is the same payload by `encodePayload_comm`. -/
theorem encodesOfDifferentLanesCommute : Obligations.EncodesOfDifferentLanesCommute := by
  intro s l₁ l₂ h₁ h₂ d₁ d₂ hi hx ha _ hl₁ hl₂ ho₁ ho₂
  obtain ⟨a, ea, eab⟩ := exec_encode_encode hi hx ha hl₁ hl₂ ho₁ ho₂
  obtain ⟨b, eb, eba⟩ := exec_encode_encode hi hx ha hl₂ hl₁ ho₂ ho₁
  refine ⟨a, _, b, _, ea, eab, eb, eba, ?_⟩
  obtain ⟨hc, -, -, ⟨hm, -⟩, -⟩ := hi
  rw [encodePayload_comm hc _ hm (laneActive_iff.1 hl₁).1 (laneActive_iff.1 hl₂).1]
  rfl

/-! ### The commands that need the buffer (rule R240) -/

/-- Settles O44: without the buffer each of the five commands has the cause NOT_ALLOCATED. -/
theorem missingBufferFaultsNotAllocated : Obligations.MissingBufferFaultsNotAllocated := by
  intro s lane handle data hx hu
  refine ⟨fun i hi => ?_, fun hl i hi => ?_, fun hz hq => ?_⟩
  · have hcmd : i = .beginFill ∨ i = .resetBufferForCycle := by simpa using hi
    have hf : Faults .notAllocated i s := ⟨hu, hcmd.imp_right .inl⟩
    exact hf.faulted hx
  · have hcmd : i = .encode lane handle data ∨ i = .endFill lane := by simpa using hi
    have hf : Faults .notAllocated i s := ⟨hu, .inr (.inr (.inl ⟨lane, hl, hcmd.imp_left fun e => ⟨handle, data, e⟩⟩))⟩
    exact hf.faulted hx
  · have hf : Faults .notAllocated .triggerTransferIfReady s := ⟨hu, .inr (.inr (.inr ⟨rfl, hq, hz⟩))⟩
    exact hf.faulted hx

end Sys2Proof.Machine
end

section
/-! The proofs of the family of spec/41_lane_registry.md: lanes that join, leave and complete (rules R140 to R142, R147), the queries
(rules R145, R146, R185), the quorum counter (rule R143) and the largest lane size (rule R148). -/

namespace Sys2Proof.Machine

/-! ### The masks, bit by bit (rule R11) -/

theorem getLsbD_or_laneBit_eq_or_beq (m : LaneMask) (i : Nat) {j : Nat} (hj : j < 16) :
    (m ||| laneBit i).getLsbD j = (m.getLsbD j || j == i) := by
  rw [getLsbD_or_laneBit, decide_eq_true hj, Bool.true_and, beq_eq_decide]

theorem getLsbD_and_not_laneBit_eq_and_bne (m : LaneMask) (i j : Nat) :
    (m &&& ~~~laneBit i).getLsbD j = (m.getLsbD j && j != i) := by
  rw [getLsbD_and_not_laneBit, decide_not, bne, beq_eq_decide]

/-- The last lane leaves exactly if no other lane is active (rule R141). -/
theorem removeLane_activeMask_eq_zero_iff {s : State} {lane : LaneId} :
    (removeLane lane s).activeMask = 0#16 ↔ ∀ j < 16, j ≠ lane.toNat → s.activeMask.getLsbD j = false := by
  rw [removeLane_activeMask, mask_eq_zero_iff]
  refine forall₂_congr fun j _ => ?_
  rw [getLsbD_and_not_laneBit, Bool.and_eq_false_iff, decide_eq_false_iff_not, not_not, or_comm, or_iff_not_imp_left]

/-! ### Frames -/

/-- What stays in place when a command answers and touches the lane registry alone. -/
theorem frame_of_registry_only {s u : State} {a c : LaneMask} {n : BitVec 5} {d : Half} (v : Word)
    (hu : u = { s with activeMask := a, completeMask := c, laneCount := n, maxLaneDataSize := d }) :
    SameShape s (respond v u) ∧ SameBytes s (respond v u) ∧ SameTransfer s (respond v u) ∧ SameLog s (respond v u) ∧
      SameOutside s (respond v u) ∧ SameAlloc s (respond v u) := by
  subst hu
  exact ⟨⟨rfl, rfl, rfl, rfl, rfl, rfl, rfl⟩, fun _ => rfl, ⟨rfl, rfl, rfl, rfl, rfl⟩, ⟨rfl, rfl, rfl⟩, ⟨rfl, rfl, rfl, rfl, rfl⟩, rfl⟩

/-! ### TeardownBuffer (rule R162) -/

theorem teardownBuffer_of_unallocated {s : State} (hu : s.bufState = .unallocated) : teardownBuffer s = s := by
  simp only [teardownBuffer, hu]

theorem teardownBuffer_bufState (s : State) : (teardownBuffer s).bufState = .unallocated := by
  unfold teardownBuffer
  split
  · assumption
  · rfl

theorem emptyBuffer_teardownBuffer {s : State} (ha : s.bufState = .allocated) : (teardownBuffer s).EmptyBuffer := by
  simp only [teardownBuffer, ha, State.EmptyBuffer, and_self]

/-! ### REGISTER_LANE (rules R140, R144) -/

/-- Settles O6: first fit finds the lowest free id, and a lane that joins touches the registry alone. -/
theorem registerLaneTakesTheLowestFreeId : Obligations.RegisterLaneTakesTheLowestFreeId := by
  intro s d id hid hfree hlow
  have hp := Performs.register d s id (lowestFree_some.2 ⟨hid, hfree, hlow⟩)
  refine ⟨_, hp.exec, ⟨rfl, rfl⟩, fun j hj => getLsbD_or_laneBit_eq_or_beq _ _ hj, rfl, rfl, ?_, frame_of_registry_only _ rfl⟩
  rw [respond_maxLaneDataSize, addLane_maxLaneDataSize]
  split <;> omega

/-- Settles O7: with no free id the command is performed by logging alone. -/
theorem registerLaneWhenFullOnlyLogs : Obligations.RegisterLaneWhenFullOnlyLogs := fun s d hfull =>
  (Performs.registerFull d s (lowestFree_none.2 hfull)).exec

/-! ### DEREGISTER_LANE (rule R141) -/

/-- Settles O8: another active lane keeps the mask from becoming empty, so the buffer and the largest size stay. -/
theorem deregisterLaneKeepsTheOthers : Obligations.DeregisterLaneKeepsTheOthers := by
  intro s lane other hx hl ho hne hact
  have hz : (removeLane lane s).activeMask ≠ 0#16 := fun hz =>
    Bool.false_ne_true ((removeLane_activeMask_eq_zero_iff.1 hz other ho hne).symm.trans hact)
  exact ⟨_, (Performs.deregister lane s hx hl hz).exec, ⟨rfl, rfl⟩, fun j _ => getLsbD_and_not_laneBit_eq_and_bne _ _ j,
    fun j _ => getLsbD_and_not_laneBit_eq_and_bne _ _ j, rfl, rfl, frame_of_registry_only _ rfl⟩

/-- Settles O9: no lane stays, so TeardownBuffer runs; it empties an Allocated buffer and leaves an Unallocated one. -/
theorem deregisterLastLaneTearsDown : Obligations.DeregisterLastLaneTearsDown := by
  intro s lane hx hl hothers
  have hz := removeLane_activeMask_eq_zero_iff.2 hothers
  refine ⟨_, (Performs.deregisterLast lane s hx hl hz).exec, by simp [Answered], ?_, fun j _ => ?_, by simp, rfl,
    teardownBuffer_bufState _, fun ha => emptyBuffer_teardownBuffer (s := removeLane lane s) ha, fun hu => ?_,
    by simp [SameTransfer], by simp [SameLog], by simp [SameOutside], by simp [SameAlloc]⟩
  · simpa using hz
  · simpa using getLsbD_and_not_laneBit_eq_and_bne s.completeMask lane.toNat j
  · have hu : (removeLane lane s).bufState = .unallocated := hu
    rw [endConstructionCycle, teardownBuffer_of_unallocated hu]
    exact ⟨⟨rfl, rfl, rfl, rfl, rfl, rfl, rfl⟩, fun _ => rfl⟩

/-- Settles O10: an id that is not an active lane is answered and nothing else. -/
theorem deregisterInactiveLaneDoesNothing : Obligations.DeregisterInactiveLaneDoesNothing := fun s lane hx hl =>
  (Performs.deregisterInactive lane s hx (laneActive_eq_false_iff.2 hl)).exec

/-! ### The completion bitmap (rules R142, R145 to R147, R185) -/

/-- Settles O11: the mark is a bit of the registry. -/
theorem markLaneCompleteSetsItsBit : Obligations.MarkLaneCompleteSetsItsBit := by
  intro s lane hx hlt hact
  have hp := Performs.markLaneComplete lane s hx (laneActive_iff.2 ⟨hlt, hact⟩)
  exact ⟨_, hp.exec, ⟨rfl, rfl⟩, fun j hj => getLsbD_or_laneBit_eq_or_beq _ _ hj, rfl, rfl, rfl, frame_of_registry_only _ rfl⟩

/-- Settles O12: each query answers the flag of its predicate; a lane on which the masks differ refutes it. -/
theorem queriesAnswerTheirPredicate : Obligations.QueriesAnswerTheirPredicate := by
  intro s
  refine ⟨⟨flagWord s.allLanesComplete, rfl, fun h => ?_, fun j _ hj => ?_⟩,
    ⟨flagWord s.noLanesComplete, rfl, fun h => ?_, fun j _ hj => ?_⟩,
    ⟨flagWord s.xferDone, rfl, fun h => ?_, fun h => ?_⟩⟩
  · rw [allLanesComplete_iff.2 (mask_ext h)]; rfl
  · have hf : s.allLanesComplete = false := Bool.eq_false_iff.2 fun e => hj (by rw [allLanesComplete_iff.1 e])
    rw [hf]; rfl
  · rw [noLanesComplete_iff.2 ((mask_eq_zero_iff _).2 h)]; rfl
  · have hf : s.noLanesComplete = false := Bool.eq_false_iff.2 fun e => by simp [noLanesComplete_iff.1 e] at hj
    rw [hf]; rfl
  · rw [State.xferDone, h]; rfl
  · rw [State.xferDone, h]; rfl

/-- Settles O13: the command is not held, so its effect is the emptied bitmap. -/
theorem resetCompletionEmptiesTheBitmap : Obligations.ResetCompletionEmptiesTheBitmap := fun s hx =>
  (Performs.resetCompletion s hx).exec

/-! ### The quorum counter (rule R143) -/

/-- `laneCount` counts the active lanes (rule R32, I2). -/
theorem State.Inv.laneCount_eq {s : State} (hi : s.Inv) : s.laneCount.toNat = popcount s.activeMask := by
  obtain ⟨-, -, ⟨-, hcount, -⟩, -, -, -, -⟩ := hi
  exact hcount

/-- The barrier predicate is a comparison of counts, as the completed lanes are active ones (rule R143). -/
theorem State.Inv.barrier_iff_popcount {s : State} (hi : s.Inv) :
    s.completeMask = s.activeMask ↔ popcount s.completeMask = s.laneCount.toNat := by
  rw [hi.laneCount_eq]
  obtain ⟨-, -, ⟨hsub, -, -⟩, -, -, -, -⟩ := hi
  exact ⟨fun e => by rw [e], eq_of_subset_of_popcount hsub⟩

/-- A performed REGISTER_LANE that changes the mask adds one lane. -/
theorem Performs.laneCount_registerLane {s u : State} {v : Word} {d : Half} (h : Performs (.registerLane d) s v u) (hi : s.Inv) :
    u.laneCount.toNat = s.laneCount.toNat + (if u.activeMask = s.activeMask then 0 else 1) := by
  rw [(h.inv hi).laneCount_eq, hi.laneCount_eq]
  cases h with
  | registerFull _ _ _ => simp
  | register _ _ id hid =>
    obtain ⟨hlt, hfree, -⟩ := lowestFree_some.1 hid
    have hcount := popcount_or_laneBit (Nat.lt_of_lt_of_le hlt s.cfg.bits_le) hfree
    have hne : s.activeMask ||| laneBit id ≠ s.activeMask := fun e => by rw [e] at hcount; omega
    rw [addLane_activeMask, if_neg hne, hcount]

/-- An active lane that leaves takes one off the count, and the mask changes. -/
theorem popcount_removeLane {s : State} {lane : LaneId} (hl : s.laneActive lane = true) :
    popcount s.activeMask = popcount (removeLane lane s).activeMask +
      (if (removeLane lane s).activeMask = s.activeMask then 0 else 1) := by
  obtain ⟨hlt, hact⟩ := laneActive_iff.1 hl
  have hcount := popcount_and_not_laneBit (Nat.lt_of_lt_of_le hlt s.cfg.bits_le) hact
  have hne : s.activeMask &&& ~~~laneBit lane.toNat ≠ s.activeMask := fun e => by rw [e] at hcount; omega
  rw [removeLane_activeMask, if_neg hne, ← hcount]

/-- A performed DEREGISTER_LANE that changes the mask removes one lane, the last one too. -/
theorem Performs.laneCount_deregisterLane {s u : State} {v : Word} {lane : LaneId} (h : Performs (.deregisterLane lane) s v u)
    (hi : s.Inv) : s.laneCount.toNat = u.laneCount.toNat + (if u.activeMask = s.activeMask then 0 else 1) := by
  rw [(h.inv hi).laneCount_eq, hi.laneCount_eq]
  cases h with
  | deregisterInactive _ _ _ _ => simp
  | deregister _ _ _ hl _ => exact popcount_removeLane hl
  | deregisterLast _ _ _ hl _ =>
    rw [endConstructionCycle_activeMask, teardownBuffer_activeMask]
    exact popcount_removeLane hl

/-- No other command touches `laneCount`. -/
theorem Performs.laneCount_of_not_registry {i : Instr} {s u : State} {v : Word} (h : Performs i s v u)
    (hr : ∀ d, i ≠ .registerLane d) (hd : ∀ lane, i ≠ .deregisterLane lane) : u.laneCount = s.laneCount := by
  cases h with
  | register d _ _ _ => exact absurd rfl (hr d)
  | deregister lane _ _ _ _ | deregisterLast lane _ _ _ _ => exact absurd rfl (hd lane)
  | _ => simp

/-- Settles O14: a command waits or faults, which keeps the registry, or is performed, which counts as the lemmas above say. -/
theorem laneCountIsTheQuorumCounter : Obligations.LaneCountIsTheQuorumCounter := by
  refine ⟨fun s hi => hi.barrier_iff_popcount, fun s t d hi h => ?_, fun s t lane hi h => ?_, fun i s t h hr hd => ?_⟩
  · rcases exec_next h with ⟨-, -, rfl⟩ | ⟨v, u, hp, rfl⟩ | ⟨code, -, rfl⟩
    · simp
    · exact hp.laneCount_registerLane hi
    · simp
  · rcases exec_next h with ⟨-, -, rfl⟩ | ⟨v, u, hp, rfl⟩ | ⟨code, -, rfl⟩
    · simp
    · exact hp.laneCount_deregisterLane hi
    · simp
  · rcases exec_next h with ⟨-, -, rfl⟩ | ⟨v, u, hp, rfl⟩ | ⟨code, -, rfl⟩
    · rfl
    · exact hp.laneCount_of_not_registry hr hd
    · rfl

/-! ### The largest lane size (rule R148) -/

/-- What a performed command does to the largest size: nothing, or a lane with a larger one joins, or the last lane leaves. -/
theorem Performs.maxLaneDataSize_cases {i : Instr} {s u : State} {v : Word} (h : Performs i s v u) :
    u.maxLaneDataSize = s.maxLaneDataSize ∨
      (∃ d, i = .registerLane d ∧ u.maxLaneDataSize = d ∧ s.maxLaneDataSize.toNat < d.toNat) ∨
      (u.activeMask = 0#16 ∧ u.maxLaneDataSize = 0#16) := by
  cases h with
  | register d _ id _ =>
    rw [addLane_maxLaneDataSize]
    split
    · next hlt => exact .inr (.inl ⟨d, rfl, rfl, hlt⟩)
    · exact .inl rfl
  | deregisterLast lane _ _ _ hz => exact .inr (.inr ⟨by simpa using hz, rfl⟩)
  | _ => exact .inl (by simp)

/-- Settles O15, by the three things a performed command can do to the largest size; waiting and faulting keep it. -/
theorem largestSizeOnlyGrowsWithinACycle : Obligations.LargestSizeOnlyGrowsWithinACycle := by
  intro i s t h
  rcases exec_next h with ⟨-, -, rfl⟩ | ⟨v, u, hp, rfl⟩ | ⟨code, -, rfl⟩
  · exact ⟨fun _ => Nat.le_refl _, fun hne => absurd rfl hne⟩
  · rw [respond_maxLaneDataSize, respond_activeMask]
    rcases hp.maxLaneDataSize_cases with he | ⟨d, hi, he, hlt⟩ | ⟨hz, he⟩
    · exact ⟨fun _ => by rw [he], fun hne => absurd he hne⟩
    · exact ⟨fun _ => by rw [he]; exact Nat.le_of_lt hlt, fun _ => .inl ⟨d, hi, he⟩⟩
    · exact ⟨fun hnz => absurd hz hnz, fun _ => .inr ⟨hz, he⟩⟩
  · exact ⟨fun _ => Nat.le_refl _, fun hne => absurd rfl hne⟩

end Sys2Proof.Machine
end

section
/-! The proofs of the family of spec/42_buffer_manager.md: the region that CONSTRUCT builds and its refusals (rule R160), DESTRUCT (rules
R161, R162), the cycle's clear (rules R163, R164, R180), the buffer's state machine (rule R167) and the start of a transfer (rules R165,
R166, R168). -/

namespace Sys2Proof.Machine

/-! ### CONSTRUCT (rule R160) -/

/-- A descriptor of the chain, told by whether it is the last (rule R67). -/
theorem descriptorAt_of_lt (c : Config) (po bytes : Nat) {count k : Nat} (hk : k < count) :
    descriptorAt c po bytes count k =
      { segOff := po + k * c.mtu
        segLen := min c.mtu (bytes - k * c.mtu)
        next := if k < count - 1 then some (k + 1) else none
        eof := decide (k = count - 1) } := by
  have hnext : k + 1 < count ↔ k < count - 1 := by omega
  have hlast : k + 1 = count ↔ k = count - 1 := by omega
  simp only [descriptorAt, hnext, beq_eq_decide, hlast]

/-- ZeroCells leaves every byte outside the payload, which ends with the region (rules R61, R164). -/
theorem read_buildBuffer_outside {s : State} (hc : s.cfg.Admitted) (base : Nat) {a : Nat}
    (ha : a < (buildBuffer base s).payloadOff ∨ (buildBuffer base s).bufSize.toNat ≤ a) :
    Memory.read (buildBuffer base s).mem a = Memory.read s.mem a := by
  obtain ⟨hpay, -, hsize⟩ := buildBuffer_sizes hc base
  have hend : (buildBuffer base s).bufSize.toNat = (buildBuffer base s).payloadOff + (buildBuffer base s).payloadBytes.toNat := by
    rw [hsize, hpay, payloadOff_buildBuffer hc]; rfl
  rw [read_buildBuffer, if_neg (by omega)]

/-- Settles O16: the registers hold the sizes of R75 whole, the chain is R67's, and ZeroCells clears what lies between them. -/
theorem constructBuildsTheRegion : Obligations.ConstructBuildsTheRegion := by
  intro s q hc hu hz hok
  have hadm : (askAllocator s).cfg.Admitted := hc
  obtain ⟨hpay, hdesc, hsize⟩ := buildBuffer_sizes hadm (4 * q)
  refine ⟨_, (Performs.construct s q hu hz hok).exec, ⟨rfl, rfl⟩, rfl, rfl, rfl, ?_⟩
  simp only [respond_payloadBytes, respond_descCount, respond_bufSize, respond_descs, hpay, hdesc, hsize]
  refine ⟨s.cfg.payloadSize_eq _, rfl, rfl, descriptorChain_length _ _, fun k hk => ?_, fun n => cell_buildBuffer hadm (4 * q),
    fun a ha => ?_, ⟨rfl, rfl, rfl, rfl⟩, ⟨rfl, rfl, rfl, rfl, rfl⟩, ⟨rfl, rfl, rfl⟩, ⟨rfl, rfl, rfl, rfl, rfl⟩, rfl⟩
  · rw [← descriptorAt_of_lt _ _ _ hk]
    exact descriptorChain_getElem? _ hk
  · exact read_buildBuffer_outside hadm (4 * q) (ha.imp_right hsize.trans_le)

/-- Settles O17: the answer `fail` is logged, and no region is built. -/
theorem constructLogsAnAllocationFailure : Obligations.ConstructLogsAnAllocationFailure := fun s hu hz hfail =>
  (Performs.constructFail s hu hz hfail).exec

/-- CONSTRUCT is not of the hold class, so its fault comes during a transfer too (rules R240, R270). -/
theorem construct_faulted {s : State} (hu : s.bufState = .unallocated) (hz : s.activeMask = 0#16) :
    ∃ t, exec .construct s = .next t ∧ Faulted .constructNoLanes Instr.construct.word0 s t :=
  have hf : Faults .constructNoLanes .construct s := ⟨rfl, hu, hz⟩
  ⟨_, hf.exec nofun, faulted_raiseFault _ _ _⟩

/-- Settles O18: an Allocated buffer is answered before the Allocator is asked, and without a lane it is not asked. -/
theorem constructIsIdempotentAndNeedsALane : Obligations.ConstructIsIdempotentAndNeedsALane :=
  ⟨fun s ha => (Performs.constructAgain s ha).exec, fun _ hu hz => construct_faulted hu hz⟩

/-! ### DESTRUCT (rules R161, R162) -/

/-- TeardownBuffer touches the buffer alone (rule R162). -/
theorem frame_teardownBuffer (v : Word) (s : State) :
    SameRegistry s (respond v (teardownBuffer s)) ∧ SameTransfer s (respond v (teardownBuffer s)) ∧
      SameLog s (respond v (teardownBuffer s)) ∧ SameOutside s (respond v (teardownBuffer s)) ∧
      SameAlloc s (respond v (teardownBuffer s)) := by
  simp [SameRegistry, SameTransfer, SameLog, SameOutside, SameAlloc]

/-- With no lane registered there is no buffer (rule R32, I3). -/
theorem State.Inv.unallocated_of_no_lane {s : State} (hi : s.Inv) (hz : s.activeMask = 0#16) : s.bufState = .unallocated := by
  obtain ⟨-, -, -, ⟨-, halloc, -⟩, -, -, -⟩ := hi
  cases hb : s.bufState with
  | unallocated => rfl
  | allocated => exact absurd hz (halloc hb).1

/-- Settles O19: a lane is the cause of PREMATURE_DESTRUCT; with none TeardownBuffer runs, and finds no buffer under the invariant. -/
theorem destructIsPrematureOrTearsDown : Obligations.DestructIsPrematureOrTearsDown := by
  refine ⟨fun s hx hz => ?_, fun s hx hz => ?_, fun s hi hx hz => ?_⟩
  · have hf : Faults .prematureDestruct .destruct s := ⟨rfl, hz⟩
    exact hf.faulted hx
  · refine ⟨_, (Performs.destruct s hx hz).exec, by simp [Answered], teardownBuffer_bufState s, fun ha => emptyBuffer_teardownBuffer ha,
      fun hu => ?_, frame_teardownBuffer 0#32 s⟩
    rw [teardownBuffer_of_unallocated hu]
    exact ⟨⟨rfl, rfl, rfl, rfl, rfl, rfl, rfl⟩, fun _ => rfl⟩
  · rw [(Performs.destruct s hx hz).exec, teardownBuffer_of_unallocated (hi.unallocated_of_no_lane hz)]
    rfl

/-! ### The cycle's clear (rules R163, R164, R180) -/

theorem flagWord_noLanesComplete (s : State) : flagWord s.noLanesComplete = if s.completeMask = 0#16 then 1#32 else 0#32 := by
  simp only [flagWord, noLanesComplete_iff]

/-- The clear touches the payload's bytes alone. -/
theorem frame_clearForCycle (v : Word) (s : State) :
    SameRegistry s (respond v (clearForCycle s)) ∧ SameShape s (respond v (clearForCycle s)) ∧
      SameTransfer s (respond v (clearForCycle s)) ∧ SameLog s (respond v (clearForCycle s)) ∧
      SameOutside s (respond v (clearForCycle s)) ∧ SameAlloc s (respond v (clearForCycle s)) := by
  simp [SameRegistry, SameShape, SameTransfer, SameLog, SameOutside, SameAlloc]

theorem clearForCycle_of_no_lane_completed {s : State} (h : s.completeMask = 0#16) : clearForCycle s = zeroCells s := by
  rw [clearForCycle_eq, if_pos h]

theorem clearForCycle_of_lane_completed {s : State} (h : s.completeMask ≠ 0#16) : clearForCycle s = s := by
  rw [clearForCycle_eq, if_neg h]

/-- The clear leaves every byte outside the payload. -/
theorem read_clearForCycle_outside {s : State} {a : Nat} (ha : a < s.payloadOff ∨ s.payloadOff + s.payloadBytes.toNat ≤ a) :
    Memory.read (clearForCycle s).mem a = Memory.read s.mem a := by
  rw [clearForCycle_eq]
  split
  · rw [read_zeroCells, if_neg (by omega)]
  · rfl

/-- Settles O20: both commands do the same clear, which is ZeroCells or nothing. -/
theorem cycleClearsOnlyWhenNoLaneCompleted : Obligations.CycleClearsOnlyWhenNoLaneCompleted := by
  intro s hi hx ha
  obtain ⟨hc, -, -, hb, -, -, -⟩ := hi
  have hsized := hb.sized ha
  have hreset := (Performs.resetBufferForCycle s hx ha).exec
  rw [flagWord_noLanesComplete] at hreset
  refine ⟨_, _, (Performs.beginFill s hx ha).exec, hreset, by simp [Answered], by simp [Answered], rfl, fun h0 n hn => ?_,
    fun h1 a => ?_, fun a hout => ?_, frame_clearForCycle _ s, frame_clearForCycle _ s⟩
  · rw [clearForCycle_of_no_lane_completed h0]
    exact cell_zeroCells hc hsized.1 hn
  · rw [clearForCycle_of_lane_completed h1]; rfl
  · rw [hsized.bufSize_eq] at hout
    exact read_clearForCycle_outside hout

/-! ### The buffer's state machine (rule R167) -/

/-- What a performed command does to the buffer's state: nothing, or CONSTRUCT builds the buffer, or it is torn down with no lane left. -/
theorem Performs.bufState_cases {i : Instr} {s u : State} {v : Word} (h : Performs i s v u) :
    u.bufState = s.bufState ∨ (i = .construct ∧ s.activeMask ≠ 0#16 ∧ v = 1#32 ∧ u.bufState = .allocated) ∨
      (u.activeMask = 0#16 ∧ u.bufState = .unallocated ∧ (s.bufState = .allocated → u.EmptyBuffer) ∧
        ((∃ lane, i = .deregisterLane lane) ∨ i = .destruct)) := by
  cases h with
  | construct _ q _ hz _ => exact .inr (.inl ⟨rfl, hz, rfl, rfl⟩)
  | deregisterLast lane _ _ _ hz =>
    exact .inr (.inr ⟨by simpa using hz, teardownBuffer_bufState _,
      fun ha => emptyBuffer_teardownBuffer (s := removeLane lane s) ha, .inl ⟨lane, rfl⟩⟩)
  | destruct _ _ hz =>
    exact .inr (.inr ⟨by simpa using hz, teardownBuffer_bufState s, emptyBuffer_teardownBuffer, .inr rfl⟩)
  | _ => exact .inl (by simp)

/-- Where the buffer's state stays, neither of its two changes has happened. -/
theorem no_change_of_bufState_eq {s t : State} (he : t.bufState = s.bufState) {P Q : Prop} :
    (s.bufState = .unallocated → t.bufState = .allocated → P) ∧ (s.bufState = .allocated → t.bufState = .unallocated → Q) :=
  ⟨fun hs ht => absurd (ht.symm.trans (he.trans hs)) nofun, fun hs ht => absurd (ht.symm.trans (he.trans hs)) nofun⟩

/-- Settles O22, by the three things a performed command can do to the buffer's state; waiting and faulting keep it. -/
theorem bufferStateMachine : Obligations.BufferStateMachine := by
  intro i s t h
  rcases exec_next h with ⟨-, -, rfl⟩ | ⟨v, u, hp, rfl⟩ | ⟨code, -, rfl⟩
  · exact no_change_of_bufState_eq rfl
  · rcases hp.bufState_cases with he | ⟨hi, hz, rfl, hu⟩ | ⟨hz, hu, hempty, hi⟩
    · exact no_change_of_bufState_eq he
    · exact ⟨fun _ _ => ⟨hi, hz, by simp [hp.answered.1]⟩, fun _ ht => absurd (hu.symm.trans ht) nofun⟩
    · exact ⟨fun _ ht => absurd (hu.symm.trans ht) nofun, fun ha _ => ⟨hz, hempty ha, hi⟩⟩
  · exact no_change_of_bufState_eq rfl

/-! ### The start of a transfer (rules R165, R166, R168, R181) -/

/-- Settles O21: at the barrier the command is StartTransfer, before it a query. -/
theorem triggerStartsATransferAtTheBarrier : Obligations.TriggerStartsATransferAtTheBarrier :=
  ⟨fun s hx hz hq ha => (Performs.trigger s hx hq hz ha).exec, fun s hx hr => (Performs.triggerNotReady s hx hr.symm).exec⟩

/-- Where a lane's mark makes the bitmap the active lanes, every other active lane had completed. -/
theorem completed_of_markComplete_eq {s : State} {lane : LaneId} (hq : (markComplete lane s).completeMask = s.activeMask) {j : Nat}
    (hj : s.activeMask.getLsbD j = true) : j = lane.toNat ∨ s.completeMask.getLsbD j = true := by
  rw [← hq, markComplete_completeMask, getLsbD_or_laneBit] at hj
  simp only [Bool.or_eq_true, Bool.and_eq_true, decide_eq_true_eq] at hj
  exact hj.symm.imp_left And.right

/-- What a performed command does to the Transfer Engine: nothing, or it starts it at the barrier with the answer 1. -/
theorem Performs.xferBusy_cases {i : Instr} {s u : State} {v : Word} (h : Performs i s v u) :
    u.xferBusy = s.xferBusy ∨
      (s.bufState = .allocated ∧ s.activeMask ≠ 0#16 ∧ u.completeMask = 0#16 ∧ v = 1#32 ∧
        ((i = .triggerTransferIfReady ∧ s.completeMask = s.activeMask) ∨
          ∃ lane, i = .endFill lane ∧ s.laneActive lane = true ∧ (markComplete lane s).completeMask = s.activeMask)) := by
  cases h with
  | trigger _ _ hq hz ha => exact .inr ⟨ha, hz, rfl, rfl, .inl ⟨rfl, hq⟩⟩
  | endFillStart lane _ _ hl ha hq =>
    exact .inr ⟨ha, activeMask_ne_zero_of_laneActive hl, rfl, rfl, .inr ⟨lane, rfl, hl, hq⟩⟩
  | _ => exact .inl (by simp)

/-- Settles O23, by the two things a performed command can do to the Transfer Engine; waiting and faulting leave it. -/
theorem transferStartsOnlyAtTheBarrier : Obligations.TransferStartsOnlyAtTheBarrier := by
  intro i s t h hidle hbusy
  rcases exec_next h with ⟨-, -, rfl⟩ | ⟨v, u, hp, rfl⟩ | ⟨code, -, rfl⟩
  · exact absurd (hidle.symm.trans hbusy) nofun
  · rcases hp.xferBusy_cases with he | ⟨ha, hz, hempty, rfl, hcmd⟩
    · exact absurd (hidle.symm.trans (he.symm.trans hbusy)) nofun
    · refine ⟨ha, hz, hempty, by simp [hp.answered.1], hcmd.imp_right ?_⟩
      rintro ⟨lane, hi, hl, hq⟩
      exact ⟨lane, hi, hl, fun j _ => completed_of_markComplete_eq hq⟩
  · exact absurd (hidle.symm.trans hbusy) nofun

end Sys2Proof.Machine
end

section
/-! The proofs of the family of spec/43_mux_bus.md: END_FILL at and before the quorum (rule R181), the facade as a composition of the
component commands (rule R182), and READ_STATUS (rules R186, R34 to R47). -/

namespace Sys2Proof.Machine

/-! ### END_FILL (rule R181) -/

/-- Settles O24: the lane's mark makes the bitmap the active lanes, as under the invariant only active lanes have completed. -/
theorem endFillOfTheLastLaneStartsTheTransfer : Obligations.EndFillOfTheLastLaneStartsTheTransfer := by
  intro s lane hi hx ha hlt hact hothers
  obtain ⟨-, -, hreg, -, -, -, -⟩ := hi
  have hl : s.laneActive lane = true := laneActive_iff.2 ⟨hlt, hact⟩
  have hq : (markComplete lane s).completeMask = s.activeMask := (markComplete_eq_activeMask_iff hreg hl).2 hothers
  exact (Performs.endFillStart lane s hx hl ha hq).exec

/-- Settles O25: the other lane keeps the quorum away, so END_FILL only marks, a change of the registry alone. -/
theorem endFillBeforeTheQuorumOnlyMarks : Obligations.EndFillBeforeTheQuorumOnlyMarks := by
  intro s lane other hx ha hlt hact hne hother hopen
  have hq : (markComplete lane s).completeMask ≠ s.activeMask := fun hq =>
    (completed_of_markComplete_eq hq hother).elim hne fun hdone => Bool.false_ne_true (hopen.symm.trans hdone)
  have hp := Performs.endFill lane s hx (laneActive_iff.2 ⟨hlt, hact⟩) ha hq
  exact ⟨_, hp.exec, ⟨rfl, rfl⟩, fun j hj => getLsbD_or_laneBit_eq_or_beq _ _ hj, rfl, rfl, rfl, frame_of_registry_only _ rfl⟩

/-! ### The facade as a composition (rule R182) -/

/-- BEGIN_FILL and RESET_BUFFER_FOR_CYCLE do the same clear and differ in the response. -/
theorem beginFill_is_resetBufferForCycle {s : State} (hx : s.xferBusy = false) (ha : s.bufState = .allocated) :
    ∃ t u v, exec .beginFill s = .next t ∧ exec .resetBufferForCycle s = .next u ∧ { t with responses := u.responses } = u ∧
      t.responses = s.responses ++ [0#32] ∧ u.responses = s.responses ++ [v] :=
  ⟨_, _, flagWord s.noLanesComplete, (Performs.beginFill s hx ha).exec, (Performs.resetBufferForCycle s hx ha).exec, rfl,
    by simp, by simp⟩

/-- END_FILL marks the lane, then asks for the barrier: where the mark completes the quorum both ways start the transfer and answer 1,
elsewhere both only mark and answer 0. -/
theorem endFill_is_markLaneComplete_then_trigger {s : State} {lane : LaneId} (hx : s.xferBusy = false)
    (ha : s.bufState = .allocated) (hl : s.laneActive lane = true) :
    ∃ t m u, exec (.endFill lane) s = .next t ∧ exec (.markLaneComplete lane) s = .next m ∧
      exec .triggerTransferIfReady m = .next u ∧ { t with responses := u.responses } = u ∧
      ∃ v, t.responses = s.responses ++ [v] ∧ u.responses = m.responses ++ [v] := by
  have hmark := (Performs.markLaneComplete lane s hx hl).exec
  rcases Decidable.em ((markComplete lane s).completeMask = s.activeMask) with hq | hq
  · exact ⟨_, _, _, (Performs.endFillStart lane s hx hl ha hq).exec, hmark,
      (Performs.trigger (respond 0#32 (markComplete lane s)) hx hq (activeMask_ne_zero_of_laneActive hl) ha).exec, rfl, 1#32, rfl, rfl⟩
  · exact ⟨_, _, _, (Performs.endFill lane s hx hl ha hq).exec, hmark,
      (Performs.triggerNotReady (respond 0#32 (markComplete lane s)) hx (.inl hq)).exec, rfl, 0#32, rfl, rfl⟩

/-- Settles O26, one facade command at a time. -/
theorem facadeIsTheComposition : Obligations.FacadeIsTheComposition := fun _ _ hx ha hl =>
  ⟨beginFill_is_resetBufferForCycle hx ha, endFill_is_markLaneComplete_then_trigger hx ha hl⟩

/-! ### READ_STATUS (rules R186, R34 to R47) -/

/-- CONFIG bits [7:0]: W. -/
theorem statusWord_width (c : Config) : (c.statusWord.extractLsb' 0 8).toNat = c.bits := by
  have hle := c.bits_le
  rw [Config.statusWord, BitVec.extractLsb'_append_eq_of_add_le (by omega), BitVec.extractLsb'_append_eq_of_add_le (by omega),
    BitVec.extractLsb'_append_eq_right, BitVec.toNat_ofNat, Nat.mod_eq_of_lt (by omega)]

/-- CONFIG bits [11:8]: K. -/
theorem statusWord_cellsPerBit (c : Config) : (c.statusWord.extractLsb' 8 4).toNat = c.cellsPerBit := by
  have hk := c.cellsPerBit_cases
  rw [Config.statusWord, BitVec.extractLsb'_append_eq_of_add_le (by omega), BitVec.extractLsb'_append_eq_of_add_le (by omega),
    BitVec.extractLsb'_append_eq_left, BitVec.toNat_ofNat, Nat.mod_eq_of_lt (by omega)]

/-- CONFIG bits [15:12] are reserved. -/
theorem statusWord_reserved (c : Config) : c.statusWord.extractLsb' 12 4 = 0#4 := by
  rw [Config.statusWord, BitVec.extractLsb'_append_eq_of_add_le (by omega), BitVec.extractLsb'_append_eq_left]

/-- CONFIG bits [31:16]: MTU div 4, where that fits. -/
theorem statusWord_mtu {c : Config} (hfit : c.mtu / 4 < 65536) : (c.statusWord.extractLsb' 16 16).toNat = c.mtu / 4 := by
  rw [Config.statusWord, BitVec.extractLsb'_append_eq_left, Config.mtuField, if_pos hfit, BitVec.toNat_ofNat, Nat.mod_eq_of_lt hfit]

/-- BUF_STATE reads 1 for an Allocated buffer (rule R38). -/
theorem flagWord_bufState (s : State) : flagWord s.bufState.bit = if s.bufState = .allocated then 1#32 else 0#32 := by
  cases s.bufState <;> rfl

/-- XFER_DONE reads 0 during a transfer (rule R43). -/
theorem flagWord_xferDone (s : State) : flagWord s.xferDone = if s.xferBusy = true then 0#32 else 1#32 := by
  rw [State.xferDone]
  cases s.xferBusy <;> rfl

/-- Settles O27, register by register. -/
theorem readStatusReadsTheRegister : Obligations.ReadStatusReadsTheRegister := by
  intro s sel
  refine ⟨s.statusReg sel, (Performs.readStatus sel s).exec, ?_, ?_, ?_, ?_, ?_, ?_, ?_, ?_, ?_, ?_, ?_, ?_, ?_, ?_⟩ <;> rintro rfl
  · exact BitVec.toNat_setWidth_of_le (by decide)
  · exact BitVec.toNat_setWidth_of_le (by decide)
  · exact BitVec.toNat_setWidth_of_le (by decide)
  · exact BitVec.toNat_setWidth_of_le (by decide)
  · exact flagWord_bufState s
  · exact BitVec.toNat_setWidth_of_le (by decide)
  · rfl
  · rfl
  · rfl
  · exact flagWord_xferDone s
  · rfl
  · rfl
  · rfl
  · exact ⟨statusWord_width _, statusWord_cellsPerBit _, statusWord_reserved _, statusWord_mtu⟩

end Sys2Proof.Machine
end

section
/-! The proofs of the family of spec/44_transfer_engine.md: the engine's two steps (rules R201, R205), a transfer alone and in a fair run
(rules R202, R208), and the traversal of the descriptor chain (rule R204). -/

namespace Sys2Proof.Machine

/-! ### The two steps (rule R201) -/

/-- Settles O36, the two branches of `transferStep_of_inv`. -/
theorem transferEngineEmitsThenCompletes : Obligations.TransferEngineEmitsThenCompletes := by
  intro s hi hx
  rw [transferStep_of_inv hi hx, ncells_eq]
  exact ⟨fun hlt => by rw [if_pos hlt]; rfl, fun hle => by rw [if_neg (Nat.not_lt.2 hle)]; rfl⟩

/-! ### The frame of a transfer (rule R208) -/

/-- The cells of the payload in wire order, cell 0 first (rule R62). -/
def State.payload (s : State) : List LineCell := (List.range s.ncells).map s.cell

/-- The payload depends on the block's constants, the buffer's shape and the memory alone. -/
theorem payload_congr {s t : State} (hm : t.mem = s.mem) (hs : SameShape s t) (hc : t.cfg = s.cfg) : t.payload = s.payload := by
  obtain ⟨-, hcap, -, hdesc, -, -, -⟩ := hs
  rw [State.payload, State.payload, ncells_congr hc hcap, cell_congr hc hdesc hm]

/-- When no cell remains, the cells emitted are the payload. -/
theorem State.Inv.frame_eq_payload {s : State} (hi : s.Inv) (hx : s.xferBusy = true) (hlast : s.ncells ≤ s.xferPos.toNat) :
    s.frame = s.payload := by
  obtain ⟨-, -, -, -, ⟨hbusy, -⟩, -, -⟩ := hi
  obtain ⟨-, -, hpos, hframe, -⟩ := hbusy hx
  rw [hframe, State.payload, Nat.le_antisymm hpos hlast]

theorem toNat_xferPos_emitCell {s : State} (hlt : s.xferPos.toNat < s.ncells) :
    (emitCell s).xferPos.toNat = s.xferPos.toNat + 1 := by
  have hn := s.ncells_lt
  rw [emitCell_xferPos, BitVec.toNat_add, BitVec.toNat_ofNat]
  omega

/-! ### A transfer alone (rules R201, R202) -/

/-- The block after the completion step, with the whole payload recorded as the frame (rules R205, R208). -/
def transferDone (s : State) : State :=
  { s with lines := 0#16, xferPos := 0#32, xferBusy := false, frame := []
           sent := s.sent ++ [{ frame := s.payload, completed := true }] }

theorem completeTransfer_eq_transferDone {s : State} (hi : s.Inv) (hx : s.xferBusy = true) (hlast : s.ncells ≤ s.xferPos.toNat) :
    completeTransfer s = transferDone s := by
  rw [completeTransfer, hi.frame_eq_payload hx hlast, transferDone]

/-- An emit step changes only what the completion step sets anew. -/
theorem transferDone_emitCell (s : State) : transferDone (emitCell s) = transferDone s := rfl

/-- The engine alone performs its `k` remaining emit steps and the completion step. -/
theorem run_transfer_alone (k : Nat) : ∀ s : State, s.Inv → s.xferBusy = true → s.hostReady = false → s.commandReady = false →
    s.ncells - s.xferPos.toNat = k → Sys2Proof.core.run (k + 1) s = .next (transferDone s) := by
  induction k with
  | zero =>
    intro s hi hx hh hc hk
    have hlast : s.ncells ≤ s.xferPos.toNat := Nat.le_of_sub_eq_zero hk
    have hstep : step s = .next (completeTransfer s) := by
      rw [step_of_transfer hh hc hx, transferStep_of_inv hi hx, if_neg (Nat.not_lt.2 hlast)]
    rw [run_succ hstep, completeTransfer_eq_transferDone hi hx hlast]
    rfl
  | succ k ih =>
    intro s hi hx hh hc hk
    have hlt : s.xferPos.toNat < s.ncells := by omega
    have hstep : step s = .next (emitCell s) := by
      rw [step_of_transfer hh hc hx, transferStep_of_inv hi hx, if_pos hlt]
    have hrest : (emitCell s).ncells - (emitCell s).xferPos.toNat = k := by
      rw [toNat_xferPos_emitCell hlt, show (emitCell s).ncells = s.ncells from rfl]
      omega
    rw [run_succ hstep, ih (emitCell s) (inv_emitCell hi hx hlt) hx hh hc hrest, transferDone_emitCell]

/-- Settles O37, by induction on the remaining cells in `run_transfer_alone`. -/
theorem transferSendsTheWholePayload : Obligations.TransferSendsTheWholePayload := by
  intro s hi hx hhost hc
  have hh : s.hostReady = false := by rw [State.hostReady, hhost]
  exact run_transfer_alone _ s hi hx hh hc rfl

/-! ### A transfer in a fair run (rule R202) -/

/-- The transfer that runs in `s` still runs in `t`: it sends the same payload, and no transfer ended meanwhile. -/
def Continues (s t : State) : Prop := t.xferBusy = true ∧ t.payload = s.payload ∧ t.sent = s.sent

/-- The transfer that runs in `s` has reached its completion step in `t`, with the whole payload as its frame. -/
def Completes (s t : State) : Prop :=
  t.xferBusy = false ∧ t.sent = s.sent ++ [{ frame := s.payload, completed := true }]

theorem Continues.refl {s : State} (hx : s.xferBusy = true) : Continues s s := ⟨hx, rfl, rfl⟩

theorem Continues.trans {s t u : State} (h : Continues s t) (h' : Continues t u) : Continues s u :=
  ⟨h'.1, h'.2.1.trans h.2.1, h'.2.2.trans h.2.2⟩

theorem Continues.completes {s t u : State} (h : Continues s t) (h' : Completes t u) : Completes s u := by
  obtain ⟨-, hp, hs⟩ := h
  obtain ⟨hx, hsent⟩ := h'
  exact ⟨hx, by rw [hsent, hp, hs]⟩

/-- The engine's step carries the transfer on or completes it (rule R201). -/
theorem transferStep_continues_or_completes {s t : State} (hi : s.Inv) (hx : s.xferBusy = true) (he : transferStep s = .next t) :
    Continues s t ∨ Completes s t := by
  rcases transferStep_next he with ⟨-, rfl⟩ | ⟨hlast, rfl⟩
  · exact .inl ⟨hx, rfl, rfl⟩
  · rw [completeTransfer_eq_transferDone hi hx hlast]
    exact .inr ⟨rfl, rfl⟩

/-- While a transfer runs, a step of another agent leaves the engine its work; the engine's own step uses some up, and it alone can
complete the transfer. -/
theorem step_of_running {s t : State} (hi : s.Inv) (hx : s.xferBusy = true) (hn : .reset ∉ s.host) (he : step s = .next t) :
    (Continues s t ∧ t.transferWork = s.transferWork ∧ s.chooseAgent.1 ≠ some .transferEngine) ∨
    ((Continues s t ∨ Completes s t) ∧ t.transferWork < s.transferWork ∧ s.chooseAgent.1 = some .transferEngine) := by
  by_cases hc : s.chooseAgent.1 = some .transferEngine
  · rw [step_of_chosen hc] at he
    generalize s.chooseAgent.2 = d at he
    have he : transferStep (withDraws d s) = .next t := he
    exact .inr ⟨transferStep_continues_or_completes (s := withDraws d s) hi hx he,
      transferWork_transferStep_lt (s := withDraws d s) hx he, hc⟩
  · obtain ⟨hm, hs, ⟨hbusy, hpos, -, -, hsent⟩, hcfg⟩ := step_keeps_transfer hi hx hn hc he
    have hw : t.transferWork = s.transferWork := by
      rw [State.transferWork, State.transferWork, ncells_congr hcfg hs.2.1, hbusy, hpos]
    exact .inl ⟨⟨hbusy.trans hx, payload_congr hm hs hcfg, hsent⟩, hw, hc⟩

/-- Every state of a run from a state that meets the invariant meets it. -/
theorem inv_of_isRun {r : Nat → State} (hr : IsRun r) (hi : (r 0).Inv) (n : Nat) : (r n).Inv := by
  induction n with
  | zero => exact hi
  | succ n ih => exact everyStepKeepsTheInvariant _ _ ih (hr n)

section
variable {r : Nat → State} {n m : Nat} (hr : IsRun r) (hi : ∀ k, (r k).Inv) (hn : ∀ k, .reset ∉ (r k).host)
include hr hi hn

/-- While the transfer of state `n` runs, the engine's work does not grow. -/
theorem transferWork_le_of_running (hm : n ≤ m) (hx : ∀ k, n ≤ k → (r k).xferBusy = true) :
    (r m).transferWork ≤ (r n).transferWork := by
  induction m, hm using Nat.le_induction with
  | base => exact le_rfl
  | succ m hm ih =>
    rcases step_of_running (hi m) (hx m hm) (hn m) (hr m) with ⟨-, hw, -⟩ | ⟨-, hw, -⟩
    · exact hw.le.trans ih
    · exact hw.le.trans ih

/-- As long as a transfer runs on, it is the same transfer. -/
theorem continues_of_running (hm : n ≤ m) (hx : ∀ k, n ≤ k → k ≤ m → (r k).xferBusy = true) : Continues (r n) (r m) := by
  induction m, hm using Nat.le_induction with
  | base => exact .refl (hx n le_rfl le_rfl)
  | succ m hm ih =>
    have hcont : Continues (r n) (r m) := ih fun k h1 h2 => hx k h1 (by omega)
    rcases step_of_running (hi m) (hx m hm (by omega)) (hn m) (hr m) with ⟨h, -, -⟩ | ⟨h | ⟨hidle, -⟩, -, -⟩
    · exact hcont.trans h
    · exact hcont.trans h
    · exact absurd (hx (m + 1) (by omega) le_rfl) (by simp [hidle])

/-- A transfer that runs in `m` and not in `m + 1` reached its completion step there. -/
theorem completes_of_last_running (hm : n ≤ m) (hx : ∀ k, n ≤ k → k ≤ m → (r k).xferBusy = true)
    (hidle : (r (m + 1)).xferBusy ≠ true) : (r m).chooseAgent.1 = some .transferEngine ∧ Completes (r n) (r (m + 1)) := by
  rcases step_of_running (hi m) (hx m hm le_rfl) (hn m) (hr m) with ⟨h, -, -⟩ | ⟨h | h, -, hchosen⟩
  · exact absurd h.1 hidle
  · exact absurd h.1 hidle
  · exact ⟨hchosen, (continues_of_running hr hi hn hm hx).completes h⟩

end

/-- In a fair run no transfer runs for good: fairness gives the engine a step after every point, and each uses up work. -/
theorem exists_idle_of_fairRun {r : Nat → State} (hf : FairRun r) (hi : ∀ k, (r k).Inv) (hn : ∀ k, .reset ∉ (r k).host) (n : Nat) :
    ∃ m, n ≤ m ∧ (r m).xferBusy ≠ true := by
  by_contra! hx
  obtain ⟨hr, hfair⟩ := hf
  induction hw : (r n).transferWork using Nat.strong_induction_on generalizing n with
  | _ w ih =>
    obtain ⟨m, hm, hchosen⟩ := hfair n hx
    rcases step_of_running (hi m) (hx m hm) (hn m) (hr m) with ⟨-, -, hother⟩ | ⟨-, hlt, -⟩
    · exact hother hchosen
    · have hle := transferWork_le_of_running hr hi hn hm hx
      exact ih _ (by omega) (m + 1) (fun k hk => hx k (by omega)) rfl

/-- So a transfer that runs in state `n` has a last state. -/
theorem exists_last_running_of_fairRun {r : Nat → State} (hf : FairRun r) (hi : ∀ k, (r k).Inv) (hn : ∀ k, .reset ∉ (r k).host)
    {n : Nat} (hx : (r n).xferBusy = true) :
    ∃ m, n ≤ m ∧ (∀ k, n ≤ k → k ≤ m → (r k).xferBusy = true) ∧ (r (m + 1)).xferBusy ≠ true := by
  have hidle := exists_idle_of_fairRun hf hi hn n
  obtain ⟨hle, hfirst⟩ := Nat.find_spec hidle
  have hne : Nat.find hidle ≠ n := fun he => hfirst (by rw [he, hx])
  obtain ⟨m, hm⟩ : ∃ m, Nat.find hidle = m + 1 := Nat.exists_eq_succ_of_ne_zero (by omega)
  refine ⟨m, by omega, fun k hk hkm => ?_, hm ▸ hfirst⟩
  by_contra hk'
  exact Nat.find_min hidle (by omega) ⟨hk, hk'⟩

/-- Settles O59: the transfer has a last state (`exists_last_running_of_fairRun`), and the step from there is its completion step
(`completes_of_last_running`). -/
theorem fairRunsCompleteEveryTransfer : Obligations.FairRunsCompleteEveryTransfer := by
  intro r hf hinv hnoReset n hx
  have hi := inv_of_isRun hf.1 hinv
  have hn := reset_notMem_of_isRun hf.1 hnoReset
  obtain ⟨m, hm, hruns, hidle⟩ := exists_last_running_of_fairRun hf hi hn hx
  obtain ⟨hchosen, hdone, hsent⟩ := completes_of_last_running hf.1 hi hn hm hruns hidle
  exact ⟨m, hm, hruns, hchosen, hdone, hsent⟩

/-! ### The descriptor traversal (rule R204) -/

/-- The payload of `cap` slots is whole storage words, and their cells are the payload's cells (rules R8, R62). -/
theorem exists_payload_words (c : Config) (cap : Nat) :
    ∃ B, c.payloadSize cap = 4 * B ∧ B * c.cellsPerWord = cap * c.cellsPerSlot := by
  obtain ⟨w, hw⟩ := c.cellsPerWord_dvd_cellsPerSlot
  refine ⟨cap * w, ?_, by rw [hw]; ring⟩
  calc c.payloadSize cap = cap * w * (c.cellBytes * c.cellsPerWord) := by rw [Config.payloadSize, hw]; ring
    _ = 4 * (cap * w) := by rw [c.cellBytes_mul_cellsPerWord, Nat.mul_comm]

/-- Word `q` of the payload holds the cells `q * G` to `q * G + G - 1` in wire order: sigma's inverse undoes CellOffset (rule R63). -/
theorem wordCells_payload_word (c : Config) (m : Memory) (po q : Nat) :
    wordCells c m (po + 4 * q) = (List.range c.cellsPerWord).map fun j => cellRead c po m (q * c.cellsPerWord + j) := by
  refine List.map_congr_left fun j hj => ?_
  have hj : j < c.cellsPerWord := List.mem_range.1 hj
  have hdiv : (q * c.cellsPerWord + j) / c.cellsPerWord = q := by
    rw [Nat.mul_comm, Nat.mul_add_div c.cellsPerWord_pos, Nat.div_eq_of_lt hj, Nat.add_zero]
  have hmod : (q * c.cellsPerWord + j) % c.cellsPerWord = j := by
    rw [Nat.mul_comm, Nat.mul_add_mod, Nat.mod_eq_of_lt hj]
  rw [cellRead, cellOffset, hdiv, hmod]

/-- Settles O39: the chain meets the payload's words in order (`chainWords_eq`), and each word its cells (`wordCells_payload_word`). -/
theorem chainTraversalIsWireOrder : Obligations.ChainTraversalIsWireOrder := by
  intro s hi ha
  obtain ⟨hc, -, -, hb, -, -, -⟩ := hi
  obtain ⟨-, hcount, -, hchain, -, -⟩ := hb.sized ha
  obtain ⟨B, hbytes, hcells⟩ := exists_payload_words s.cfg s.capSlots.toNat
  have hpo : s.cfg.descriptorCount s.capSlots.toNat * s.cfg.descBytes = s.payloadOff := by rw [payloadOff_eq, hcount]
  have hwords : chainWords s.descs s.descs.length 0 = (List.range B).map fun q => s.payloadOff + 4 * q := by
    rw [hchain, descriptorChain_length,
      chainWords_eq hc _ hbytes _ 0 (s.cfg.descriptorCount_pos _) (Nat.sub_le ..), hpo, Nat.zero_mul, Nat.sub_zero,
      ← List.range_eq_range']
  calc s.chainCells
      = (List.range B).flatMap fun q => wordCells s.cfg s.mem (s.payloadOff + 4 * q) := by
        rw [State.chainCells, hwords, List.flatMap_map]
    _ = (List.range B).flatMap fun q => (List.range s.cfg.cellsPerWord).map fun j => s.cell (q * s.cfg.cellsPerWord + j) := by
        simp only [wordCells_payload_word]; rfl
    _ = (List.range s.ncells).map s.cell := by rw [flatMap_words, hcells, ncells_eq]

end Sys2Proof.Machine
end

section
/-! The proofs of the family of spec/45_channel_host.md: the pixels of a frame (rule R224), and what an UPDATE does when it is carried
out (rules R222, R223, R225, R181): the fill of its lane, its END_FILL, and the strip after it. -/

namespace Sys2Proof.Machine

/-! ### The pixels of a frame (rule R224) -/

/-- Settles O54: `framePixels_eq` is a map over the pixel numbers, and `p mod L` names one of the caller's pixels. -/
theorem framePixelsWrapAround : Obligations.FramePixelsWrapAround := by
  intro count pixels serialize hne
  rw [framePixels_eq count serialize hne]
  refine ⟨by simp, fun p hp => ?_⟩
  have hmod : p % pixels.length < pixels.length := Nat.mod_lt _ (List.length_pos_of_ne_nil hne)
  simp [hp, List.getElem?_eq_getElem hmod]

/-! ### The strip (rule R228) -/

theorem mayUpdate_iff {c : ChannelMethod} : c.mayUpdate = true ↔ c.phase = .ready ∨ c.phase = .sending true := by
  unfold ChannelMethod.mayUpdate
  split <;> simp [*]

/-- WAIT_DONE's answer leaves a strip that may send an UPDATE its lane, and it still may. -/
theorem after_polled_done {c : ChannelMethod} {lane : LaneId} (hl : c.laneId = some lane) (hm : c.mayUpdate = true) :
    (c.after (.polled 1#32)).laneId = some lane ∧ (c.after (.polled 1#32)).mayUpdate = true := by
  simp only [mayUpdate_iff]
  rcases mayUpdate_iff.1 hm with hp | hp <;> simp [ChannelMethod.after, hp, hl]

/-- The strip is sending from an END_FILL that answers 1, and ready after any other. -/
theorem phase_after_began_ended {c : ChannelMethod} {lane : LaneId} (hl : c.laneId = some lane) (hm : c.mayUpdate = true) (r : Word) :
    ((c.after .began).after (.ended r)).phase = if r = 1#32 then .sending true else .ready := by
  have hbegan : c.after .began = { c with phase := .sending false } := by
    rcases mayUpdate_iff.1 hm with hp | hp <;> simp only [ChannelMethod.after, hp, hl]
  rw [hbegan]
  simp only [ChannelMethod.after, hl]

/-! ### END_FILL of an active lane (rule R181) -/

theorem exists_performs_endFill {s : State} {lane : LaneId} (hx : s.xferBusy = false) (hl : s.laneActive lane = true)
    (ha : s.bufState = .allocated) : ∃ v u, Performs (.endFill lane) s v u := by
  rcases Decidable.em ((markComplete lane s).completeMask = s.activeMask) with hq | hq
  · exact ⟨_, _, .endFillStart lane s hx hl ha hq⟩
  · exact ⟨_, _, .endFill lane s hx hl ha hq⟩

/-- END_FILL leaves the buffer, the active lanes and the log. -/
theorem Performs.endFill_frame {s u : State} {v : Word} {lane : LaneId} (h : Performs (.endFill lane) s v u) :
    u.activeMask = s.activeMask ∧ SameShape s u ∧ u.mem = s.mem ∧ SameLog s u := by
  cases h <;> simp [SameShape, SameLog]

/-- `t` is `s` with the lane completed: the transfer runs, with an empty bitmap, exactly if every other active lane had completed, and
else the bitmap has the lane's bit besides (rule R181). -/
def LaneCompleted (lane : LaneId) (s t : State) : Prop :=
  (t.xferBusy = true ↔ ∀ j < 16, s.activeMask.getLsbD j = true → j = lane.toNat ∨ s.completeMask.getLsbD j = true) ∧
    (t.xferBusy = true → t.completeMask = 0#16) ∧
    (t.xferBusy = false → ∀ j < 16, t.completeMask.getLsbD j = (s.completeMask.getLsbD j || j == lane.toNat))

/-- END_FILL completes its lane, and answers 1 exactly if it started the transfer. -/
theorem Performs.endFill_completes {s u : State} {v : Word} {lane : LaneId} (h : Performs (.endFill lane) s v u)
    (hr : s.RegistryInv) : LaneCompleted lane s u ∧ (v = 1#32 ↔ u.xferBusy = true) := by
  cases h with
  | endFill _ _ hx hl _ hq =>
    refine ⟨⟨?_, fun hb => absurd (hx.symm.trans hb) nofun, fun _ j hj => getLsbD_or_laneBit_eq_or_beq _ _ hj⟩, ?_⟩
    · rw [← markComplete_eq_activeMask_iff hr hl]
      exact iff_of_false (by simp [hx]) hq
    · simp [hx]
  | endFillStart _ _ _ hl _ hq =>
    exact ⟨⟨iff_of_true rfl ((markComplete_eq_activeMask_iff hr hl).1 hq), fun _ => rfl, nofun⟩, iff_of_true rfl rfl⟩

/-! ### The fill of a lane (rules R180, R223) -/

/-- The chained ENCODEs of the byte lists are one ENCODE of all the bytes, but for the response queue and `cmdBuf` (rule R223). -/
theorem perform_encodeEach_as_one {α : Type} {lane : LaneId} (k : Word → HostProgram α) {chunks : List (List Byte)} {s : State}
    {h : Word} (hi : s.Inv) (hx : s.xferBusy = false) (hl : s.laneActive lane = true) (ha : s.bufState = .allocated)
    (ho : h.toNat + chunks.flatten.length ≤ s.capSlots.toNat) :
    ∃ v u rs cb, Performs (.encode lane h chunks.flatten) s v u ∧
      (encodeEach lane chunks h k).perform s = (k v).perform { u with responses := rs, cmdBuf := cb } := by
  obtain ⟨rs, cb, e⟩ := perform_encodeEach k chunks hi hx hl ha ho
  exact ⟨_, _, rs, cb, performs_encode hi hx hl ha ho, e⟩

/-- `e` is `s` after BEGIN_FILL and an ENCODE of `data` from slot 0 on, but for the response queue and `cmdBuf`. -/
def Filled (lane : LaneId) (data : List Byte) (s e : State) : Prop :=
  ∃ v u rs cb, Performs (.encode lane 0#32 data) (respond 0#32 (clearForCycle s)) v u ∧ e = { u with responses := rs, cmdBuf := cb }

theorem Filled.frame {lane : LaneId} {data : List Byte} {s e : State} (h : Filled lane data s e) :
    SameRegistry s e ∧ SameShape s e ∧ SameLog s e ∧ e.xferBusy = s.xferBusy ∧ e.cfg = s.cfg := by
  obtain ⟨v, u, rs, cb, hp, rfl⟩ := h
  obtain ⟨hreg, hshape, ⟨hx, -⟩, hlog, ⟨hcfg, -⟩, -⟩ := hp.encode_frame
  simp [SameRegistry, SameShape, SameLog, hreg, hshape, hlog, hx, hcfg]

theorem laneActive_congr {s t : State} (hc : t.cfg = s.cfg) (hm : t.activeMask = s.activeMask) (lane : LaneId) :
    t.laneActive lane = s.laneActive lane := by
  simp only [State.laneActive, hc, hm]

/-- BEGIN_FILL, the chained ENCODEs and END_FILL are all performed (rule R223). -/
theorem perform_fillFrame (c : ChannelMethod) {lane : LaneId} {chunks : List (List Byte)} {s : State} (hi : s.Inv)
    (hx : s.xferBusy = false) (ha : s.bufState = .allocated) (hl : s.laneActive lane = true)
    (ho : chunks.flatten.length ≤ s.capSlots.toNat) :
    ∃ e v u, Filled lane chunks.flatten s e ∧ Performs (.endFill lane) e v u ∧
      (c.fillFrame lane chunks).perform s = some ((c.after .began).after (.ended v), respond v u) := by
  have hbegin := Performs.beginFill s hx ha
  obtain ⟨w, u, rs, cb, hencode, hchain⟩ := perform_encodeEach_as_one (lane := lane) (chunks := chunks) (h := 0#32)
    (fun _ => HostProgram.call (.endFill lane) fun r => .done ((c.after .began).after (.ended r)))
    (hbegin.inv_respond hi) (by simpa using hx) (by simpa [State.laneActive] using hl) (by simpa using ha) (by simpa using ho)
  have hfilled : Filled lane chunks.flatten s { u with responses := rs, cmdBuf := cb } := ⟨w, u, rs, cb, hencode, rfl⟩
  obtain ⟨⟨hact, -⟩, ⟨hbuf, -⟩, -, hxfer, hcfg⟩ := hfilled.frame
  have hx' := hxfer.trans hx
  obtain ⟨v, u', hend⟩ := exists_performs_endFill hx' ((laneActive_congr hcfg hact lane).trans hl) (hbuf.trans ha)
  refine ⟨_, v, u', hfilled, hend, ?_⟩
  rw [ChannelMethod.fillFrame, perform_call hbegin hx, hchain, perform_call hend hx', perform_done]

/-- The lane's bit of every cell is low after BEGIN_FILL, if it clears the payload or the lane's bits were low before (rules R164, R180). -/
theorem low_clearForCycle {s : State} {i : Nat} (hi : s.Inv) (ha : s.bufState = .allocated)
    (hlow : s.completeMask = 0#16 ∨ ∀ n < s.ncells, (s.cell n).getLsbD i = false) {n : Nat} (hn : n < s.ncells) :
    ((clearForCycle s).cell n).getLsbD i = false := by
  obtain ⟨hc, -, -, hb, -⟩ := hi
  rw [clearForCycle_eq]
  split
  · rw [cell_zeroCells hc (hb.sized ha).1 hn, BitVec.getLsbD_zero]
  · next hz => exact hlow.resolve_left hz n hn

/-- The lane holds `data` from slot 0 on and is low in the slots after it (rules R125, R222). -/
def LaneHolds (lane : LaneId) (data : List Byte) (t : State) : Prop :=
  (∀ (j : Nat) (hj : j < data.length), t.decodeSlot lane.toNat j = some data[j]) ∧
    ∀ n < t.ncells, data.length * t.cfg.cellsPerSlot ≤ n → (t.cell n).getLsbD lane.toNat = false

/-- An ENCODE from slot 0 on, onto cells that are low in its lane (rules R125, R126). -/
theorem Performs.encode_laneHolds {s u : State} {v : Word} {lane : LaneId} {data : List Byte}
    (h : Performs (.encode lane 0#32 data) s v u) (hi : s.Inv) (ho : data.length ≤ s.capSlots.toNat)
    (hlow : ∀ n < s.ncells, (s.cell n).getLsbD lane.toNat = false) : LaneHolds lane data u := by
  obtain ⟨-, hshape, -, -, ⟨hcfg, -⟩, -⟩ := h.encode_frame
  constructor
  · intro j hj
    rw [decodeSlot_eq_some, hcfg]
    intro p h8 k hk
    have hn : j * s.cfg.cellsPerSlot + p * s.cfg.cellsPerBit + k < s.ncells :=
      calc j * s.cfg.cellsPerSlot + p * s.cfg.cellsPerBit + k
          < (j + 1) * s.cfg.cellsPerSlot := by have := cell_lt_cellsPerSlot h8 hk; rw [Nat.succ_mul]; omega
        _ ≤ s.ncells := Nat.mul_le_mul_right _ (by omega)
    have hcell := h.getLsbD_cell_encode hi hj h8 hk
    rwa [BitVec.toNat_zero, Nat.zero_add, hlow _ hn, Bool.false_or] at hcell
  · intro n hn hpast
    rw [ncells_congr hcfg hshape.2.1] at hn
    rw [hcfg] at hpast
    rw [h.getLsbD_cell_encode_other hi (.inr (.inr (by simpa using hpast)))]
    exact hlow n hn

/-- Whether a lane holds `data` is in the cells (rules R62, R125). -/
theorem laneHolds_congr {lane : LaneId} {data : List Byte} {s t : State} (h : LaneHolds lane data s) (hc : t.cfg = s.cfg)
    (hshape : SameShape s t) (hm : t.mem = s.mem) : LaneHolds lane data t := by
  obtain ⟨-, hcap, -, hdesc, -⟩ := hshape
  simpa only [LaneHolds, decodeSlot_eq_some, cell_congr hc hdesc hm, ncells_congr hc hcap, hc] using h

/-- The fill's bytes are in its lane, where BEGIN_FILL cleared the payload or the lane was low before (rules R125, R180). -/
theorem Filled.laneHolds {lane : LaneId} {data : List Byte} {s e : State} (h : Filled lane data s e) (hi : s.Inv)
    (hx : s.xferBusy = false) (ha : s.bufState = .allocated) (ho : data.length ≤ s.capSlots.toNat)
    (hlow : s.completeMask = 0#16 ∨ ∀ n < s.ncells, (s.cell n).getLsbD lane.toNat = false) : LaneHolds lane data e := by
  obtain ⟨v, u, rs, cb, hp, rfl⟩ := h
  refine hp.encode_laneHolds ((Performs.beginFill s hx ha).inv_respond hi) (by simpa using ho) fun n hn => ?_
  rw [ncells_congr (s := s) (by simp) (by simp)] at hn
  exact low_clearForCycle hi ha hlow hn

/-! ### UPDATE (rules R223 to R225) -/

/-- What is left when an UPDATE's fill of `lane` with `data` has ended, and the strip's phase then. -/
def FrameWritten (lane : LaneId) (data : List Byte) (s t : State) (phase : ChannelPhase) : Prop :=
  t.fault = s.fault ∧ t.capSlots = s.capSlots ∧
    (s.completeMask = 0#16 ∨ (∀ n < s.ncells, (s.cell n).getLsbD lane.toNat = false) → LaneHolds lane data t) ∧
    t.activeMask = s.activeMask ∧ LaneCompleted lane s t ∧ phase = (if t.xferBusy = true then .sending true else .ready)

/-- A fill that is carried out leaves the frame in its lane, the lane completed, and the strip as END_FILL answered. -/
theorem fillFrame_writes {c : ChannelMethod} {lane : LaneId} {chunks : List (List Byte)} {s : State} (hi : s.Inv)
    (hx : s.xferBusy = false) (ha : s.bufState = .allocated) (hl : s.laneActive lane = true) (hlane : c.laneId = some lane)
    (hm : c.mayUpdate = true) (ho : chunks.flatten.length ≤ s.capSlots.toNat) :
    ∃ c' t, (c.fillFrame lane chunks).perform s = some (c', t) ∧ FrameWritten lane chunks.flatten s t c'.phase := by
  obtain ⟨e, v, u, hfilled, hend, hperform⟩ := perform_fillFrame c hi hx ha hl ho
  obtain ⟨⟨hact, hcomplete, hcount, hmax⟩, ⟨-, hcap, -⟩, ⟨hfault, -⟩, -, -⟩ := hfilled.frame
  obtain ⟨hact', hshape', hmem', hfault', -⟩ := hend.endFill_frame
  have hr : e.RegistryInv := by
    obtain ⟨-, -, hr, -⟩ := hi
    simpa only [State.RegistryInv, hact, hcomplete, hcount, hmax] using hr
  obtain ⟨hcompleted, hv⟩ := hend.endFill_completes hr
  have hcompleted : LaneCompleted lane s u := by simpa only [LaneCompleted, hact, hcomplete] using hcompleted
  refine ⟨_, _, hperform, hfault'.trans hfault, hshape'.2.1.trans hcap, fun hlow => ?_, hact'.trans hact, hcompleted, ?_⟩
  · exact laneHolds_congr (hfilled.laneHolds hi hx ha ho hlow) hend.sameOutside.1 hshape' hmem'
  · rw [phase_after_began_ended hlane hm]
    simp only [hv]; rfl

/-- Settles O56: WAIT_DONE leaves everything but the queues, and the fill after it is `fillFrame_writes`. -/
theorem updateWritesTheFrame : Obligations.UpdateWritesTheFrame := by
  intro α s c lane wait f hi hx ha hl hlane hm hne ho
  have hlen := f.chunks_flatten_length hne
  refine ⟨f.chunks_flatten hne, hlen, ?_⟩
  have hwritten : ∃ c' t, (c.update wait f).perform s = some (c', t) ∧ FrameWritten lane f.chunks.flatten s t c'.phase := by
    rw [← hlen] at ho
    rw [update_eq hlane hm hne]
    cases wait with
    | false => exact fillFrame_writes hi hx ha hl hlane hm ho
    | true =>
      obtain ⟨hlane', hm'⟩ := after_polled_done hlane hm
      rw [if_pos rfl, perform_waitDone hx]
      exact fillFrame_writes (inv_respond hi _) hx ha hl hlane' hm' ho
  obtain ⟨c', t, hperform, hfault, hcap, hholds, hact, ⟨hbarrier, hempty, hbit⟩, hphase⟩ := hwritten
  exact ⟨c', t, hperform, hfault, hcap, hholds, hact, hbarrier, hempty, hbit, hphase⟩

end Sys2Proof.Machine
end

section
/-! The proofs of the family of spec/60_exceptions.md: an idle block changes nothing (rule R253). -/

namespace Sys2Proof.Machine

/-- While the command at the head is incomplete the Command Unit waits for a word on the port (rules R31, R90). -/
theorem commandReady_of_incomplete {s : State} (hd : decode s.cmdBuf = .incomplete) : s.commandReady = !s.port.isEmpty := by
  simp only [State.commandReady, hd]

/-- Settles O51: no word is on the port for the incomplete command, so the Command Unit too has no step, and no agent is enabled. -/
theorem idleBlockChangesNothing : Obligations.IdleBlockChangesNothing := by
  intro s hx hh hp hd
  have hc : s.commandReady = false := by rw [commandReady_of_incomplete hd, hp]; rfl
  exact step_of_none hh hc hx

end Sys2Proof.Machine
end

section
/-! The proofs of the family of spec/70_reset_and_hazards.md: reset (rules R260 to R262) and the hold during a transfer (rule R270). -/

namespace Sys2Proof.Machine

/-! ### The hold (rule R270) -/

/-- Settles O40: it is `exec_held`, the hold said once for the nine commands of the class. -/
theorem holdClassWaitsDuringATransfer : Obligations.HoldClassWaitsDuringATransfer := fun _ _ hc hx => exec_held hc hx

/-- While a transfer runs, a command of the hold class at the head leaves the Command Unit no step. -/
theorem commandReady_of_held {s : State} {i : Instr} (hd : decode s.cmdBuf = .instr i) (hc : i.holdClass = true)
    (hx : s.xferBusy = true) : s.commandReady = false := by
  simp only [State.commandReady, hd, hc, hx, Bool.and_self, Bool.not_true]

/-- Settles O38: the hold leaves the engine alone, so `run_transfer_alone` takes the block to `transferDone s`; there the Command Unit
is the one agent with a step, and it performs the command. -/
theorem heldCommandIsPerformedAfterTheTransfer : Obligations.HeldCommandIsPerformedAfterTheTransfer := by
  intro s i hi hx hhost hd hc
  have hh : s.hostReady = false := by rw [State.hostReady, hhost]
  have hrun : Sys2Proof.core.run (s.ncells - s.xferPos.toNat + 1) s = .next (transferDone s) :=
    run_transfer_alone _ s hi hx hh (commandReady_of_held hd hc hx) rfl
  have hstep : step (transferDone s) = exec i (transferDone s) :=
    (stepRunsTheDecodedCommand (transferDone s) i hd (by simp [transferDone])).1 hh rfl
  refine ⟨transferDone s, hrun, rfl, hstep, ?_⟩
  simp [transferDone, SameRegistry, SameShape, SameBytes, SameLog, SameOutside, SameAlloc]

/-! ### Reset (rules R260 to R262) -/

/-- A reset records the transfer in flight, if there is one, as cut short. -/
theorem sentAtReset_eq_append (s : State) :
    s.sentAtReset = s.sent ++ (if s.xferBusy = true then [{ frame := s.frame, completed := false }] else []) := by
  cases hx : s.xferBusy <;> simp [State.sentAtReset, hx]

/-- Settles O52: the host's step is `resetBlock`, whose fields are those of `State.resetOf` but for what is outside the block and the
record of transfers. -/
theorem resetClearsTheBlock : Obligations.ResetClearsTheBlock := by
  intro s rest hhost
  have hstep : agentStep .host s = .next (resetBlock { s with host := rest }) := by rw [agentStep, hostStep, hhost]
  refine ⟨_, hstep, ?_⟩
  rw [← sentAtReset_eq_append]
  simp [resetBlock, State.resetOf, State.sentAtReset, SameRegistry, SameShape, SameLog, SameAlloc]

end Sys2Proof.Machine
end
